-- ==== Sys2Proof/Word.lean ====
section
/-! DEFINITION. The word types of the machine: bytes, 16-bit words, register and key indices. -/

namespace Sys2Proof

/-- A register, memory cell or byte immediate: unsigned, 8 bits (00_scope.md R9, 10_state.md R15). -/
abbrev Byte := BitVec 8

/-- An opcode word, pc, I or a stack entry: unsigned, 16 bits (00_scope.md R6). -/
abbrev Word := BitVec 16

/-- A 12-bit address immediate, the field nnn (30_encoding.md R57). -/
abbrev Addr12 := BitVec 12

/-- A register index x or y: every value 0..15 names a register (30_encoding.md R57). -/
abbrev RegIdx := Fin 16

/-- A logical key 0x0..0xF (10_state.md R27). -/
abbrev Key := Fin 16

/-- The flag register VF, register 15 (10_state.md R16). -/
abbrev regF : RegIdx := 15

end Sys2Proof
end

