-- ==== Sys2Proof/Syntax.lean ====
section
/-! DEFINITION. The instruction set: one constructor per row of spec/opcode_table.json (30_encoding.md R59). -/

namespace Sys2Proof

/-- An instruction with its operands. Register operands are indices, `kk` a byte, `nnn` a 12-bit address, `n` a row count
(30_encoding.md R55 to R57). -/
inductive Instr where
  /-- 00E0 CLS (45_display.md R111) -/
  | cls
  /-- 00EE RET (41_control_flow.md R75) -/
  | ret
  /-- 0NNN SYS nnn, any other op-0 word (R76) -/
  | sys (nnn : Addr12)
  /-- 1nnn JP nnn (R77) -/
  | jp (nnn : Addr12)
  /-- 2nnn CALL nnn (R78) -/
  | call (nnn : Addr12)
  /-- 3xkk SE Vx, kk (42_skips.md R82) -/
  | seImm (x : RegIdx) (kk : Byte)
  /-- 4xkk SNE Vx, kk (R83) -/
  | sneImm (x : RegIdx) (kk : Byte)
  /-- 5xy0 SE Vx, Vy (R84) -/
  | seReg (x y : RegIdx)
  /-- 6xkk LD Vx, kk (43_alu.md R90) -/
  | ldImm (x : RegIdx) (kk : Byte)
  /-- 7xkk ADD Vx, kk (R91) -/
  | addImm (x : RegIdx) (kk : Byte)
  /-- 8xy0 LD Vx, Vy (R92) -/
  | ldReg (x y : RegIdx)
  /-- 8xy1 OR Vx, Vy (R93) -/
  | or (x y : RegIdx)
  /-- 8xy2 AND Vx, Vy (R94) -/
  | and (x y : RegIdx)
  /-- 8xy3 XOR Vx, Vy (R95) -/
  | xor (x y : RegIdx)
  /-- 8xy4 ADD Vx, Vy (R96) -/
  | addReg (x y : RegIdx)
  /-- 8xy5 SUB Vx, Vy (R97) -/
  | sub (x y : RegIdx)
  /-- 8xy6 SHR Vx, Vy (R98) -/
  | shr (x y : RegIdx)
  /-- 8xy7 SUBN Vx, Vy (R99) -/
  | subn (x y : RegIdx)
  /-- 8xyE SHL Vx, Vy (R100) -/
  | shl (x y : RegIdx)
  /-- 9xy0 SNE Vx, Vy (42_skips.md R85) -/
  | sneReg (x y : RegIdx)
  /-- Annn LD I, nnn (44_index_memory.md R103) -/
  | ldI (nnn : Addr12)
  /-- Bnnn JP V0, nnn (41_control_flow.md R79) -/
  | jpV0 (nnn : Addr12)
  /-- Cxkk RND Vx, kk (43_alu.md R101) -/
  | rnd (x : RegIdx) (kk : Byte)
  /-- Dxyn DRW Vx, Vy, n (45_display.md R112) -/
  | drw (x y : RegIdx) (n : BitVec 4)
  /-- Ex9E SKP Vx (42_skips.md R86) -/
  | skp (x : RegIdx)
  /-- ExA1 SKNP Vx (R87) -/
  | sknp (x : RegIdx)
  /-- Fx07 LD Vx, DT (46_timers_keys.md R121) -/
  | ldVxDT (x : RegIdx)
  /-- Fx0A LD Vx, K (R122) -/
  | ldVxK (x : RegIdx)
  /-- Fx15 LD DT, Vx (R123) -/
  | ldDTVx (x : RegIdx)
  /-- Fx18 LD ST, Vx (R124) -/
  | ldSTVx (x : RegIdx)
  /-- Fx1E ADD I, Vx (44_index_memory.md R104) -/
  | addIVx (x : RegIdx)
  /-- Fx29 LD F, Vx (R105) -/
  | ldFVx (x : RegIdx)
  /-- Fx33 LD B, Vx (R106) -/
  | ldBVx (x : RegIdx)
  /-- Fx55 LD [I], Vx (R107) -/
  | ldMemVx (x : RegIdx)
  /-- Fx65 LD Vx, [I] (R108) -/
  | ldVxMem (x : RegIdx)
  /-- any word that matches no row above (41_control_flow.md R80); the word itself is kept -/
  | undefined (w : Word)
deriving DecidableEq, Repr

end Sys2Proof
end

