-- ==== Sys2Proof/Decode.lean ====
section
/-! DEFINITION. The decoder and the encoder, from the field table and the opcode map of 30_encoding.md (R55, R58, R59). -/

namespace Sys2Proof

/-! ## Fields of an opcode word (30_encoding.md R55) -/

/-- op = w[15:12] -/
def fieldOp (w : Word) : BitVec 4 := w.extractLsb' 12 4

/-- x = w[11:8] -/
def fieldX (w : Word) : RegIdx := (w.extractLsb' 8 4).toFin

/-- y = w[7:4] -/
def fieldY (w : Word) : RegIdx := (w.extractLsb' 4 4).toFin

/-- n = w[3:0] -/
def fieldN (w : Word) : BitVec 4 := w.extractLsb' 0 4

/-- kk = w[7:0] -/
def fieldKK (w : Word) : Byte := w.extractLsb' 0 8

/-- nnn = w[11:0] -/
def fieldNNN (w : Word) : Addr12 := w.extractLsb' 0 12

/-! ## Decoding (30_encoding.md R58; 40_cycle.md R67: it always succeeds) -/

/-- Op 0: the full 16 bits; anything but 00E0 and 00EE is 0NNN. -/
def decode0 (w : Word) : Instr :=
  if w = 0x00E0 then .cls else if w = 0x00EE then .ret else .sys (fieldNNN w)

/-- Op 8: the top nibble and n. -/
def decode8 (w : Word) : Instr :=
  if fieldN w = 0x0 then .ldReg (fieldX w) (fieldY w)
  else if fieldN w = 0x1 then .or (fieldX w) (fieldY w)
  else if fieldN w = 0x2 then .and (fieldX w) (fieldY w)
  else if fieldN w = 0x3 then .xor (fieldX w) (fieldY w)
  else if fieldN w = 0x4 then .addReg (fieldX w) (fieldY w)
  else if fieldN w = 0x5 then .sub (fieldX w) (fieldY w)
  else if fieldN w = 0x6 then .shr (fieldX w) (fieldY w)
  else if fieldN w = 0x7 then .subn (fieldX w) (fieldY w)
  else if fieldN w = 0xE then .shl (fieldX w) (fieldY w)
  else .undefined w

/-- Op E: the top nibble and kk. -/
def decodeE (w : Word) : Instr :=
  if fieldKK w = 0x9E then .skp (fieldX w)
  else if fieldKK w = 0xA1 then .sknp (fieldX w)
  else .undefined w

/-- Op F: the top nibble and kk. -/
def decodeF (w : Word) : Instr :=
  if fieldKK w = 0x07 then .ldVxDT (fieldX w)
  else if fieldKK w = 0x0A then .ldVxK (fieldX w)
  else if fieldKK w = 0x15 then .ldDTVx (fieldX w)
  else if fieldKK w = 0x18 then .ldSTVx (fieldX w)
  else if fieldKK w = 0x1E then .addIVx (fieldX w)
  else if fieldKK w = 0x29 then .ldFVx (fieldX w)
  else if fieldKK w = 0x33 then .ldBVx (fieldX w)
  else if fieldKK w = 0x55 then .ldMemVx (fieldX w)
  else if fieldKK w = 0x65 then .ldVxMem (fieldX w)
  else .undefined w

/-- The instruction a 16-bit word stands for: dispatch on the top nibble, then on the sub-field the family uses (R58). -/
def decode (w : Word) : Instr :=
  match (fieldOp w).toNat with
  | 0x0 => decode0 w
  | 0x1 => .jp (fieldNNN w)
  | 0x2 => .call (fieldNNN w)
  | 0x3 => .seImm (fieldX w) (fieldKK w)
  | 0x4 => .sneImm (fieldX w) (fieldKK w)
  | 0x5 => if fieldN w = 0 then .seReg (fieldX w) (fieldY w) else .undefined w
  | 0x6 => .ldImm (fieldX w) (fieldKK w)
  | 0x7 => .addImm (fieldX w) (fieldKK w)
  | 0x8 => decode8 w
  | 0x9 => if fieldN w = 0 then .sneReg (fieldX w) (fieldY w) else .undefined w
  | 0xA => .ldI (fieldNNN w)
  | 0xB => .jpV0 (fieldNNN w)
  | 0xC => .rnd (fieldX w) (fieldKK w)
  | 0xD => .drw (fieldX w) (fieldY w) (fieldN w)
  | 0xE => decodeE w
  | _ => decodeF w

/-- Why bytes hold no instruction: the only way is that the word is not whole, since every word decodes (40_cycle.md R67). -/
inductive DecodeError where
  /-- fewer than two bytes are left -/
  | truncated
deriving DecidableEq, Repr

/-- The word of two bytes, the first in bits 15:8 (20_memory.md R41, big-endian). -/
def wordOfBytes (hi lo : Byte) : Word := hi ++ lo

/-- Decode the first instruction of a byte stream and return what is left (30_encoding.md R54: always two bytes). -/
def decodeBytes : List Byte → Except DecodeError (Instr × List Byte)
  | hi :: lo :: rest => .ok (decode (wordOfBytes hi lo), rest)
  | _ => .error .truncated

/-! ## Encoding, from the match column and the field layout of the opcode map (30_encoding.md R56, R59) -/

/-- Format NNN: op(4) nnn(12). -/
def packNNN (op : BitVec 4) (nnn : Addr12) : Word := op ++ nnn

/-- Format XKK, and format X with its sub-opcode as kk: op(4) x(4) kk(8). -/
def packXKK (op : BitVec 4) (x : RegIdx) (kk : Byte) : Word := (op ++ (BitVec.ofFin x : BitVec 4)) ++ kk

/-- Formats XY and XYN: op(4) x(4) y(4) n(4). -/
def packXYN (op : BitVec 4) (x y : RegIdx) (n : BitVec 4) : Word :=
  (op ++ (BitVec.ofFin x : BitVec 4)) ++ ((BitVec.ofFin y : BitVec 4) ++ n)

/-- The word of an instruction. -/
def encode : Instr → Word
  | .cls => 0x00E0
  | .ret => 0x00EE
  | .sys nnn => packNNN 0x0 nnn
  | .jp nnn => packNNN 0x1 nnn
  | .call nnn => packNNN 0x2 nnn
  | .seImm x kk => packXKK 0x3 x kk
  | .sneImm x kk => packXKK 0x4 x kk
  | .seReg x y => packXYN 0x5 x y 0x0
  | .ldImm x kk => packXKK 0x6 x kk
  | .addImm x kk => packXKK 0x7 x kk
  | .ldReg x y => packXYN 0x8 x y 0x0
  | .or x y => packXYN 0x8 x y 0x1
  | .and x y => packXYN 0x8 x y 0x2
  | .xor x y => packXYN 0x8 x y 0x3
  | .addReg x y => packXYN 0x8 x y 0x4
  | .sub x y => packXYN 0x8 x y 0x5
  | .shr x y => packXYN 0x8 x y 0x6
  | .subn x y => packXYN 0x8 x y 0x7
  | .shl x y => packXYN 0x8 x y 0xE
  | .sneReg x y => packXYN 0x9 x y 0x0
  | .ldI nnn => packNNN 0xA nnn
  | .jpV0 nnn => packNNN 0xB nnn
  | .rnd x kk => packXKK 0xC x kk
  | .drw x y n => packXYN 0xD x y n
  | .skp x => packXKK 0xE x 0x9E
  | .sknp x => packXKK 0xE x 0xA1
  | .ldVxDT x => packXKK 0xF x 0x07
  | .ldVxK x => packXKK 0xF x 0x0A
  | .ldDTVx x => packXKK 0xF x 0x15
  | .ldSTVx x => packXKK 0xF x 0x18
  | .addIVx x => packXKK 0xF x 0x1E
  | .ldFVx x => packXKK 0xF x 0x29
  | .ldBVx x => packXKK 0xF x 0x33
  | .ldMemVx x => packXKK 0xF x 0x55
  | .ldVxMem x => packXKK 0xF x 0x65
  | .undefined w => w

/-- The bytes of a word in memory order, the high byte first (20_memory.md R41). -/
def bytesOfWord (w : Word) : List Byte := [w.extractLsb' 8 8, w.extractLsb' 0 8]

/-- The two bytes of an instruction in memory order. -/
def encodeBytes (i : Instr) : List Byte := bytesOfWord (encode i)

/-! ## The opcode map as data (30_encoding.md R59), to hold the decoder against -/

/-- The operand formats (30_encoding.md R56). -/
inductive Format where
  | O
  | NNN
  | XKK
  | XY
  | XYN
  | X
deriving DecidableEq, Repr

/-- The operand fields of a word in a format, left to right (R55, R56). -/
def Format.fields : Format → Word → List Nat
  | .O, _ => []
  | .NNN, w => [(fieldNNN w).toNat]
  | .XKK, w => [(fieldX w).val, (fieldKK w).toNat]
  | .XY, w => [(fieldX w).val, (fieldY w).val]
  | .XYN, w => [(fieldX w).val, (fieldY w).val, (fieldN w).toNat]
  | .X, w => [(fieldX w).val]

/-- One row of the opcode map. -/
structure OpcodeRow where
  /-- `w &&& mask = pattern` selects the row -/
  pattern : Word
  mask : Word
  /-- where the operands stand -/
  format : Format
  /-- the row's mnemonic as spec/opcode_table.json spells it -/
  mnemonic : String
deriving DecidableEq, Repr

/-- The 35 rows, top to bottom. -/
def opcodeMap : List OpcodeRow :=
  [⟨0x00E0, 0xFFFF, .O, "CLS"⟩, ⟨0x00EE, 0xFFFF, .O, "RET"⟩, ⟨0x0000, 0xF000, .NNN, "SYS_nnn"⟩, ⟨0x1000, 0xF000, .NNN, "JP_nnn"⟩,
   ⟨0x2000, 0xF000, .NNN, "CALL_nnn"⟩, ⟨0x3000, 0xF000, .XKK, "SE_Vx__kk"⟩, ⟨0x4000, 0xF000, .XKK, "SNE_Vx__kk"⟩,
   ⟨0x5000, 0xF00F, .XY, "SE_Vx__Vy"⟩, ⟨0x6000, 0xF000, .XKK, "LD_Vx__kk"⟩, ⟨0x7000, 0xF000, .XKK, "ADD_Vx__kk"⟩] ++
  [⟨0x8000, 0xF00F, .XY, "LD_Vx__Vy"⟩, ⟨0x8001, 0xF00F, .XY, "OR_Vx__Vy"⟩, ⟨0x8002, 0xF00F, .XY, "AND_Vx__Vy"⟩,
   ⟨0x8003, 0xF00F, .XY, "XOR_Vx__Vy"⟩, ⟨0x8004, 0xF00F, .XY, "ADD_Vx__Vy"⟩, ⟨0x8005, 0xF00F, .XY, "SUB_Vx__Vy"⟩,
   ⟨0x8006, 0xF00F, .XY, "SHR_Vx__Vy"⟩, ⟨0x8007, 0xF00F, .XY, "SUBN_Vx__Vy"⟩, ⟨0x800E, 0xF00F, .XY, "SHL_Vx__Vy"⟩,
   ⟨0x9000, 0xF00F, .XY, "SNE_Vx__Vy"⟩] ++
  [⟨0xA000, 0xF000, .NNN, "LD_I__nnn"⟩, ⟨0xB000, 0xF000, .NNN, "JP_V0__nnn"⟩, ⟨0xC000, 0xF000, .XKK, "RND_Vx__kk"⟩,
   ⟨0xD000, 0xF000, .XYN, "DRW_Vx__Vy__n"⟩, ⟨0xE09E, 0xF0FF, .X, "SKP_Vx"⟩, ⟨0xE0A1, 0xF0FF, .X, "SKNP_Vx"⟩,
   ⟨0xF007, 0xF0FF, .X, "LD_Vx__DT"⟩, ⟨0xF00A, 0xF0FF, .X, "LD_Vx__K"⟩, ⟨0xF015, 0xF0FF, .X, "LD_DT__Vx"⟩,
   ⟨0xF018, 0xF0FF, .X, "LD_ST__Vx"⟩, ⟨0xF01E, 0xF0FF, .X, "ADD_I__Vx"⟩, ⟨0xF029, 0xF0FF, .X, "LD_F__Vx"⟩,
   ⟨0xF033, 0xF0FF, .X, "LD_B__Vx"⟩, ⟨0xF055, 0xF0FF, .X, "LD__I___Vx"⟩, ⟨0xF065, 0xF0FF, .X, "LD_Vx___I"⟩]

/-- "A word is decoded by the first row, top to bottom, whose `w & mask == match`" (30_encoding.md R59); no row is the undefined
opcode (R60). -/
def mapRow (w : Word) : Option OpcodeRow := opcodeMap.find? fun r => w &&& r.mask == r.pattern

/-- The row of spec/opcode_table.json an instruction belongs to. -/
def Instr.mnemonic : Instr → String
  | .cls => "CLS"
  | .ret => "RET"
  | .sys _ => "SYS_nnn"
  | .jp _ => "JP_nnn"
  | .call _ => "CALL_nnn"
  | .seImm _ _ => "SE_Vx__kk"
  | .sneImm _ _ => "SNE_Vx__kk"
  | .seReg _ _ => "SE_Vx__Vy"
  | .ldImm _ _ => "LD_Vx__kk"
  | .addImm _ _ => "ADD_Vx__kk"
  | .ldReg _ _ => "LD_Vx__Vy"
  | .or _ _ => "OR_Vx__Vy"
  | .and _ _ => "AND_Vx__Vy"
  | .xor _ _ => "XOR_Vx__Vy"
  | .addReg _ _ => "ADD_Vx__Vy"
  | .sub _ _ => "SUB_Vx__Vy"
  | .shr _ _ => "SHR_Vx__Vy"
  | .subn _ _ => "SUBN_Vx__Vy"
  | .shl _ _ => "SHL_Vx__Vy"
  | .sneReg _ _ => "SNE_Vx__Vy"
  | .ldI _ => "LD_I__nnn"
  | .jpV0 _ => "JP_V0__nnn"
  | .rnd _ _ => "RND_Vx__kk"
  | .drw _ _ _ => "DRW_Vx__Vy__n"
  | .skp _ => "SKP_Vx"
  | .sknp _ => "SKNP_Vx"
  | .ldVxDT _ => "LD_Vx__DT"
  | .ldVxK _ => "LD_Vx__K"
  | .ldDTVx _ => "LD_DT__Vx"
  | .ldSTVx _ => "LD_ST__Vx"
  | .addIVx _ => "ADD_I__Vx"
  | .ldFVx _ => "LD_F__Vx"
  | .ldBVx _ => "LD_B__Vx"
  | .ldMemVx _ => "LD__I___Vx"
  | .ldVxMem _ => "LD_Vx___I"
  | .undefined _ => "(undefined)"

/-- The operands of an instruction as numbers, left to right. -/
def Instr.operands : Instr → List Nat
  | .cls | .ret | .undefined _ => []
  | .sys nnn | .jp nnn | .call nnn | .ldI nnn | .jpV0 nnn => [nnn.toNat]
  | .seImm x kk | .sneImm x kk | .ldImm x kk | .addImm x kk | .rnd x kk => [x.val, kk.toNat]
  | .seReg x y | .sneReg x y | .ldReg x y | .or x y | .and x y | .xor x y | .addReg x y | .sub x y | .shr x y | .subn x y
  | .shl x y => [x.val, y.val]
  | .drw x y n => [x.val, y.val, n.toNat]
  | .skp x | .sknp x | .ldVxDT x | .ldVxK x | .ldDTVx x | .ldSTVx x | .addIVx x | .ldFVx x | .ldBVx x | .ldMemVx x
  | .ldVxMem x => [x.val]

/-! ## The host's view of the decoder -/

/-- The bytes, as memory holds them, of an instruction given as one number of `nbits` bits (every bit above them 0). -/
def tableBytes (nbits w : Nat) : List Byte := bytesOfWord (BitVec.ofNat 16 (w % 2 ^ nbits))

/-- The instruction the decoder reads from an opcode-table word: the word is laid out big-endian and its bytes are decoded. -/
def decodeTableWord (nbits w : Nat) : Option Instr :=
  match decodeBytes (tableBytes nbits w) with
  | .ok (i, _) => some i
  | .error _ => none

end Sys2Proof
end

