-- ==== Sys2Proof/Config.lean ====
section
/-! DEFINITION. The parameters the spec leaves open (00_scope.md R7), what the host supplies to a step
(40_cycle.md R63), and the free values: opaque constants that no proof can evaluate. -/

namespace Sys2Proof

/-- The keypad: 16 flags, `true` when the key is pressed (10_state.md R27). -/
abbrev Keypad := Vector Bool 16

/-- The parameters of 00_scope.md R7 that the spec leaves OPEN: "The model takes each one as an argument".
They are carried in the field `cfg` of State, so a statement about every state holds for every value of them. -/
structure Config where
  /-- FONT_ROM: the 80 bytes installed at 0x000..0x04F (45_display.md R114, R115; D8). -/
  fontRom : Vector Byte 80
  /-- KEY_SCAN_ORDER: the order in which Fx0A scans the keys (46_timers_keys.md R122; D9). -/
  keyScanOrder : List Key
  /-- TIMER_PERIOD: the number of units of `now` in 1/60 second (46_timers_keys.md R116; D13). -/
  timerPeriod : Nat
deriving DecidableEq, Repr

/-- What the host does between two steps, as the next step sees it: how much time passed (so that `now` never decreases,
60_exceptions.md R138), the keypad it leaves (R135), and the random byte of the step (43_alu.md R102). -/
structure HostInput where
  elapsed : Nat
  keys    : Keypad
  draw    : Byte
deriving DecidableEq, Repr, Inhabited

namespace Config

/-- KEY_SCAN_ORDER is a permutation of 0..15 and TIMER_PERIOD is at least 1 (D9, D13). -/
abbrev wf (c : Config) : Prop :=
  c.keyScanOrder.Perm (List.finRange 16) ∧ 1 ≤ c.timerPeriod

/-- FREE VALUE (log 1, 9): the host's inputs that State's schedule does not name, the n-th of them. No body: nothing is known of
the time that passes, of the keys or of the random byte. -/
opaque hostInput : Nat → HostInput

/-- FREE VALUE (log 5): TIMER_PERIOD less one, on the machine of `State.reset`. -/
opaque timerPeriodLessOne : Nat

/-- PRESUMED (log 3): the default FONT_ROM of 45_display.md R115, the conventional CHIP-8 hexadecimal font, glyphs 0 to F. -/
def defaultFont : Vector Byte 80 := #v[
  0xF0, 0x90, 0x90, 0x90, 0xF0,  0x20, 0x60, 0x20, 0x20, 0x70,
  0xF0, 0x10, 0xF0, 0x80, 0xF0,  0xF0, 0x10, 0xF0, 0x10, 0xF0,
  0x90, 0x90, 0xF0, 0x10, 0x10,  0xF0, 0x80, 0xF0, 0x10, 0xF0,
  0xF0, 0x80, 0xF0, 0x90, 0xF0,  0xF0, 0x10, 0x20, 0x40, 0x40,
  0xF0, 0x90, 0xF0, 0x90, 0xF0,  0xF0, 0x90, 0xF0, 0x10, 0xF0,
  0xF0, 0x90, 0xF0, 0x90, 0x90,  0xE0, 0x90, 0xE0, 0x90, 0xE0,
  0xF0, 0x80, 0x80, 0x80, 0xF0,  0xE0, 0x90, 0x90, 0x90, 0xE0,
  0xF0, 0x80, 0xF0, 0x80, 0xF0,  0xF0, 0x80, 0xF0, 0x80, 0x80]

/-- PRESUMED (log 4): the default KEY_SCAN_ORDER, ascending (46_timers_keys.md R122; D9). -/
def ascendingKeys : List Key := [0, 1, 2, 3, 4, 5, 6, 7, 8, 9, 10, 11, 12, 13, 14, 15]

/-- The parameters of the machine of `State.reset`: the spec's defaults, and a TIMER_PERIOD that is left free. -/
def standard : Config where
  fontRom := defaultFont
  keyScanOrder := ascendingKeys
  timerPeriod := timerPeriodLessOne + 1

end Config

/-- A keypad with no key pressed. -/
def Keypad.released : Keypad := Vector.replicate 16 false

end Sys2Proof
end

