-- ==== Sys2Proof/Machine/State.lean ====
section
/-! DEFINITION. The machine's state as plain data, the reasons it can stop, and the state after reset (10_state.md, 70_reset_and_hazards.md). -/

namespace Sys2Proof.Machine

/-- The model faults of 60_exceptions.md R126, and no others. Each one stops the machine where the source gives the behaviour no
meaning; all are SAFE in the guide's sense: the model stops where the reference goes on in a way the source does not state. -/
inductive Fault where
  /-- Raised by the fetch of any step when pc + 1 > 0xFFF (40_cycle.md R66; D2). Safe. -/
  | fetchBounds
  /-- Raised by Dxyn, Fx33, Fx55, Fx65 when a data byte address exceeds 0xFFF (20_memory.md R39; D3). Safe. -/
  | memBounds
  /-- Raised by 2nnn when sp = 16 (41_control_flow.md R78; D1). Safe. -/
  | stackOverflow
  /-- Raised by 00EE when sp = 0 (41_control_flow.md R75; D1). Safe. -/
  | stackUnderflow
  /-- Raised by Ex9E and ExA1 when Vx > 15 (42_skips.md R86, R87; D10). Safe. -/
  | keyIndex
  /-- Raised by Dxyn when a set sprite bit falls outside 64 x 32 (45_display.md R112; D5). Safe. -/
  | displayBounds
deriving DecidableEq, Repr

/-- Why the model gives an instruction no meaning. No instruction of this model is refused. -/
inductive Refusal where
  /-- Raised by the dispatch for an instruction that has no meaning yet. Safe. No arm raises it. -/
  | notModelled (mnemonic : String)
deriving DecidableEq, Repr

/-- Memory as the cells that differ from its reset content, in rising address order (20_memory.md R36; `Memory.wf`). -/
abbrev Memory := List Host.Cell

/-- The framebuffer: 32 rows of 64 cells, `true` for a set cell (10_state.md R26, 45_display.md R109). -/
abbrev Display := Vector (Vector Bool 64) 32

/-- Everything the spec gives the machine (10_state.md), then the inputs of the coming step, then the model's own fields. -/
structure State where
  /-- V0..VF (10_state.md R15, R16) -/
  V : Vector Byte 16
  /-- the index register, 16 bits stored, never masked (R18) -/
  I : Word
  /-- the program counter: the address of the instruction's first byte (R19) -/
  pc : Word
  /-- the call stack (R21) -/
  stack : Vector Word 16
  /-- the count of live stack entries, 0..16 (R22) -/
  sp : Fin 17
  /-- the delay timer (R23) -/
  DT : Byte
  /-- the sound timer (R24) -/
  ST : Byte
  /-- last_delay_tick, a value of `now` (R25) -/
  lastDelayTick : Nat
  /-- last_sound_tick, a value of `now` (R25) -/
  lastSoundTick : Nat
  /-- the framebuffer (R26) -/
  display : Display
  /-- the keypad as the coming step sees it; the host writes it (R27) -/
  keys : Keypad
  /-- the word of the last fetch (R28) -/
  currentOpcode : Word
  /-- none while the machine runs (R30; 60_exceptions.md R128) -/
  fault : Option Fault
  /-- memory (20_memory.md R36) -/
  mem : Memory
  /-- the time input of the coming step (46_timers_keys.md R116) -/
  now : Nat
  /-- the random byte of the coming step, free (43_alu.md R102) -/
  draw : Byte
  /-- tone output: how many tone events were emitted (46_timers_keys.md R119) -/
  tones : Nat
  /-- MODEL's own (log 1): the host's inputs already known for later steps, oldest first -/
  inputs : List HostInput
  /-- MODEL's own (log 1): how many inputs were taken from `Config.hostInput` -/
  turn : Nat
  /-- the machine's parameters (00_scope.md R7); nothing writes them -/
  cfg : Config
deriving DecidableEq, Repr

/-- The machine right after reset (10_state.md R34, 70_reset_and_hazards.md R145). Memory lists nothing, so it reads as its reset
content: FONT_ROM, then zeros. DESIGN CHOICE and PRESUMED values: log 3 to 10. -/
def State.reset : State where
  V := Vector.replicate 16 0
  I := 0
  pc := 0x200
  stack := Vector.replicate 16 0
  sp := 0
  DT := 0
  ST := 0
  lastDelayTick := 0
  lastSoundTick := 0
  display := Vector.replicate 32 (Vector.replicate 64 false)
  keys := Keypad.released
  currentOpcode := 0
  fault := none
  mem := []
  now := 0
  draw := (Config.hostInput 0).draw
  tones := 0
  inputs := []
  turn := 1
  cfg := Config.standard

end Sys2Proof.Machine
end

