-- ==== Sys2Proof/Machine/Ops.lean ====
section
/-! DEFINITION. The named operations over registers, pc and memory that every meaning is written with (00_scope.md R10, 20_memory.md).
The hardware takes no exceptions (60_exceptions.md R125, R130), so there is no exception entry here: a fault is an outcome, and
`recordFault` is what it leaves (R127, R128). -/

namespace Sys2Proof.Machine

/-- The outcome of a meaning. -/
abbrev Result := Host.Outcome State Fault Refusal

/-! ## Registers (10_state.md R15 to R19) -/

/-- `V[x]` -/
def State.reg (s : State) (x : RegIdx) : Byte := s.V[x]

/-- `V[x] <- b`; there are no hardwired or banked registers (R15). -/
def State.setReg (s : State) (x : RegIdx) (b : Byte) : State := { s with V := s.V.set x b }

/-- `V[15] <- b` (R16) -/
def State.setVF (s : State) (b : Byte) : State := s.setReg regF b

/-- `V[k] <- b` for each byte in turn, k ascending from `k`. -/
def State.setRegs (s : State) (k : Nat) : List Byte → State
  | [] => s
  | b :: bs => State.setRegs { s with V := s.V.setIfInBounds k b } (k + 1) bs

/-- `I <- a` -/
def State.setI (s : State) (a : Word) : State := { s with I := a }

/-! ## Program counter (40_cycle.md R68, R69): every meaning writes its own next pc, modulo 2^16 -/

/-- Normal advance: `pc <- pc + 2`. -/
def State.advance (s : State) : State := { s with pc := s.pc + 2 }

/-- Skip when `c` holds, else normal advance: `pc <- pc + 4` or `pc <- pc + 2` (40_cycle.md R70). -/
def State.skipIf (s : State) (c : Bool) : State := { s with pc := if c then s.pc + 4 else s.pc + 2 }

/-- A control transfer: `pc <- target`. -/
def State.jump (s : State) (target : Word) : State := { s with pc := target }

/-! ## Memory cells: a canonical list over the reset content (20_memory.md R36, R38, R46) -/

/-- What an address that memory does not list reads as: the reset content, FONT_ROM below 0x050 and 0 above (70_reset_and_hazards.md
R145). This is the one definition of an unlisted cell (log 33). -/
def resetByte (c : Config) (a : Nat) : Byte := if h : a < 80 then c.fontRom[a] else 0

/-- `memory[a]` -/
def Memory.read (c : Config) : Memory → Nat → Byte
  | [], a => resetByte c a
  | (k, v) :: rest, a => if k = a then v else Memory.read c rest a

/-- `memory[a] <- b`, keeping the list in rising order without cells that hold their reset content. -/
def Memory.write (c : Config) : Memory → Nat → Byte → Memory
  | [], a, b => if b = resetByte c a then [] else [(a, b)]
  | (k, v) :: rest, a, b =>
    if a < k then (if b = resetByte c a then (k, v) :: rest else (a, b) :: (k, v) :: rest)
    else if a = k then (if b = resetByte c a then rest else (a, b) :: rest)
    else (k, v) :: Memory.write c rest a b

/-- The canonical form: addresses strictly rising and below 4096, and no cell equal to its reset content. -/
abbrev Memory.wf (c : Config) (m : Memory) : Prop :=
  m.Pairwise (fun p q => p.1 < q.1) ∧ ∀ p ∈ m, p.1 < 4096 ∧ p.2 ≠ resetByte c p.1

/-- The byte at address `a`; only addresses up to 0xFFF are cells (R36). -/
def State.peek (s : State) (a : Nat) : Byte := Memory.read s.cfg s.mem a

/-- The byte at address `a` becomes `b`. -/
def State.poke (s : State) (a : Nat) (b : Byte) : State := { s with mem := Memory.write s.cfg s.mem a b }

/-- `n` bytes from `a` on, ascending. -/
def State.peekMany (s : State) (a : Nat) : Nat → List Byte
  | 0 => []
  | n + 1 => s.peek a :: State.peekMany s (a + 1) n

/-- Write each byte in turn, addresses ascending from `a` (20_memory.md R44). -/
def State.pokeMany (s : State) (a : Nat) : List Byte → State
  | [] => s
  | b :: bs => State.pokeMany (s.poke a b) (a + 1) bs

/-! ## Bounded accesses: the check comes before the first write (20_memory.md R39, R40) -/

/-- Every one of the `n` bytes from `a` on exists, that is, lies at an address up to 0xFFF. -/
def inMemory (a n : Nat) : Bool := n == 0 || a + n ≤ 4096

/-- Read `n` data bytes from `a` on and go on with them, or fault MemBounds. -/
def withBytes (s : State) (a n : Nat) (go : List Byte → Result) : Result :=
  if inMemory a n then go (s.peekMany a n) else .fault .memBounds

/-- Store the bytes from `a` on and advance, or fault MemBounds with nothing written. -/
def storeBytes (s : State) (a : Nat) (bs : List Byte) : Result :=
  if inMemory a bs.length then .next (s.pokeMany a bs).advance else .fault .memBounds

/-! ## Faults (60_exceptions.md R127, R128) -/

/-- The state a faulting step leaves: "the state after the step equals the state before it in every field except `fault`". -/
def recordFault (s : State) (k : Fault) : State := { s with fault := some k }

end Sys2Proof.Machine
end

