-- ==== Sys2Proof/Machine/Operands.lean ====
section
/-! DEFINITION. The operand forms: immediates, the effective address I + k, the key index, the decimal digits, the sprite's pixels
(30_encoding.md R57, 20_memory.md R40, 42_skips.md R86, 44_index_memory.md R106, 45_display.md R112). -/

namespace Sys2Proof.Machine

/-- `zext_16(nnn)` (30_encoding.md R57) -/
def zext16 (nnn : Addr12) : Word := nnn.setWidth 16

/-- `zext_16(V[x])` -/
def zextByte (b : Byte) : Word := b.setWidth 16

/-- The effective address of byte k: `I + k` on naturals, neither wrapped nor masked (20_memory.md R40). -/
def State.effAddr (s : State) (k : Nat) : Nat := s.I.toNat + k

/-- The key a register's value names; none above 15 (42_skips.md R86; D10). -/
def keyOf (b : Byte) : Option Key := if h : b.toNat < 16 then some ⟨b.toNat, h⟩ else none

/-- `Key[k]` -/
def State.pressed (s : State) (k : Key) : Bool := s.keys[k]

/-- The first pressed key in KEY_SCAN_ORDER (46_timers_keys.md R122). -/
def State.scanKeys (s : State) : Option Key := s.cfg.keyScanOrder.find? s.pressed

/-- The hundreds, tens and ones digit of a byte, in the order they are stored (44_index_memory.md R106). -/
def bcdDigits (v : Byte) : List Byte :=
  [BitVec.ofNat 8 (v.toNat / 100), BitVec.ofNat 8 (v.toNat / 10 % 10), BitVec.ofNat 8 (v.toNat % 10)]

/-- V0..Vx, ascending and inclusive (44_index_memory.md R107). -/
def State.regsUpTo (s : State) (x : RegIdx) : List Byte := s.V.toList.take (x.val + 1)

/-! ## Sprites (45_display.md R110, R112) -/

/-- A cell of the framebuffer, by row and column. -/
abbrev Cell := Fin 32 × Fin 64

/-- Bit 7 of a sprite byte is the leftmost pixel (column offset 0), bit 0 the rightmost (offset 7) (R110; D6, log 16). -/
def spriteBit (row : Byte) (i : Nat) : Bool := row.getLsbD (7 - i)

/-- The places, row and column, of the set bits of one sprite row that starts at column `cx` of display row `r`. -/
def rowPlaces (row : Byte) (r cx : Nat) : List (Nat × Nat) :=
  ((List.range 8).filter (spriteBit row)).map fun i => (r, cx + i)

/-- The places of a sprite's set bits, for j ascending and within a row i ascending; the first row lies at display row `cy`. -/
def spritePlaces (cx : Nat) : Nat → List Byte → List (Nat × Nat)
  | _, [] => []
  | cy, row :: rows => rowPlaces row cy cx ++ spritePlaces cx (cy + 1) rows

/-- The cell at a place; none outside the 64 x 32 grid: there is no wraparound (R112; D5). -/
def cellAt (p : Nat × Nat) : Option Cell :=
  if h : p.1 < 32 ∧ p.2 < 64 then some (⟨p.1, h.1⟩, ⟨p.2, h.2⟩) else none

/-- All the cells of a list of places, or none when one of them is off the grid. -/
def cellsAt : List (Nat × Nat) → Option (List Cell)
  | [] => some []
  | p :: ps =>
    match cellAt p, cellsAt ps with
    | some c, some cs => some (c :: cs)
    | _, _ => none

end Sys2Proof.Machine
end

