-- ==== Sys2Proof/Machine/Flags.lean ====
section
/-! DEFINITION. The values VF takes: carry, NOT borrow, shifted-out bits and the range flag (43_alu.md R89, 44_index_memory.md R104).
Each is computed exactly, on naturals or on the named bit. -/

namespace Sys2Proof.Machine

/-- A flag as VF holds it: 1 or 0. -/
def flagByte (b : Bool) : Byte := if b then 1 else 0

/-- 8xy4: the genuine unsigned carry of the 8-bit add, no signed overflow (R96). -/
def carryOut (a b : Byte) : Bool := a.toNat + b.toNat > 255

/-- 8xy5 and 8xy7: NOT borrow of minuend - subtrahend; equal operands give 1 (R97, R99). -/
def notBorrow (minuend subtrahend : Byte) : Bool := !(minuend.toNat < subtrahend.toNat)

/-- 8xy6: the bit shifted out at the bottom (R98). -/
def lowBit (b : Byte) : Byte := b &&& 1

/-- 8xyE: the bit shifted out at the top (R100). -/
def highBit (b : Byte) : Byte := (b >>> 7) &&& 1

/-- Fx1E: the exact sum passes 0xFFF (R104; D4). -/
def pastRange (sum : Nat) : Bool := sum > 0xFFF

end Sys2Proof.Machine
end

