-- ==== Sys2Proof/Machine/TimersKeys.lean ====
section
/-! DEFINITION. 46_timers_keys.md: the timer tick, the instructions that read and write the timers, and the key wait. -/

namespace Sys2Proof.Machine

/-- At least TIMER_PERIOD has passed since `last`: `now - last >= TIMER_PERIOD`, written without a difference so that it is exact (R117). -/
def periodOver (s : State) (last : Nat) : Bool := last + s.cfg.timerPeriod ≤ s.now

/-- R117: DT down by one when it is above 0 and a period is over; the stamp takes `now` (D13, log 19). -/
def delayTick (s : State) : State :=
  if s.DT != 0 && periodOver s s.lastDelayTick then { s with DT := s.DT - 1, lastDelayTick := s.now } else s

/-- R118: the same rule for ST, and one tone event at each decrement (R119). -/
def soundTick (s : State) : State :=
  if s.ST != 0 && periodOver s s.lastSoundTick then
    { s with ST := s.ST - 1, lastSoundTick := s.now, tones := s.tones + 1 }
  else s

/-- The timer tick at the end of every step that did not fault (40_cycle.md R71). -/
def timerTick (s : State) : State := soundTick (delayTick s)

/-- Fx07 LD Vx, DT: the value before this step's tick (R121) -/
def execLdVxDT (x : RegIdx) (s : State) : Result := .next (s.setReg x s.DT).advance

/-- Fx0A LD Vx, K: the first pressed key in KEY_SCAN_ORDER; with none pressed nothing changes and pc stays (R122; log 4, 20, 31) -/
def execLdVxK (x : RegIdx) (s : State) : Result :=
  .next (match s.scanKeys with
    | some k => (s.setReg x (BitVec.ofNat 8 k.val)).advance
    | none => s)

/-- Fx15 LD DT, Vx: DT and its stamp (R123) -/
def execLdDTVx (x : RegIdx) (s : State) : Result :=
  .next { s with DT := s.reg x, lastDelayTick := s.now }.advance

/-- Fx18 LD ST, Vx: ST and its stamp; no tone (R124; D26, log 28) -/
def execLdSTVx (x : RegIdx) (s : State) : Result :=
  .next { s with ST := s.reg x, lastSoundTick := s.now }.advance

end Sys2Proof.Machine
end

