-- ==== Sys2Proof/Machine/Cycle.lean ====
section
/-! DEFINITION. 40_cycle.md: what a step does around the instruction: the fetch before it, the timer tick and the host's turn after it. -/

namespace Sys2Proof.Machine

/-- The word at pc, big-endian, or none when pc + 1 > 0xFFF (R65, R66; 20_memory.md R41; D2). -/
def fetchWord (s : State) : Option Word :=
  if s.pc.toNat + 1 ≤ 0xFFF then some (wordOfBytes (s.peek s.pc.toNat) (s.peek (s.pc.toNat + 1))) else none

/-- The fetch's one write: `current_opcode <- w` (R65). It does not move pc. -/
def State.fetched (s : State) (w : Word) : State := { s with currentOpcode := w }

/-- The bytes stored where the next step fetches; at a pc from which nothing can be fetched, nothing is stored (log 37). -/
def State.placeBytes (s : State) (bs : List Byte) : State :=
  if s.pc.toNat + bs.length ≤ 4096 then s.pokeMany s.pc.toNat bs else s

/-- The inputs of the next step: the oldest scheduled one, or a free one when the schedule is empty (log 1). -/
def nextInput (s : State) : HostInput :=
  match s.inputs with
  | i :: _ => i
  | [] => Config.hostInput s.turn

/-- The host's turn between two steps: time passes (never backwards, 60_exceptions.md R138), the keypad and the random byte of the next
step are put in place (R135, 43_alu.md R102; log 1, 38). -/
def hostTurn (s : State) : State :=
  { s with
    now := s.now + (nextInput s).elapsed
    keys := (nextInput s).keys
    draw := (nextInput s).draw
    inputs := s.inputs.tail
    turn := if s.inputs.isEmpty then s.turn + 1 else s.turn }

/-- What every step that did not fault does after its instruction (R64, R71). -/
def endStep (s : State) : State := hostTurn (timerTick s)

end Sys2Proof.Machine
end

