-- ==== Sys2Proof/Machine/Alu.lean ====
section
/-! DEFINITION. 43_alu.md: the 8-bit ALU and register instructions. Statements run in the source's order, each reading the registers
as the one before left them (R89; D15, log 21); the order shows when x or y is F. -/

namespace Sys2Proof.Machine

/-- 6xkk LD Vx, kk (R90) -/
def execLdImm (x : RegIdx) (kk : Byte) (s : State) : Result := .next (s.setReg x kk).advance

/-- 7xkk ADD Vx, kk: no flag (R91) -/
def execAddImm (x : RegIdx) (kk : Byte) (s : State) : Result := .next (s.setReg x (s.reg x + kk)).advance

/-- 8xy0 LD Vx, Vy (R92) -/
def execLdReg (x y : RegIdx) (s : State) : Result := .next (s.setReg x (s.reg y)).advance

/-- 8xy1 OR Vx, Vy: VF unchanged unless it is Vx (R93; D22, log 25) -/
def execOr (x y : RegIdx) (s : State) : Result := .next (s.setReg x (s.reg x ||| s.reg y)).advance

/-- 8xy2 AND Vx, Vy (R94; D22) -/
def execAnd (x y : RegIdx) (s : State) : Result := .next (s.setReg x (s.reg x &&& s.reg y)).advance

/-- 8xy3 XOR Vx, Vy (R95; D22) -/
def execXor (x y : RegIdx) (s : State) : Result := .next (s.setReg x (s.reg x ^^^ s.reg y)).advance

/-- 8xy4 ADD Vx, Vy: the sum first, then the carry into VF (R96) -/
def execAddReg (x y : RegIdx) (s : State) : Result :=
  let carry := carryOut (s.reg x) (s.reg y)
  .next ((s.setReg x (s.reg x + s.reg y)).setVF (flagByte carry)).advance

/-- 8xy5 SUB Vx, Vy: VF first, then Vx - Vy of the registers as VF left them (R97) -/
def execSub (x y : RegIdx) (s : State) : Result :=
  let s₁ := s.setVF (flagByte (notBorrow (s.reg x) (s.reg y)))
  .next (s₁.setReg x (s₁.reg x - s₁.reg y)).advance

/-- 8xy6 SHR Vx, Vy: VF first, then Vy >> 1; the source is Vy, not Vx (R98) -/
def execShr (x y : RegIdx) (s : State) : Result :=
  let s₁ := s.setVF (lowBit (s.reg y))
  .next (s₁.setReg x (s₁.reg y >>> 1)).advance

/-- 8xy7 SUBN Vx, Vy: VF first, then Vy - Vx (R99) -/
def execSubn (x y : RegIdx) (s : State) : Result :=
  let s₁ := s.setVF (flagByte (notBorrow (s.reg y) (s.reg x)))
  .next (s₁.setReg x (s₁.reg y - s₁.reg x)).advance

/-- 8xyE SHL Vx, Vy: VF first, then Vy << 1 mod 256 (R100) -/
def execShl (x y : RegIdx) (s : State) : Result :=
  let s₁ := s.setVF (highBit (s.reg y))
  .next (s₁.setReg x (s₁.reg y <<< 1)).advance

/-- Cxkk RND Vx, kk: the step's free random byte, masked (R101, R102; D16, log 9) -/
def execRnd (x : RegIdx) (kk : Byte) (s : State) : Result := .next (s.setReg x (s.draw &&& kk)).advance

end Sys2Proof.Machine
end

