-- ==== Sys2Proof/Machine/Control.lean ====
section
/-! DEFINITION. 41_control_flow.md: jumps, the call-stack controller, and the two no-ops. -/

namespace Sys2Proof.Machine

/-- 00EE RET: `sp -= 1; pc = stack[sp] + 2`, the entry kept; StackUnderflow when sp = 0 (R75; D1, log 12) -/
def execRet (s : State) : Result :=
  if h : s.sp.val = 0 then .fault .stackUnderflow
  else
    let top : Fin 16 := ⟨s.sp.val - 1, by omega⟩
    .next ({ s with sp := ⟨top.val, by omega⟩ }.jump (s.stack[top] + 2))

/-- 0NNN SYS nnn: no-op (R76) -/
def execSys (_nnn : Addr12) (s : State) : Result := .next s.advance

/-- 1nnn JP nnn (R77) -/
def execJp (nnn : Addr12) (s : State) : Result := .next (s.jump (zext16 nnn))

/-- 2nnn CALL nnn: push the call's own pc; StackOverflow when sp = 16 (R78; D1, log 12) -/
def execCall (nnn : Addr12) (s : State) : Result :=
  if h : s.sp.val < 16 then
    .next ({ s with stack := s.stack.set s.sp.val s.pc h, sp := ⟨s.sp.val + 1, by omega⟩ }.jump (zext16 nnn))
  else .fault .stackOverflow

/-- Bnnn JP V0, nnn: V0 + nnn mod 2^16, not masked to 12 bits (R79; D23, log 26) -/
def execJpV0 (nnn : Addr12) (s : State) : Result := .next (s.jump (zextByte (s.reg 0) + zext16 nnn))

/-- A word that matches no row: no-op (R80) -/
def execUndefined (_w : Word) (s : State) : Result := .next s.advance

end Sys2Proof.Machine
end

