-- ==== Sys2Proof/Machine/IndexMemory.lean ====
section
/-! DEFINITION. 44_index_memory.md: the index register and the byte moves through it. No instruction but Annn, Fx1E and Fx29 writes I. -/

namespace Sys2Proof.Machine

/-- Annn LD I, nnn (R103) -/
def execLdI (nnn : Addr12) (s : State) : Result := .next (s.setI (zext16 nnn)).advance

/-- Fx1E ADD I, Vx: the sum stored mod 2^16, unmasked, then the range flag into VF (R104; D4, log 14) -/
def execAddIVx (x : RegIdx) (s : State) : Result :=
  let sum := s.I.toNat + (s.reg x).toNat
  .next ((s.setI (BitVec.ofNat 16 sum)).setVF (flagByte (pastRange sum))).advance

/-- Fx29 LD F, Vx: the glyph's address Vx * 5, Vx not masked (R105) -/
def execLdFVx (x : RegIdx) (s : State) : Result := .next (s.setI (BitVec.ofNat 16 ((s.reg x).toNat * 5))).advance

/-- Fx33 LD B, Vx: three decimal digits at I, I+1, I+2 (R106; 90_conflicts.md C2) -/
def execLdBVx (x : RegIdx) (s : State) : Result := storeBytes s (s.effAddr 0) (bcdDigits (s.reg x))

/-- Fx55 LD [I], Vx: V0..Vx to I..I+x (R107; I unchanged, D21) -/
def execLdMemVx (x : RegIdx) (s : State) : Result := storeBytes s (s.effAddr 0) (s.regsUpTo x)

/-- Fx65 LD Vx, [I]: I..I+x to V0..Vx (R108; I unchanged, D21) -/
def execLdVxMem (x : RegIdx) (s : State) : Result :=
  withBytes s (s.effAddr 0) (x.val + 1) fun bs => .next (s.setRegs 0 bs).advance

end Sys2Proof.Machine
end

