-- ==== Sys2Proof/Machine/Skips.lean ====
section
/-! DEFINITION. 42_skips.md: the six conditional skips. -/

namespace Sys2Proof.Machine

/-- 3xkk SE Vx, kk (R82) -/
def execSeImm (x : RegIdx) (kk : Byte) (s : State) : Result := .next (s.skipIf (s.reg x == kk))

/-- 4xkk SNE Vx, kk (R83) -/
def execSneImm (x : RegIdx) (kk : Byte) (s : State) : Result := .next (s.skipIf (s.reg x != kk))

/-- 5xy0 SE Vx, Vy (R84) -/
def execSeReg (x y : RegIdx) (s : State) : Result := .next (s.skipIf (s.reg x == s.reg y))

/-- 9xy0 SNE Vx, Vy (R85) -/
def execSneReg (x y : RegIdx) (s : State) : Result := .next (s.skipIf (s.reg x != s.reg y))

/-- Ex9E SKP Vx: the key index is the value of Vx; KeyIndex above 15 (R86; D10, log 18) -/
def execSkp (x : RegIdx) (s : State) : Result :=
  match keyOf (s.reg x) with
  | some k => .next (s.skipIf (s.pressed k))
  | none => .fault .keyIndex

/-- ExA1 SKNP Vx (R87; D10) -/
def execSknp (x : RegIdx) (s : State) : Result :=
  match keyOf (s.reg x) with
  | some k => .next (s.skipIf (!s.pressed k))
  | none => .fault .keyIndex

end Sys2Proof.Machine
end

