-- ==== Sys2Proof/Machine/SpriteEngine.lean ====
section
/-! DEFINITION. 45_display.md: clearing the framebuffer and drawing sprites by XOR with collision detection. -/

namespace Sys2Proof.Machine

/-- `Disp[r][c]` -/
def Display.get (d : Display) (p : Cell) : Bool := d[p.1][p.2]

/-- `Disp[r][c] <- b` -/
def Display.set (d : Display) (p : Cell) (b : Bool) : Display := Vector.set d p.1 (Vector.set d[p.1] p.2 b)

/-- The framebuffer with every cell 0. -/
def Display.blank : Display := Vector.replicate 32 (Vector.replicate 64 false)

/-- XOR a 1 into each cell in turn; the flag says whether a cell was already 1 (R112, the second loop). -/
def xorCells (d : Display) (collided : Bool) : List Cell → Display × Bool
  | [] => (d, collided)
  | p :: ps => xorCells (Display.set d p (!Display.get d p)) (collided || Display.get d p) ps

/-- 00E0 CLS: all cells 0; VF unchanged (R111) -/
def execCls (s : State) : Result := .next { s with display := Display.blank }.advance

/-- Dxyn DRW Vx, Vy, n: the sprite's n bytes at I, column Vx and row Vy read once before any write; MemBounds, then DisplayBounds,
then the XOR and the collision flag into VF (R112, R113, R129; D3, D5, D24, log 13, 15, 27) -/
def execDrw (x y : RegIdx) (n : BitVec 4) (s : State) : Result :=
  withBytes s (s.effAddr 0) n.toNat fun rows =>
    match cellsAt (spritePlaces (s.reg x).toNat (s.reg y).toNat rows) with
    | none => .fault .displayBounds
    | some cells =>
      let drawn := xorCells s.display false cells
      .next ({ s with display := drawn.1 }.setVF (flagByte drawn.2)).advance

end Sys2Proof.Machine
end

