-- ==== Sys2Proof/Machine/Step.lean ====
section
/-! DEFINITION. The step: fetch, decode, execute, tick (40_cycle.md R64). Everything it does is in the files it calls. -/

namespace Sys2Proof.Machine

/-- One step. A faulted machine has none: it answers its fault again (60_exceptions.md R128). A fault of the fetch or of the instruction
ends the step at once, with no tick (R127). -/
def step (s : State) : Host.Outcome State Fault Refusal :=
  match s.fault with
  | some k => .fault k
  | none =>
    match fetchWord s with
    | none => .fault .fetchBounds
    | some w =>
      match exec (decode w) (s.fetched w) with
      | .next t => .next (endStep t)
      | .fault k => .fault k
      | .refused r => .refused r

/-- `s` with the bytes of an opcode-table word stored where the next step fetches (log 2, 37). -/
def State.withFetchWord (s : State) (nbits w : Nat) : State := s.placeBytes (tableBytes nbits w)

end Sys2Proof.Machine
end

