-- ==== Sys2Proof/Machine/HostInterface.lean ====
section
/-! DEFINITION. 60_exceptions.md section 5 and 70_reset_and_hazards.md: what the host does to the machine between steps. -/

namespace Sys2Proof.Machine

/-- Why `load` fails (60_exceptions.md R139). -/
inductive LoadError where
  /-- origin + length exceeds 4096; nothing was written -/
  | capacityError
deriving DecidableEq, Repr

/-- `load(bytes, origin = 512)`: copies the bytes verbatim, or fails before any write; nothing but memory changes (R139; D27, D32). -/
def load (bytes : List Byte) (s : State) (origin : Nat := 512) : Except LoadError State :=
  if origin + bytes.length ≤ 4096 then .ok (s.pokeMany origin bytes) else .error .capacityError

/-- `reset(now)` at any time between steps: every field of the core, the keys aside (70_reset_and_hazards.md R145; R140). The
parameters, the host's further inputs and the tones already heard are not the core's to reset. -/
def resetAt (now : Nat) (s : State) : State :=
  { s with
    mem := []
    V := Vector.replicate 16 0
    I := 0
    pc := 0x200
    stack := Vector.replicate 16 0
    sp := 0
    DT := 0
    ST := 0
    lastDelayTick := now
    lastSoundTick := now
    display := Display.blank
    currentOpcode := 0
    fault := none
    now := now }

/-- The host writes the keypad before a step (R135). -/
def setKeys (keys : Keypad) (s : State) : State := { s with keys := keys }

/-- Time passes between two steps (R138). -/
def passTime (elapsed : Nat) (s : State) : State := { s with now := s.now + elapsed }

end Sys2Proof.Machine
end

