-- ==== Sys2Proof/Safety.lean ====
section
/-! DEFINITION. The terms claims are stated in: the parts of a state and what may change, the invariant, the host's actions and the
states they and the steps reach, and a safe run. -/

namespace Sys2Proof.Machine

/-! ## Parts of a state, and frames -/

/-- The parts of a state, each register, stack entry, framebuffer cell, key and byte of memory by itself. -/
inductive Part where
  | V (x : RegIdx)
  | I
  | pc
  | stack (j : Fin 16)
  | sp
  | DT
  | ST
  | lastDelayTick
  | lastSoundTick
  | cell (c : Cell)
  | key (k : Key)
  | currentOpcode
  | fault
  | byte (a : Nat)
  | now
  | draw
  | tones
  | inputs
  | turn
  | cfg
deriving DecidableEq, Repr

/-- The part holds the same in both states; a byte of memory by what reading it gives. -/
def Part.same (s t : State) : Part → Prop
  | .V x => t.reg x = s.reg x
  | .I => t.I = s.I
  | .pc => t.pc = s.pc
  | .stack j => t.stack[j] = s.stack[j]
  | .sp => t.sp = s.sp
  | .DT => t.DT = s.DT
  | .ST => t.ST = s.ST
  | .lastDelayTick => t.lastDelayTick = s.lastDelayTick
  | .lastSoundTick => t.lastSoundTick = s.lastSoundTick
  | .cell c => Display.get t.display c = Display.get s.display c
  | .key k => t.pressed k = s.pressed k
  | .currentOpcode => t.currentOpcode = s.currentOpcode
  | .fault => t.fault = s.fault
  | .byte a => t.peek a = s.peek a
  | .now => t.now = s.now
  | .draw => t.draw = s.draw
  | .tones => t.tones = s.tones
  | .inputs => t.inputs = s.inputs
  | .turn => t.turn = s.turn
  | .cfg => t.cfg = s.cfg

/-- Every part that `may` does not name is the same in `t` as in `s`. -/
def UnchangedBut (may : Part → Prop) (s t : State) : Prop := ∀ p, ¬ may p → p.same s t

/-- What an instruction may write, by the access table of 10_state.md R17 and the writers that R18 to R30 name for each piece of state;
the bytes stored to are the effective addresses of 20_memory.md R37. -/
def mayWrite (s : State) : Instr → Part → Prop
  | .cls, p => p = .pc ∨ ∃ c, p = .cell c
  | .ret, p => p = .pc ∨ p = .sp
  | .sys _, p | .jp _, p | .jpV0 _, p | .undefined _, p => p = .pc
  | .seImm _ _, p | .sneImm _ _, p | .seReg _ _, p | .sneReg _ _, p | .skp _, p | .sknp _, p => p = .pc
  | .call _, p => p = .pc ∨ p = .sp ∨ ∃ j, p = .stack j ∧ j.val = s.sp.val
  | .ldImm x _, p | .addImm x _, p | .ldReg x _, p | .or x _, p | .and x _, p | .xor x _, p | .rnd x _, p => p = .pc ∨ p = .V x
  | .addReg x _, p | .sub x _, p | .shr x _, p | .subn x _, p | .shl x _, p => p = .pc ∨ p = .V x ∨ p = .V regF
  | .ldI _, p | .ldFVx _, p => p = .pc ∨ p = .I
  | .addIVx _, p => p = .pc ∨ p = .I ∨ p = .V regF
  | .drw _ _ _, p => p = .pc ∨ p = .V regF ∨ ∃ c, p = .cell c
  | .ldVxDT x, p | .ldVxK x, p => p = .pc ∨ p = .V x
  | .ldDTVx _, p => p = .pc ∨ p = .DT ∨ p = .lastDelayTick
  | .ldSTVx _, p => p = .pc ∨ p = .ST ∨ p = .lastSoundTick
  | .ldBVx _, p => p = .pc ∨ ∃ k, k < 3 ∧ p = .byte (s.effAddr k)
  | .ldMemVx x, p => p = .pc ∨ ∃ k, k ≤ x.val ∧ p = .byte (s.effAddr k)
  | .ldVxMem x, p => p = .pc ∨ ∃ r : RegIdx, r ≤ x ∧ p = .V r

/-- The words of a pattern decode to the instruction that `f` makes of their fields (30_encoding.md R59). -/
def EncodedAs (pattern mask : Word) (f : Word → Instr) : Prop := ∀ w : Word, w &&& mask = pattern → decode w = f w

/-! ## Sprites, said cell by cell (45_display.md R110, R112) -/

/-- A sprite of `n` rows at I, drawn with its top-left pixel at column Vx and row Vy, has a set bit at place (r, c): bit 7 - (c - Vx) of
the byte at I + (r - Vy). -/
def spritePixel (s : State) (x y : RegIdx) (n r c : Nat) : Bool :=
  let cx := (s.reg x).toNat
  let cy := (s.reg y).toNat
  cy ≤ r && r < cy + n && cx ≤ c && c < cx + 8 && (s.peek (s.effAddr (r - cy))).getLsbD (7 - (c - cx))

/-! ## The invariant of the machine -/

/-- What holds of every state a machine comes to (10_state.md R20, R35; 46_timers_keys.md R116; log 33), faulted or not. The bounds on
registers, cells and sp are in their types. -/
structure Inv (s : State) : Prop where
  /-- the memory list is canonical -/
  memory : Memory.wf s.cfg s.mem
  /-- the parameters are legal -/
  config : s.cfg.wf
  /-- pc stays below the bound of R20 -/
  pcBound : s.pc.toNat ≤ 0x10FE
  /-- a live stack entry is the address of a 2nnn that was fetched -/
  liveEntries : ∀ j : Fin 16, j.val < s.sp.val → s.stack[j].toNat ≤ 0xFFE
  /-- no stamp lies in the future -/
  delayStamp : s.lastDelayTick ≤ s.now
  soundStamp : s.lastSoundTick ≤ s.now

/-! ## What can happen to the machine (60_exceptions.md R134 to R141) -/

/-- One thing that happens to the machine: a step, or one of the host's actions between steps. -/
inductive Event where
  | step
  | reset
  | load (bytes : List Byte) (origin : Nat)
  | keys (keys : Keypad)
  | wait (elapsed : Nat)
  | draw (b : Byte)
deriving DecidableEq, Repr

/-- The state after an event. A faulting step leaves its fault recorded (R127, R128), a load that does not fit changes nothing (R139),
and a reset takes the time that the host's clock shows (70_reset_and_hazards.md R145). -/
def happen (s : State) : Event → State
  | .step =>
    match step s with
    | .next t => t
    | .fault k => recordFault s k
    | .refused _ => s
  | .reset => resetAt s.now s
  | .load bytes origin =>
    match load bytes s origin with
    | .ok t => t
    | .error _ => s
  | .keys keys => setKeys keys s
  | .wait elapsed => passTime elapsed s
  | .draw b => { s with draw := b }

/-- `t` can come after `s`, whatever the host does and however often. -/
def Reaches (s t : State) : Prop := Relation.ReflTransGen (fun a b => ∃ e, b = happen a e) s t

/-- The word the next step fetches, and the instruction it runs. -/
def State.nextInstr (s : State) : Option Instr := (fetchWord s).map decode

/-- A safe run: `k` steps from `s`, none of which faults or is refused. -/
def SafeRun (k : Nat) (s : State) : Prop := ∃ t, Host.Core.run Sys2Proof.core k s = .next t

/-- `run 0`, `run 1`, ... are `n` steps of the machine, none of which is an instruction that `not` names. -/
def StepsWithout (no : Instr → Prop) (n : Nat) (run : Nat → State) : Prop :=
  ∀ k, k < n → step (run k) = .next (run (k + 1)) ∧ ∀ i, (run k).nextInstr = some i → ¬ no i

end Sys2Proof.Machine
end

