-- ==== Sys2Proof/Certificates/Slice0/Obligations.lean ====
section
/-! DEFINITION. The statements for the provers, from the numbered rules of spec/. Where a statement rests on a decision of
spec/92_eei_decisions.md (the spec's own choice, D<n>) or on a choice of the model (log <n>), its docstring says so. -/

open Sys2Proof Sys2Proof.Machine

/-! ## Encoding and decoding (30_encoding.md) -/

/-- Every well-formed instruction, with every operand at every value, is what its own word decodes to, and its two bytes are read off
the front of any byte stream, the rest left over (R54, R55, R58). -/
def Obligations.EncodedInstructionsDecodeToThemselves : Prop :=
  ∀ (i : Instr) (rest : List Byte), i.wf = true →
    decode (encode i) = i ∧ decodeBytes (encodeBytes i ++ rest) = .ok (i, rest)

/-- Every one of the 65536 words decodes to a well-formed instruction whose word it is; and the words R60 lists as undefined are exactly
those that decode to the undefined opcode (R60, R67; which nibbles are checked is the spec's D17). -/
def Obligations.EveryWordIsTheWordOfItsInstruction : Prop :=
  ∀ w : Word, (decode w).wf = true ∧ encode (decode w) = w ∧ (undefinedWord w = true ↔ decode w = .undefined w)

/-- R59: "A word is decoded by the first row, top to bottom, whose `w & mask == match`": the instruction is that row's, and its operands
are the fields of that row's format; a word of no row is the undefined opcode. The map has 34 instructions and the 0NNN no-op, and a
word that two different rows match is an op-0 word: every other pair of rows is disjoint. -/
def Obligations.DecoderFollowsTheOpcodeMap : Prop :=
  (∀ w : Word, match mapRow w with
    | some r => (decode w).mnemonic = r.mnemonic ∧ (decode w).operands = r.format.fields w
    | none => decode w = .undefined w) ∧
  opcodeMap.length = 35 ∧
  ∀ r ∈ opcodeMap, ∀ r' ∈ opcodeMap, r ≠ r' → ∀ w : Word, w &&& r.mask = r.pattern → w &&& r'.mask = r'.pattern → fieldOp w = 0

/-- Words written out from the spec's encodings, at least one of each format, decode to the instructions they stand for
(95_test_vectors.md, the table "Decode of each format", and the examples of the instruction rules). -/
def Obligations.WordsFromTheSpecDecode : Prop :=
  decode 0x2ABC = .call 0xABC ∧ decode 0x3A5F = .seImm 0xA 0x5F ∧ decode 0x8AB4 = .addReg 0xA 0xB ∧
  decode 0xDAB7 = .drw 0xA 0xB 7 ∧ decode 0xFA29 = .ldFVx 0xA ∧ decode 0x00E0 = .cls ∧ decode 0x00EE = .ret ∧
  decode 0x0123 = .sys 0x123 ∧ decode 0x5121 = .undefined 0x5121 ∧ decode 0xE5A1 = .sknp 5

/-! ## The step (40_cycle.md) -/

/-- A step runs the decoded instruction (R64, R65): when the bytes at pc decode to `i`, the step is `exec i` with the word in
`current_opcode`, then the timer tick and the host's turn; a fault of the instruction is the step's, with no tick. (The host's turn
at the end of a step is the model's choice, log 1 and 38.) -/
def Obligations.StepRunsTheDecodedInstruction : Prop :=
  ∀ (s : State) (i : Instr), s.fault = none → s.pc.toNat ≤ 0xFFE →
    decodeBytes [s.peek s.pc.toNat, s.peek (s.pc.toNat + 1)] = .ok (i, []) →
    step s =
      match exec i (s.fetched (encode i)) with
      | .next t => .next (hostTurn (timerTick t))
      | .fault k => .fault k
      | .refused r => .refused r

/-- The fetch is big-endian, `memory[pc] * 256 + memory[pc+1]`, at any pc up to 0xFFE, odd or even; at any higher pc a running machine
faults FetchBounds (R65, R66; 20_memory.md R41; the fault is the spec's D2, the odd pc its D19). -/
def Obligations.FetchIsBigEndianOrFaults : Prop :=
  ∀ s : State,
    (s.pc.toNat ≤ 0xFFE → ∃ w, fetchWord s = some w ∧
      w.toNat = (s.peek s.pc.toNat).toNat * 256 + (s.peek (s.pc.toNat + 1)).toNat) ∧
    (s.fault = none → 0xFFF ≤ s.pc.toNat → step s = .fault .fetchBounds)

/-- A faulting step leaves every part of the state but `fault` as it was, records the kind, and from then on no step is taken; a reset
clears it (60_exceptions.md R127, R128; the spec's D18; that the outcome is `.fault` and the record is made beside the step is log 11). -/
def Obligations.FaultingStepIsAllOrNothing : Prop :=
  ∀ (s : State) (k : Fault), step s = .fault k →
    UnchangedBut (· = .fault) s (happen s .step) ∧ (happen s .step).fault = some k ∧
    step (happen s .step) = .fault k ∧ happen (happen s .step) .step = happen s .step ∧
    (happen (happen s .step) .reset).fault = none

/-- The fault table (60_exceptions.md R126; the faults are the spec's D1, D3, D5, D10): an instruction raises only the kinds the table
names for it, and no instruction is refused. -/
def Obligations.OnlyTheNamedInstructionsFault : Prop :=
  ∀ (i : Instr) (s : State),
    (∀ r, exec i s ≠ .refused r) ∧
    ∀ k, exec i s = .fault k →
      (k = .memBounds ∧ ∃ x, (∃ y n, i = .drw x y n) ∨ i = .ldBVx x ∨ i = .ldMemVx x ∨ i = .ldVxMem x) ∨
      (k = .displayBounds ∧ ∃ x y n, i = .drw x y n) ∨
      (k = .stackOverflow ∧ s.sp.val = 16 ∧ ∃ nnn, i = .call nnn) ∨
      (k = .stackUnderflow ∧ s.sp.val = 0 ∧ i = .ret) ∨
      (k = .keyIndex ∧ ∃ x, 15 < (s.reg x).toNat ∧ (i = .skp x ∨ i = .sknp x))

/-- What the model's step puts around the core (log 1, 38): after a step that goes on, the inputs of the next step are the oldest
scheduled ones, or free ones, each from a place of its own; time does not go back, and no parameter changes. -/
def Obligations.NextInputsArriveAfterTheStep : Prop :=
  ∀ s t : State, step s = .next t →
    t.cfg = s.cfg ∧ s.now ≤ t.now ∧
    (∀ i rest, s.inputs = i :: rest →
      t.now = s.now + i.elapsed ∧ t.keys = i.keys ∧ t.draw = i.draw ∧ t.inputs = rest ∧ t.turn = s.turn) ∧
    (s.inputs = [] →
      t.now = s.now + (Config.hostInput s.turn).elapsed ∧ t.keys = (Config.hostInput s.turn).keys ∧
      t.draw = (Config.hostInput s.turn).draw ∧ t.inputs = [] ∧ t.turn = s.turn + 1)

/-! ## Control flow (41_control_flow.md) -/

/-- SYS nnn (R76): every op-0 word but 00E0 and 00EE, for any nnn, advances pc by 2 and does nothing else. -/
def Obligations.SysIsANoOp : Prop :=
  (∀ w : Word, w &&& 0xF000 = 0x0000 → w ≠ 0x00E0 → w ≠ 0x00EE → decode w = .sys (fieldNNN w)) ∧
  ∀ (s : State) (nnn : Addr12),
    ∃ t, exec (.sys nnn) s = .next t ∧ t.pc = s.pc + 2 ∧ UnchangedBut (· = .pc) s t

/-- The undefined opcode (R80): every word of the spaces of 30_encoding.md R60 is a no-op with normal advance (that all fixed nibbles are
checked is the spec's D17). -/
def Obligations.UndefinedWordsAreNoOps : Prop :=
  (∀ w : Word, undefinedWord w = true → decode w = .undefined w) ∧
  ∀ (s : State) (w : Word),
    ∃ t, exec (.undefined w) s = .next t ∧ t.pc = s.pc + 2 ∧ UnchangedBut (· = .pc) s t

/-- JP nnn (R77): pc takes nnn, zero-extended, and nothing else changes. -/
def Obligations.JumpGoesToItsAddress : Prop :=
  EncodedAs 0x1000 0xF000 (fun w => .jp (fieldNNN w)) ∧
  ∀ (s : State) (nnn : Addr12),
    ∃ t, exec (.jp nnn) s = .next t ∧ t.pc.toNat = nnn.toNat ∧ UnchangedBut (· = .pc) s t

/-- JP V0, nnn (R79): pc takes V0 + nnn, exact and not masked to 12 bits (the spec's D23), so it can reach 0x10FE. -/
def Obligations.OffsetJumpAddsV0 : Prop :=
  EncodedAs 0xB000 0xF000 (fun w => .jpV0 (fieldNNN w)) ∧
  ∀ (s : State) (nnn : Addr12),
    ∃ t, exec (.jpV0 nnn) s = .next t ∧ t.pc.toNat = (s.reg 0).toNat + nnn.toNat ∧ UnchangedBut (· = .pc) s t

/-- CALL nnn (R78): with j < 16 live entries it stores its own pc in entry j, counts it and jumps, and nothing else changes; with 16 it
faults StackOverflow (the spec's D1). -/
def Obligations.CallPushesItsOwnAddress : Prop :=
  EncodedAs 0x2000 0xF000 (fun w => .call (fieldNNN w)) ∧
  ∀ (s : State) (nnn : Addr12),
    (∀ j : Fin 16, s.sp.val = j.val →
      ∃ t, exec (.call nnn) s = .next t ∧ t.stack[j] = s.pc ∧ t.sp.val = j.val + 1 ∧ t.pc.toNat = nnn.toNat ∧
        UnchangedBut (fun p => p = .pc ∨ p = .sp ∨ p = .stack j) s t) ∧
    (s.sp.val = 16 → exec (.call nnn) s = .fault .stackOverflow)

/-- RET (R75): with j + 1 live entries pc takes entry j plus 2 (mod 2^16), j entries stay live, no entry is cleared and nothing else
changes; with none it faults StackUnderflow (the spec's D1). -/
def Obligations.ReturnGoesPastTheCall : Prop :=
  decode 0x00EE = .ret ∧
  ∀ s : State,
    (∀ j : Fin 16, s.sp.val = j.val + 1 →
      ∃ t, exec .ret s = .next t ∧ t.pc.toNat = (s.stack[j].toNat + 2) % 65536 ∧ t.sp.val = j.val ∧
        UnchangedBut (fun p => p = .pc ∨ p = .sp) s t) ∧
    (s.sp.val = 0 → exec .ret s = .fault .stackUnderflow)

/-- A call and a return together advance the caller by one instruction (R74): whatever the callee did, if it left the stack as the call
left it, its RET comes back to the word after the call, with the caller's stack depth. -/
def Obligations.CallAndReturnAdvanceByOne : Prop :=
  ∀ (s : State) (nnn : Addr12), s.sp.val < 16 →
    ∃ t, exec (.call nnn) s = .next t ∧
      ∀ u : State, u.stack = t.stack → u.sp = t.sp →
        ∃ v, exec .ret u = .next v ∧ v.pc = s.pc + 2 ∧ v.sp = s.sp

/-! ## Skips (42_skips.md) -/

/-- SE and SNE with a byte (R82, R83): pc + 4 when Vx equals kk, or differs from it, else pc + 2; nothing else changes. -/
def Obligations.SkipsOnAByte : Prop :=
  EncodedAs 0x3000 0xF000 (fun w => .seImm (fieldX w) (fieldKK w)) ∧
  EncodedAs 0x4000 0xF000 (fun w => .sneImm (fieldX w) (fieldKK w)) ∧
  ∀ (s : State) (x : RegIdx) (kk : Byte),
    (∃ t, exec (.seImm x kk) s = .next t ∧ UnchangedBut (· = .pc) s t ∧
      ((s.reg x).toNat = kk.toNat → t.pc = s.pc + 4) ∧ ((s.reg x).toNat ≠ kk.toNat → t.pc = s.pc + 2)) ∧
    (∃ t, exec (.sneImm x kk) s = .next t ∧ UnchangedBut (· = .pc) s t ∧
      ((s.reg x).toNat ≠ kk.toNat → t.pc = s.pc + 4) ∧ ((s.reg x).toNat = kk.toNat → t.pc = s.pc + 2))

/-- SE and SNE with a register (R84, R85; that the low nibble must be 0 is the spec's D17): the same with Vy, so x = y always skips, or
never does. -/
def Obligations.SkipsOnARegister : Prop :=
  EncodedAs 0x5000 0xF00F (fun w => .seReg (fieldX w) (fieldY w)) ∧
  EncodedAs 0x9000 0xF00F (fun w => .sneReg (fieldX w) (fieldY w)) ∧
  ∀ (s : State) (x y : RegIdx),
    (∃ t, exec (.seReg x y) s = .next t ∧ UnchangedBut (· = .pc) s t ∧
      ((s.reg x).toNat = (s.reg y).toNat → t.pc = s.pc + 4) ∧ ((s.reg x).toNat ≠ (s.reg y).toNat → t.pc = s.pc + 2)) ∧
    (∃ t, exec (.sneReg x y) s = .next t ∧ UnchangedBut (· = .pc) s t ∧
      ((s.reg x).toNat ≠ (s.reg y).toNat → t.pc = s.pc + 4) ∧ ((s.reg x).toNat = (s.reg y).toNat → t.pc = s.pc + 2))

/-- SKP and SKNP (R86, R87): the key is the value of Vx; pc + 4 when it is pressed, or not pressed, else pc + 2; nothing else changes; a
value above 15 faults KeyIndex (the spec's D10). -/
def Obligations.SkipsOnAKey : Prop :=
  EncodedAs 0xE09E 0xF0FF (fun w => .skp (fieldX w)) ∧ EncodedAs 0xE0A1 0xF0FF (fun w => .sknp (fieldX w)) ∧
  ∀ (s : State) (x : RegIdx),
    (∀ k : Key, (s.reg x).toNat = k.val →
      (∃ t, exec (.skp x) s = .next t ∧ UnchangedBut (· = .pc) s t ∧
        t.pc = if s.keys[k] = true then s.pc + 4 else s.pc + 2) ∧
      (∃ t, exec (.sknp x) s = .next t ∧ UnchangedBut (· = .pc) s t ∧
        t.pc = if s.keys[k] = true then s.pc + 2 else s.pc + 4)) ∧
    (15 < (s.reg x).toNat → exec (.skp x) s = .fault .keyIndex ∧ exec (.sknp x) s = .fault .keyIndex)

/-! ## ALU (43_alu.md) -/

/-- LD Vx, kk; ADD Vx, kk; LD Vx, Vy (R90, R91, R92): Vx takes the byte, the sum mod 256, or Vy; VF changes only as the destination. -/
def Obligations.MovesAndImmediateAdd : Prop :=
  EncodedAs 0x6000 0xF000 (fun w => .ldImm (fieldX w) (fieldKK w)) ∧
  EncodedAs 0x7000 0xF000 (fun w => .addImm (fieldX w) (fieldKK w)) ∧
  EncodedAs 0x8000 0xF00F (fun w => .ldReg (fieldX w) (fieldY w)) ∧
  ∀ (s : State) (x y : RegIdx) (kk : Byte),
    (∃ t, exec (.ldImm x kk) s = .next t ∧ t.reg x = kk ∧ t.pc = s.pc + 2 ∧
      UnchangedBut (fun p => p = .pc ∨ p = .V x) s t) ∧
    (∃ t, exec (.addImm x kk) s = .next t ∧ (t.reg x).toNat = ((s.reg x).toNat + kk.toNat) % 256 ∧ t.pc = s.pc + 2 ∧
      UnchangedBut (fun p => p = .pc ∨ p = .V x) s t) ∧
    (∃ t, exec (.ldReg x y) s = .next t ∧ t.reg x = s.reg y ∧ t.pc = s.pc + 2 ∧
      UnchangedBut (fun p => p = .pc ∨ p = .V x) s t)

/-- OR, AND, XOR (R93, R94, R95), bit by bit; VF is unchanged unless it is Vx (the spec's D22). -/
def Obligations.BitwiseLeavesVF : Prop :=
  EncodedAs 0x8001 0xF00F (fun w => .or (fieldX w) (fieldY w)) ∧
  EncodedAs 0x8002 0xF00F (fun w => .and (fieldX w) (fieldY w)) ∧
  EncodedAs 0x8003 0xF00F (fun w => .xor (fieldX w) (fieldY w)) ∧
  ∀ (s : State) (x y : RegIdx),
    (∃ t, exec (.or x y) s = .next t ∧ t.pc = s.pc + 2 ∧ UnchangedBut (fun p => p = .pc ∨ p = .V x) s t ∧
      ∀ b, b < 8 → (t.reg x).getLsbD b = ((s.reg x).getLsbD b || (s.reg y).getLsbD b)) ∧
    (∃ t, exec (.and x y) s = .next t ∧ t.pc = s.pc + 2 ∧ UnchangedBut (fun p => p = .pc ∨ p = .V x) s t ∧
      ∀ b, b < 8 → (t.reg x).getLsbD b = ((s.reg x).getLsbD b && (s.reg y).getLsbD b)) ∧
    (∃ t, exec (.xor x y) s = .next t ∧ t.pc = s.pc + 2 ∧ UnchangedBut (fun p => p = .pc ∨ p = .V x) s t ∧
      ∀ b, b < 8 → (t.reg x).getLsbD b = ((s.reg x).getLsbD b != (s.reg y).getLsbD b))

/-- ADD Vx, Vy (R96): Vx takes the sum mod 256, then VF takes the unsigned carry, so with x = F the carry is what VF ends with (the
order is the spec's D15). -/
def Obligations.AddSetsCarry : Prop :=
  EncodedAs 0x8004 0xF00F (fun w => .addReg (fieldX w) (fieldY w)) ∧
  ∀ (s : State) (x y : RegIdx),
    ∃ t, exec (.addReg x y) s = .next t ∧ t.pc = s.pc + 2 ∧
      UnchangedBut (fun p => p = .pc ∨ p = .V x ∨ p = .V regF) s t ∧
      (x ≠ regF → (t.reg x).toNat = ((s.reg x).toNat + (s.reg y).toNat) % 256) ∧
      (t.reg regF).toNat = if (s.reg x).toNat + (s.reg y).toNat > 255 then 1 else 0

/-- SUB and SUBN (R97, R99): VF takes NOT borrow, then Vx the difference mod 256 of the registers as VF left them; with x or y equal to F
the results are those of the corner cases (the order is the spec's D15). -/
def Obligations.SubtractionsSetNotBorrow : Prop :=
  EncodedAs 0x8005 0xF00F (fun w => .sub (fieldX w) (fieldY w)) ∧
  EncodedAs 0x8007 0xF00F (fun w => .subn (fieldX w) (fieldY w)) ∧
  ∀ (s : State) (x y : RegIdx) (a b : Nat), a = (s.reg x).toNat → b = (s.reg y).toNat →
    (∃ t f, exec (.sub x y) s = .next t ∧ t.pc = s.pc + 2 ∧
      UnchangedBut (fun p => p = .pc ∨ p = .V x ∨ p = .V regF) s t ∧ f = (if b ≤ a then 1 else 0) ∧
      (x ≠ regF → (t.reg regF).toNat = f) ∧
      (x ≠ regF → y ≠ regF → (t.reg x).toNat = (a + 256 - b) % 256) ∧
      (x ≠ regF → y = regF → (t.reg x).toNat = (a + 256 - f) % 256) ∧
      (x = regF → y ≠ regF → (t.reg regF).toNat = (f + 256 - b) % 256) ∧
      (x = regF → y = regF → (t.reg regF).toNat = 0)) ∧
    (∃ t f, exec (.subn x y) s = .next t ∧ t.pc = s.pc + 2 ∧
      UnchangedBut (fun p => p = .pc ∨ p = .V x ∨ p = .V regF) s t ∧ f = (if a ≤ b then 1 else 0) ∧
      (x ≠ regF → (t.reg regF).toNat = f) ∧
      (x ≠ regF → y ≠ regF → (t.reg x).toNat = (b + 256 - a) % 256) ∧
      (x ≠ regF → y = regF → (t.reg x).toNat = (f + 256 - a) % 256) ∧
      (x = regF → y ≠ regF → (t.reg regF).toNat = (b + 256 - f) % 256) ∧
      (x = regF → y = regF → (t.reg regF).toNat = 0))

/-- SHR and SHL (R98, R100): the source is Vy and Vx's old value is not read; VF takes the bit shifted out, then Vx the shifted value of
the register as VF left it (the order is the spec's D15). -/
def Obligations.ShiftsTakeVy : Prop :=
  EncodedAs 0x8006 0xF00F (fun w => .shr (fieldX w) (fieldY w)) ∧
  EncodedAs 0x800E 0xF00F (fun w => .shl (fieldX w) (fieldY w)) ∧
  ∀ (s : State) (x y : RegIdx) (b : Nat), b = (s.reg y).toNat →
    (∃ t, exec (.shr x y) s = .next t ∧ t.pc = s.pc + 2 ∧
      UnchangedBut (fun p => p = .pc ∨ p = .V x ∨ p = .V regF) s t ∧
      (x ≠ regF → (t.reg regF).toNat = b % 2) ∧
      (y ≠ regF → (t.reg x).toNat = b / 2) ∧
      (y = regF → (t.reg x).toNat = 0)) ∧
    (∃ t, exec (.shl x y) s = .next t ∧ t.pc = s.pc + 2 ∧
      UnchangedBut (fun p => p = .pc ∨ p = .V x ∨ p = .V regF) s t ∧
      (x ≠ regF → (t.reg regF).toNat = b / 128) ∧
      (y ≠ regF → (t.reg x).toNat = 2 * b % 256) ∧
      (y = regF → (t.reg x).toNat = 2 * (b / 128)))

/-- RND Vx, kk (R101): whatever byte r the step's draw is (R102; the spec's D16), Vx takes r & kk, so only bits of kk can be set. -/
def Obligations.RandomByteIsMasked : Prop :=
  EncodedAs 0xC000 0xF000 (fun w => .rnd (fieldX w) (fieldKK w)) ∧
  ∀ (s : State) (x : RegIdx) (kk r : Byte),
    ∃ t, exec (.rnd x kk) { s with draw := r } = .next t ∧ t.pc = s.pc + 2 ∧
      UnchangedBut (fun p => p = .pc ∨ p = .V x) { s with draw := r } t ∧
      ∀ b, b < 8 → (t.reg x).getLsbD b = (r.getLsbD b && kk.getLsbD b)

/-! ## Index register and memory (44_index_memory.md) -/

/-- LD I, nnn and LD F, Vx (R103, R105): I takes nnn, or five times the whole byte Vx; nothing else but pc changes. -/
def Obligations.IndexLoads : Prop :=
  EncodedAs 0xA000 0xF000 (fun w => .ldI (fieldNNN w)) ∧ EncodedAs 0xF029 0xF0FF (fun w => .ldFVx (fieldX w)) ∧
  ∀ (s : State) (nnn : Addr12) (x : RegIdx),
    (∃ t, exec (.ldI nnn) s = .next t ∧ t.I.toNat = nnn.toNat ∧ t.pc = s.pc + 2 ∧
      UnchangedBut (fun p => p = .pc ∨ p = .I) s t) ∧
    (∃ t, exec (.ldFVx x) s = .next t ∧ t.I.toNat = (s.reg x).toNat * 5 ∧ t.pc = s.pc + 2 ∧
      UnchangedBut (fun p => p = .pc ∨ p = .I) s t)

/-- ADD I, Vx (R104): I takes the sum mod 2^16, unmasked, and VF is 1 exactly when the sum passes 0xFFF, on every execution and with
x = F too (the spec's D4, D15). -/
def Obligations.IndexAddFlagsTheRange : Prop :=
  EncodedAs 0xF01E 0xF0FF (fun w => .addIVx (fieldX w)) ∧
  ∀ (s : State) (x : RegIdx) (sum : Nat), sum = s.I.toNat + (s.reg x).toNat →
    ∃ t, exec (.addIVx x) s = .next t ∧ t.I.toNat = sum % 65536 ∧ (t.reg regF).toNat = (if sum > 0xFFF then 1 else 0) ∧
      t.pc = s.pc + 2 ∧ UnchangedBut (fun p => p = .pc ∨ p = .I ∨ p = .V regF) s t

/-- LD B, Vx (R106): with I + 2 in memory, the three decimal digits of Vx stand at I, I+1, I+2 and no other byte changes; else
MemBounds (the spec's D3). The premise is the canonical form of the memory list, part of `Inv`. -/
def Obligations.DecimalDigitsAreStored : Prop :=
  EncodedAs 0xF033 0xF0FF (fun w => .ldBVx (fieldX w)) ∧
  ∀ (s : State) (x : RegIdx), Memory.wf s.cfg s.mem →
    (s.effAddr 2 ≤ 0xFFF →
      ∃ t, exec (.ldBVx x) s = .next t ∧ t.pc = s.pc + 2 ∧
        UnchangedBut (fun p => p = .pc ∨ ∃ k, k < 3 ∧ p = .byte (s.effAddr k)) s t ∧
        (t.peek (s.effAddr 0)).toNat ≤ 2 ∧ (t.peek (s.effAddr 1)).toNat ≤ 9 ∧ (t.peek (s.effAddr 2)).toNat ≤ 9 ∧
        100 * (t.peek (s.effAddr 0)).toNat + 10 * (t.peek (s.effAddr 1)).toNat + (t.peek (s.effAddr 2)).toNat
          = (s.reg x).toNat) ∧
    (0xFFF < s.effAddr 2 → exec (.ldBVx x) s = .fault .memBounds)

/-- LD [I], Vx (R107): with I + x in memory, byte I + r takes Vr for every r up to x, VF among them when x = F; no other byte and not I
changes; else MemBounds (the spec's D3, D21). The premise is the canonical form of the memory list, part of `Inv`. -/
def Obligations.RegistersAreStored : Prop :=
  EncodedAs 0xF055 0xF0FF (fun w => .ldMemVx (fieldX w)) ∧
  ∀ (s : State) (x : RegIdx), Memory.wf s.cfg s.mem →
    (s.effAddr x.val ≤ 0xFFF →
      ∃ t, exec (.ldMemVx x) s = .next t ∧ t.pc = s.pc + 2 ∧
        UnchangedBut (fun p => p = .pc ∨ ∃ k, k ≤ x.val ∧ p = .byte (s.effAddr k)) s t ∧
        ∀ r : RegIdx, r ≤ x → t.peek (s.effAddr r.val) = s.reg r) ∧
    (0xFFF < s.effAddr x.val → exec (.ldMemVx x) s = .fault .memBounds)

/-- LD Vx, [I] (R108): with I + x in memory, Vr takes byte I + r for every r up to x; registers above x, memory and I are unchanged; else
MemBounds (the spec's D3, D21). -/
def Obligations.RegistersAreLoaded : Prop :=
  EncodedAs 0xF065 0xF0FF (fun w => .ldVxMem (fieldX w)) ∧
  ∀ (s : State) (x : RegIdx),
    (s.effAddr x.val ≤ 0xFFF →
      ∃ t, exec (.ldVxMem x) s = .next t ∧ t.pc = s.pc + 2 ∧
        UnchangedBut (fun p => p = .pc ∨ ∃ r : RegIdx, r ≤ x ∧ p = .V r) s t ∧
        ∀ r : RegIdx, r ≤ x → t.reg r = s.peek (s.effAddr r.val)) ∧
    (0xFFF < s.effAddr x.val → exec (.ldVxMem x) s = .fault .memBounds)

/-- "The round trip Fx55 then Fx65 with the same I and x restores V0..Vx exactly" (R108, §8): whatever ran in between, if memory and I are
as the store left them. -/
def Obligations.StoreThenLoadRestores : Prop :=
  ∀ (s : State) (x : RegIdx), Memory.wf s.cfg s.mem → s.effAddr x.val ≤ 0xFFF →
    ∃ t, exec (.ldMemVx x) s = .next t ∧
      ∀ u : State, (∀ a, u.peek a = t.peek a) → u.I = t.I →
        ∃ v, exec (.ldVxMem x) u = .next v ∧ ∀ r : RegIdx, (r ≤ x → v.reg r = s.reg r) ∧ (x < r → v.reg r = u.reg r)

/-- A store is seen by the very next fetch (20_memory.md R52, R42): when LD [I], Vx, with x ≥ 1, stores over the word after itself, the
word fetched next is V0 and V1, V0 in the high byte. -/
def Obligations.StoredWordIsFetchedNext : Prop :=
  ∀ (s : State) (x : RegIdx), Memory.wf s.cfg s.mem → 1 ≤ x.val → s.effAddr x.val ≤ 0xFFF → s.I = s.pc + 2 →
    ∃ t, exec (.ldMemVx x) s = .next t ∧
      ∃ w, fetchWord t = some w ∧ w.toNat = (s.reg 0).toNat * 256 + (s.reg 1).toNat

/-- Memory is plain storage (20_memory.md R38): a byte written is read back, every other byte reads as before, a cell never written
reads as its reset content. That the canonical form is kept and makes memories that read alike equal is the model's own, its
representation of memory (log 33). -/
def Obligations.MemoryReadsTheLatestWrite : Prop :=
  ∀ (c : Config) (m : Memory), Memory.wf c m →
    (∀ (a : Nat) (b : Byte), a ≤ 0xFFF →
      Memory.wf c (Memory.write c m a b) ∧ Memory.read c (Memory.write c m a b) a = b ∧
      ∀ q, q ≠ a → Memory.read c (Memory.write c m a b) q = Memory.read c m q) ∧
    (∀ a, Memory.read c [] a = if h : a < 80 then c.fontRom[a] else 0) ∧
    ∀ m', Memory.wf c m' → (∀ a, a ≤ 0xFFF → Memory.read c m a = Memory.read c m' a) → m = m'

/-! ## The sprite engine (45_display.md) -/

/-- CLS (R111): every cell 0, pc advanced, nothing else changed, VF neither. -/
def Obligations.ClearBlanksTheDisplay : Prop :=
  decode 0x00E0 = .cls ∧
  ∀ s : State, ∃ t, exec .cls s = .next t ∧ (∀ c, Display.get t.display c = false) ∧ t.pc = s.pc + 2 ∧
    UnchangedBut (fun p => p = .pc ∨ ∃ c, p = .cell c) s t

/-- DRW faults exactly so (R112, R129; the faults are the spec's D3, D5): MemBounds when n > 0 and I + n - 1 is past 0xFFF; else
DisplayBounds when some set sprite bit would fall outside 64 x 32. That bit 7 - i of a row falls at column Vx + i is the spec's D6 (from
general knowledge, log 16), that the columns are 0..63, counted by Vx, and the rows 0..31, counted by Vy, its D7 (log 17). -/
def Obligations.DrawFaultsExactlyOffMemoryOrGrid : Prop :=
  ∀ (s : State) (x y : RegIdx) (n : BitVec 4),
    (exec (.drw x y n) s = .fault .memBounds ↔ 0 < n.toNat ∧ 0xFFF < s.effAddr (n.toNat - 1)) ∧
    (exec (.drw x y n) s = .fault .displayBounds ↔
      ¬ (0 < n.toNat ∧ 0xFFF < s.effAddr (n.toNat - 1)) ∧
      ∃ j i, j < n.toNat ∧ i < 8 ∧ (s.peek (s.effAddr j)).getLsbD (7 - i) = true ∧
        (31 < (s.reg y).toNat + j ∨ 63 < (s.reg x).toNat + i))

/-- DRW (R112, R113): when all n sprite bytes are in memory and all set bits on the grid, every cell ends as its old value XOR the sprite's
bit there (bit 7 leftmost: the spec's D6; column Vx, row Vy: D7), VF is 1 exactly when some set bit met a set cell, and nothing else but
pc changes; n = 0 draws nothing and clears VF (D24); the coordinates are the old ones with x or y = F too. -/
def Obligations.DrawXorsTheSprite : Prop :=
  EncodedAs 0xD000 0xF000 (fun w => .drw (fieldX w) (fieldY w) (fieldN w)) ∧
  ∀ (s : State) (x y : RegIdx) (n : BitVec 4),
    (0 < n.toNat → s.effAddr (n.toNat - 1) ≤ 0xFFF) →
    (∀ j i, j < n.toNat → i < 8 → (s.peek (s.effAddr j)).getLsbD (7 - i) = true →
      (s.reg y).toNat + j ≤ 31 ∧ (s.reg x).toNat + i ≤ 63) →
    ∃ t, exec (.drw x y n) s = .next t ∧ t.pc = s.pc + 2 ∧
      (∀ c : Cell, Display.get t.display c = (Display.get s.display c != spritePixel s x y n.toNat c.1.val c.2.val)) ∧
      ((t.reg regF).toNat = 1 ∨ (t.reg regF).toNat = 0) ∧
      ((t.reg regF).toNat = 1 ↔
        ∃ c : Cell, spritePixel s x y n.toNat c.1.val c.2.val = true ∧ Display.get s.display c = true) ∧
      UnchangedBut (fun p => p = .pc ∨ p = .V regF ∨ ∃ c, p = .cell c) s t

/-- "drawing the same sprite twice at the same location" (R113, §8), the coordinates not in VF: the display is as before, and where the
first draw met no set cell the second reports a collision exactly when the sprite has a set bit. -/
def Obligations.DrawingTwiceRestoresTheDisplay : Prop :=
  ∀ (s t : State) (x y : RegIdx) (n : BitVec 4), x ≠ regF → y ≠ regF → exec (.drw x y n) s = .next t →
    ∃ u, exec (.drw x y n) t = .next u ∧ (∀ c, Display.get u.display c = Display.get s.display c) ∧
      ((t.reg regF).toNat = 0 →
        ((u.reg regF).toNat = 1 ↔ ∃ j i, j < n.toNat ∧ i < 8 ∧ (s.peek (s.effAddr j)).getLsbD (7 - i) = true))

/-! ## Timers and keys (46_timers_keys.md) -/

/-- LD Vx, DT; LD DT, Vx (R121, R123): the value read is DT before the step's tick; a write sets DT and its stamp, and with TIMER_PERIOD
above 0 the same step's tick does not decrement it. "the first decrement comes at least one period later": after a step of Fx15 at a
time t0, any number of further steps without Fx15, each taken before t0 + TIMER_PERIOD, leaves DT at the value written. "Vx = 0 stops
the timer": with the value 0 any number of further steps without Fx15, at whatever times, leaves DT at 0. -/
def Obligations.DelayTimerIsReadAndSet : Prop :=
  EncodedAs 0xF007 0xF0FF (fun w => .ldVxDT (fieldX w)) ∧ EncodedAs 0xF015 0xF0FF (fun w => .ldDTVx (fieldX w)) ∧
  ∀ (s : State) (x : RegIdx),
    (∃ t, exec (.ldVxDT x) s = .next t ∧ t.reg x = s.DT ∧ t.pc = s.pc + 2 ∧
      UnchangedBut (fun p => p = .pc ∨ p = .V x) s t) ∧
    (∃ t, exec (.ldDTVx x) s = .next t ∧ t.DT = s.reg x ∧ t.lastDelayTick = s.now ∧ t.pc = s.pc + 2 ∧
      UnchangedBut (fun p => p = .pc ∨ p = .DT ∨ p = .lastDelayTick) s t ∧
      (0 < s.cfg.timerPeriod ∨ s.reg x = 0 → (timerTick t).DT = s.reg x ∧ (timerTick t).lastDelayTick = s.now)) ∧
    ∀ (run : Nat → State) (n : Nat), run 0 = s → s.nextInstr = some (.ldDTVx x) → step s = .next (run 1) →
      StepsWithout (fun i => ∃ x', i = .ldDTVx x') n (fun k => run (k + 1)) →
      (0 < s.cfg.timerPeriod → (∀ k, k < n → (run (k + 1)).now < s.now + s.cfg.timerPeriod) → (run (n + 1)).DT = s.reg x) ∧
      (s.reg x = 0 → (run (n + 1)).DT = 0)

/-- LD ST, Vx (R124): sets ST and its stamp, and with TIMER_PERIOD above 0 the same step's tick does not decrement it; no tone is emitted
(the spec's D26), by the instruction or by that tick. -/
def Obligations.SoundTimerIsSet : Prop :=
  EncodedAs 0xF018 0xF0FF (fun w => .ldSTVx (fieldX w)) ∧
  ∀ (s : State) (x : RegIdx),
    ∃ t, exec (.ldSTVx x) s = .next t ∧ t.ST = s.reg x ∧ t.lastSoundTick = s.now ∧ t.pc = s.pc + 2 ∧ t.tones = s.tones ∧
      UnchangedBut (fun p => p = .pc ∨ p = .ST ∨ p = .lastSoundTick) s t ∧
      (0 < s.cfg.timerPeriod ∨ s.reg x = 0 →
        (timerTick t).ST = s.reg x ∧ (timerTick t).lastSoundTick = s.now ∧ (timerTick t).tones = s.tones)

/-- LD Vx, K (R122): with no key pressed nothing changes, pc neither; with one pressed, Vx takes the first pressed key of KEY_SCAN_ORDER,
a permutation of the keys (the spec's D9; level, not edge: D31), and pc advances. -/
def Obligations.KeyWaitHoldsUntilAKey : Prop :=
  EncodedAs 0xF00A 0xF0FF (fun w => .ldVxK (fieldX w)) ∧
  ∀ (s : State) (x : RegIdx), s.cfg.wf →
    ((∀ k : Key, s.keys[k] = false) → exec (.ldVxK x) s = .next s) ∧
    ((∃ k : Key, s.keys[k] = true) →
      ∃ t before, ∃ k : Key, ∃ after, exec (.ldVxK x) s = .next t ∧ s.cfg.keyScanOrder = before ++ k :: after ∧
        s.keys[k] = true ∧ (∀ j ∈ before, s.keys[j] = false) ∧ (t.reg x).toNat = k.val ∧ t.pc = s.pc + 2 ∧
        UnchangedBut (fun p => p = .pc ∨ p = .V x) s t)

/-- The timer tick runs in every step that goes on, a blocked Fx0A included (40_cycle.md R71; R117, R118; the spec's D13, D14): in a step
that is not Fx15 the delay timer, and in one that is not Fx18 the sound timer, goes down by one exactly when it is above 0 and a period
is over, its stamp then takes `now`, and the sound timer's decrement emits one tone. -/
def Obligations.EveryStepTicksTheTimers : Prop :=
  ∀ (s t : State) (i : Instr), s.nextInstr = some i → step s = .next t →
    ((∀ x, i ≠ .ldDTVx x) →
      ((0 < s.DT.toNat ∧ s.lastDelayTick + s.cfg.timerPeriod ≤ s.now) →
        t.DT.toNat = s.DT.toNat - 1 ∧ t.lastDelayTick = s.now) ∧
      (¬ (0 < s.DT.toNat ∧ s.lastDelayTick + s.cfg.timerPeriod ≤ s.now) →
        t.DT = s.DT ∧ t.lastDelayTick = s.lastDelayTick)) ∧
    ((∀ x, i ≠ .ldSTVx x) →
      ((0 < s.ST.toNat ∧ s.lastSoundTick + s.cfg.timerPeriod ≤ s.now) →
        t.ST.toNat = s.ST.toNat - 1 ∧ t.lastSoundTick = s.now ∧ t.tones = s.tones + 1) ∧
      (¬ (0 < s.ST.toNat ∧ s.lastSoundTick + s.cfg.timerPeriod ≤ s.now) →
        t.ST = s.ST ∧ t.lastSoundTick = s.lastSoundTick ∧ t.tones = s.tones))

/-- The tones are the decrements (R119; the count of events in State is log 10): over any run of steps without Fx18, the tones emitted
are what ST went down by, so an ST of v gives exactly v tones as it decays to 0; and a step emits at most one. -/
def Obligations.TonesCountTheDecay : Prop :=
  ∀ (run : Nat → State) (n : Nat), StepsWithout (fun i => ∃ x, i = .ldSTVx x) n run →
    (run n).tones + (run n).ST.toNat = (run 0).tones + (run 0).ST.toNat ∧
    ∀ k, k < n → (run k).tones ≤ (run (k + 1)).tones ∧ (run (k + 1)).tones ≤ (run k).tones + 1

/-- The delay timer decays no faster than time and no faster than the steps (R120, first two points): over any run without Fx15 from a
stamp t0 and a value v, DT is 0 no earlier than t0 + v * TIMER_PERIOD, and no earlier than after v steps. Both rest on the spec's D13 (log 19):
a step decrements DT once at most, and the stamp then takes the step's time. -/
def Obligations.DelayDecaysNoFasterThanTime : Prop :=
  ∀ (run : Nat → State) (n : Nat), StepsWithout (fun i => ∃ x, i = .ldDTVx x) n run → (run n).DT = 0 → (run 0).DT ≠ 0 →
    (run 0).lastDelayTick + (run 0).DT.toNat * (run 0).cfg.timerPeriod ≤ (run (n - 1)).now ∧ (run 0).DT.toNat ≤ n

/-- The delay timer decays in time (R120, third point): if the steps of a run without Fx15, the first of them at most g after the stamp
t0, follow each other within g < TIMER_PERIOD, then the step at a time of at least t0 + v * (TIMER_PERIOD + g) leaves DT at 0. It rests on the spec's D13 (log 19) too. -/
def Obligations.DelayDecaysInTime : Prop :=
  ∀ (run : Nat → State) (n g : Nat), StepsWithout (fun i => ∃ x, i = .ldDTVx x) (n + 1) run →
    g < (run 0).cfg.timerPeriod → (run 0).now ≤ (run 0).lastDelayTick + g →
    (∀ k, k < n → (run (k + 1)).now ≤ (run k).now + g) →
    (run 0).lastDelayTick + (run 0).DT.toNat * ((run 0).cfg.timerPeriod + g) ≤ (run n).now →
    (run (n + 1)).DT = 0

/-! ## Host interface and reset (60_exceptions.md, 70_reset_and_hazards.md) -/

/-- `load` (R139): a sequence that fits is copied verbatim and nothing else changes; one that does not fails with CapacityError, and
nothing changes (any origin that fits, odd lengths too: the spec's D27, D32). -/
def Obligations.LoadCopiesOrFails : Prop :=
  ∀ (s : State) (bytes : List Byte) (origin : Nat), Memory.wf s.cfg s.mem →
    (origin + bytes.length ≤ 4096 →
      ∃ t, load bytes s origin = .ok t ∧ (∀ k (h : k < bytes.length), t.peek (origin + k) = bytes[k]) ∧
        UnchangedBut (fun p => ∃ k, k < bytes.length ∧ p = .byte (origin + k)) s t) ∧
    (4096 < origin + bytes.length → load bytes s origin = .error .capacityError ∧ happen s (.load bytes origin) = s)

/-- `reset(now)` (R145; I, sp, the timers, the stamps and current_opcode by the spec's D11, the keys kept by its D12) sets every field of
the core from any state, and leaves the keys, the parameters, the tones heard and the inputs to come (log 1, 10); `State.reset` is what
a reset at time 0 leaves of some state (log 7, 8). -/
def Obligations.ResetSetsEveryField : Prop :=
  (∃ s, State.reset = resetAt 0 s) ∧
  ∀ (s : State) (now : Nat) (t : State), t = resetAt now s →
    (∀ x, t.reg x = 0) ∧ t.I = 0 ∧ t.pc = 0x200 ∧ (∀ j : Fin 16, t.stack[j] = 0) ∧ t.sp = 0 ∧ t.DT = 0 ∧ t.ST = 0 ∧
    t.lastDelayTick = now ∧ t.lastSoundTick = now ∧ (∀ c, Display.get t.display c = false) ∧ t.currentOpcode = 0 ∧
    t.fault = none ∧ (∀ a, a < 4096 → 80 ≤ a → t.peek a = 0) ∧ (∀ a (h : a < 80), t.peek a = s.cfg.fontRom[a]) ∧
    t.keys = s.keys ∧ t.cfg = s.cfg ∧ t.tones = s.tones ∧ t.inputs = s.inputs ∧ t.turn = s.turn

/-- The font install (R146): a reset, whatever was in memory, copies the 80-byte glyph table to offset 0. Neither a load nor a step
reinstalls it. A load that fits leaves its image in place and every other byte as it was, and one that does not leaves every byte; a
step of any instruction leaves each byte that its instruction does not store to, and each byte that Fx33 or Fx55 stores to is the one
stored. (The premise is the canonical form of the memory list, part of `Inv`.) -/
def Obligations.ResetInstallsTheFont : Prop :=
  (∀ (s : State) (now a : Nat) (h : a < 80), (resetAt now s).peek a = s.cfg.fontRom[a]) ∧
  (∀ (s : State) (bytes : List Byte) (origin : Nat), Memory.wf s.cfg s.mem →
    (origin + bytes.length ≤ 4096 →
      (∀ k (h : k < bytes.length), (happen s (.load bytes origin)).peek (origin + k) = bytes[k]) ∧
      ∀ a, a < origin ∨ origin + bytes.length ≤ a → (happen s (.load bytes origin)).peek a = s.peek a) ∧
    (4096 < origin + bytes.length → ∀ a, (happen s (.load bytes origin)).peek a = s.peek a)) ∧
  ∀ (s t : State) (i : Instr), Memory.wf s.cfg s.mem → s.nextInstr = some i → step s = .next t →
    (∀ a, ¬ mayWrite s i (.byte a) → t.peek a = s.peek a) ∧
    (∀ x, i = .ldBVx x →
      (t.peek (s.effAddr 0)).toNat = (s.reg x).toNat / 100 ∧ (t.peek (s.effAddr 1)).toNat = (s.reg x).toNat / 10 % 10 ∧
      (t.peek (s.effAddr 2)).toNat = (s.reg x).toNat % 10) ∧
    ∀ x, i = .ldMemVx x → ∀ r : RegIdx, r ≤ x → t.peek (s.effAddr r.val) = s.reg r

/-! ## Whole-machine rules -/

/-- The parts of a state are all of it: canonical states that agree in every part are equal, so that no frame below overlooks a piece. -/
def Obligations.FramesCoverTheState : Prop :=
  ∀ s t : State, Memory.wf s.cfg s.mem → Memory.wf t.cfg t.mem → UnchangedBut (fun _ => False) s t → s = t

/-- Each of the 36 instructions changes, when it goes on, nothing that the access tables do not name for it (10_state.md R16 to R18, R21 to
R28; 20_memory.md R37): in particular none writes the keys, the parameters, or VF unless it is named. -/
def Obligations.EveryInstructionKeepsItsFrame : Prop :=
  ∀ (i : Instr) (s t : State), exec i s = .next t → UnchangedBut (mayWrite s i) s t

/-- The table of next pc values (40_cycle.md R69): jumps, call and return go to their targets (JP V0's unmasked: the spec's D23, log 26),
each skip to pc + 4 when its condition holds and else to pc + 2, the key wait, with a legal scan order, to pc + 2 when a key is pressed
and else to pc, and every other instruction to pc + 2. -/
def Obligations.NextPcFollowsTheTable : Prop :=
  ∀ (i : Instr) (s t : State), exec i s = .next t →
    match i with
    | .ret => ∃ j : Fin 16, s.sp.val = j.val + 1 ∧ t.pc = s.stack[j] + 2
    | .jp nnn | .call nnn => t.pc.toNat = nnn.toNat
    | .jpV0 nnn => t.pc.toNat = (s.reg 0).toNat + nnn.toNat
    | .seImm x kk => t.pc = if s.reg x = kk then s.pc + 4 else s.pc + 2
    | .sneImm x kk => t.pc = if s.reg x = kk then s.pc + 2 else s.pc + 4
    | .seReg x y => t.pc = if s.reg x = s.reg y then s.pc + 4 else s.pc + 2
    | .sneReg x y => t.pc = if s.reg x = s.reg y then s.pc + 2 else s.pc + 4
    | .skp x => ∃ k : Key, k.val = (s.reg x).toNat ∧ t.pc = if s.keys[k] = true then s.pc + 4 else s.pc + 2
    | .sknp x => ∃ k : Key, k.val = (s.reg x).toNat ∧ t.pc = if s.keys[k] = true then s.pc + 2 else s.pc + 4
    | .ldVxK _ => s.cfg.wf → t.pc = if ∃ k : Key, s.keys[k] = true then s.pc + 2 else s.pc
    | _ => t.pc = s.pc + 2

/-- I passes 0x0FFF only by an Fx1E whose sum passes it, and VF then says so (10_state.md R35, R18). -/
def Obligations.IndexLeavesMemoryOnlyByAdding : Prop :=
  ∀ (i : Instr) (s t : State), exec i s = .next t → s.I.toNat ≤ 0xFFF → 0xFFF < t.I.toNat →
    ∃ x, i = .addIVx x ∧ 0xFFF < s.I.toNat + (s.reg x).toNat ∧ t.reg regF = 1

/-- The state after reset meets the invariant. -/
def Obligations.InvariantHoldsAtReset : Prop := Inv State.reset

/-- Every step keeps the invariant, from every state that meets it: the memory list canonical, pc at most 0x10FE (10_state.md R20), every
live stack entry a fetchable address (R35), no stamp in the future (46_timers_keys.md R116), the parameters legal. -/
def Obligations.EveryStepKeepsTheInvariant : Prop := ∀ s t : State, Inv s → step s = .next t → Inv t

/-- Whatever the host does between steps, loads and resets included, and whatever program runs: every state that can come after one that
meets the invariant meets it (10_state.md R35; 60_exceptions.md R141). -/
def Obligations.EveryReachableStateMeetsTheInvariant : Prop := ∀ s t : State, Inv s → Reaches s t → Inv t

/-- "Stack entries that are not live have no effect on any instruction" (41_control_flow.md R74): two machines that differ only in entries
that are not live stop alike or go on to machines that again differ only so. -/
def Obligations.DeadStackEntriesHaveNoEffect : Prop :=
  ∀ (s : State) (stack : Vector Word 16), (∀ j : Fin 16, j.val < s.sp.val → stack[j] = s.stack[j]) →
    (∀ k, step s = .fault k → step { s with stack := stack } = .fault k) ∧
    ∀ t, step s = .next t →
      ∃ stack' : Vector Word 16, step { s with stack := stack } = .next { t with stack := stack' } ∧
        ∀ j : Fin 16, j.val < t.sp.val → stack'[j] = t.stack[j]

/-- "No instruction reads" the sound timer (10_state.md R24): two machines that differ only in ST, its stamp and the tones emitted stop
alike or go on to machines that again differ only so; no program learns anything of ST. -/
def Obligations.SoundTimerIsNeverRead : Prop :=
  ∀ (s : State) (st : Byte) (stamp tones : Nat),
    (∀ k, step s = .fault k → step { s with ST := st, lastSoundTick := stamp, tones := tones } = .fault k) ∧
    ∀ t, step s = .next t →
      ∃ st' stamp' tones', step { s with ST := st, lastSoundTick := stamp, tones := tones } =
        .next { t with ST := st', lastSoundTick := stamp', tones := tones' }

/-- `current_opcode` "carries no information from one step to the next" (10_state.md R28): a step does not depend on it, and leaves in it
the word it fetched. -/
def Obligations.CurrentOpcodeCarriesNothing : Prop :=
  ∀ (s : State) (w : Word), step { s with currentOpcode := w } = step s ∧
    ∀ t, step s = .next t → fetchWord s = some t.currentOpcode
end

