-- ==== Sys2Proof/Laws/State.lean ====
section
/-! SUPPORT. For each state update, what every field of State is after it: true by rfl, for simp, so that no proof unfolds an update. -/

namespace Sys2Proof.Machine

variable (s : State)

/-! ### State.setReg -/

@[simp] theorem State.setReg_V (x : RegIdx) (b : Byte) : (s.setReg x b).V = s.V.set x b := rfl
@[simp] theorem State.setReg_I (x : RegIdx) (b : Byte) : (s.setReg x b).I = s.I := rfl
@[simp] theorem State.setReg_pc (x : RegIdx) (b : Byte) : (s.setReg x b).pc = s.pc := rfl
@[simp] theorem State.setReg_stack (x : RegIdx) (b : Byte) : (s.setReg x b).stack = s.stack := rfl
@[simp] theorem State.setReg_sp (x : RegIdx) (b : Byte) : (s.setReg x b).sp = s.sp := rfl
@[simp] theorem State.setReg_DT (x : RegIdx) (b : Byte) : (s.setReg x b).DT = s.DT := rfl
@[simp] theorem State.setReg_ST (x : RegIdx) (b : Byte) : (s.setReg x b).ST = s.ST := rfl
@[simp] theorem State.setReg_lastDelayTick (x : RegIdx) (b : Byte) : (s.setReg x b).lastDelayTick = s.lastDelayTick := rfl
@[simp] theorem State.setReg_lastSoundTick (x : RegIdx) (b : Byte) : (s.setReg x b).lastSoundTick = s.lastSoundTick := rfl
@[simp] theorem State.setReg_display (x : RegIdx) (b : Byte) : (s.setReg x b).display = s.display := rfl
@[simp] theorem State.setReg_keys (x : RegIdx) (b : Byte) : (s.setReg x b).keys = s.keys := rfl
@[simp] theorem State.setReg_currentOpcode (x : RegIdx) (b : Byte) : (s.setReg x b).currentOpcode = s.currentOpcode := rfl
@[simp] theorem State.setReg_fault (x : RegIdx) (b : Byte) : (s.setReg x b).fault = s.fault := rfl
@[simp] theorem State.setReg_mem (x : RegIdx) (b : Byte) : (s.setReg x b).mem = s.mem := rfl
@[simp] theorem State.setReg_now (x : RegIdx) (b : Byte) : (s.setReg x b).now = s.now := rfl
@[simp] theorem State.setReg_draw (x : RegIdx) (b : Byte) : (s.setReg x b).draw = s.draw := rfl
@[simp] theorem State.setReg_tones (x : RegIdx) (b : Byte) : (s.setReg x b).tones = s.tones := rfl
@[simp] theorem State.setReg_inputs (x : RegIdx) (b : Byte) : (s.setReg x b).inputs = s.inputs := rfl
@[simp] theorem State.setReg_turn (x : RegIdx) (b : Byte) : (s.setReg x b).turn = s.turn := rfl
@[simp] theorem State.setReg_cfg (x : RegIdx) (b : Byte) : (s.setReg x b).cfg = s.cfg := rfl
@[simp] theorem State.setReg_peek (x : RegIdx) (b : Byte) (q : Nat) : (s.setReg x b).peek q = s.peek q := rfl
@[simp] theorem State.setReg_effAddr (x : RegIdx) (b : Byte) (q : Nat) : (s.setReg x b).effAddr q = s.effAddr q := rfl
@[simp] theorem State.setReg_pressed (x : RegIdx) (b : Byte) (k : Key) : (s.setReg x b).pressed k = s.pressed k := rfl

/-! ### State.setVF -/

@[simp] theorem State.setVF_V (b : Byte) : (s.setVF b).V = s.V.set regF b := rfl
@[simp] theorem State.setVF_I (b : Byte) : (s.setVF b).I = s.I := rfl
@[simp] theorem State.setVF_pc (b : Byte) : (s.setVF b).pc = s.pc := rfl
@[simp] theorem State.setVF_stack (b : Byte) : (s.setVF b).stack = s.stack := rfl
@[simp] theorem State.setVF_sp (b : Byte) : (s.setVF b).sp = s.sp := rfl
@[simp] theorem State.setVF_DT (b : Byte) : (s.setVF b).DT = s.DT := rfl
@[simp] theorem State.setVF_ST (b : Byte) : (s.setVF b).ST = s.ST := rfl
@[simp] theorem State.setVF_lastDelayTick (b : Byte) : (s.setVF b).lastDelayTick = s.lastDelayTick := rfl
@[simp] theorem State.setVF_lastSoundTick (b : Byte) : (s.setVF b).lastSoundTick = s.lastSoundTick := rfl
@[simp] theorem State.setVF_display (b : Byte) : (s.setVF b).display = s.display := rfl
@[simp] theorem State.setVF_keys (b : Byte) : (s.setVF b).keys = s.keys := rfl
@[simp] theorem State.setVF_currentOpcode (b : Byte) : (s.setVF b).currentOpcode = s.currentOpcode := rfl
@[simp] theorem State.setVF_fault (b : Byte) : (s.setVF b).fault = s.fault := rfl
@[simp] theorem State.setVF_mem (b : Byte) : (s.setVF b).mem = s.mem := rfl
@[simp] theorem State.setVF_now (b : Byte) : (s.setVF b).now = s.now := rfl
@[simp] theorem State.setVF_draw (b : Byte) : (s.setVF b).draw = s.draw := rfl
@[simp] theorem State.setVF_tones (b : Byte) : (s.setVF b).tones = s.tones := rfl
@[simp] theorem State.setVF_inputs (b : Byte) : (s.setVF b).inputs = s.inputs := rfl
@[simp] theorem State.setVF_turn (b : Byte) : (s.setVF b).turn = s.turn := rfl
@[simp] theorem State.setVF_cfg (b : Byte) : (s.setVF b).cfg = s.cfg := rfl
@[simp] theorem State.setVF_peek (b : Byte) (q : Nat) : (s.setVF b).peek q = s.peek q := rfl
@[simp] theorem State.setVF_effAddr (b : Byte) (q : Nat) : (s.setVF b).effAddr q = s.effAddr q := rfl
@[simp] theorem State.setVF_pressed (b : Byte) (k : Key) : (s.setVF b).pressed k = s.pressed k := rfl

/-! ### State.setI -/

@[simp] theorem State.setI_V (a : Word) : (s.setI a).V = s.V := rfl
@[simp] theorem State.setI_I (a : Word) : (s.setI a).I = a := rfl
@[simp] theorem State.setI_pc (a : Word) : (s.setI a).pc = s.pc := rfl
@[simp] theorem State.setI_stack (a : Word) : (s.setI a).stack = s.stack := rfl
@[simp] theorem State.setI_sp (a : Word) : (s.setI a).sp = s.sp := rfl
@[simp] theorem State.setI_DT (a : Word) : (s.setI a).DT = s.DT := rfl
@[simp] theorem State.setI_ST (a : Word) : (s.setI a).ST = s.ST := rfl
@[simp] theorem State.setI_lastDelayTick (a : Word) : (s.setI a).lastDelayTick = s.lastDelayTick := rfl
@[simp] theorem State.setI_lastSoundTick (a : Word) : (s.setI a).lastSoundTick = s.lastSoundTick := rfl
@[simp] theorem State.setI_display (a : Word) : (s.setI a).display = s.display := rfl
@[simp] theorem State.setI_keys (a : Word) : (s.setI a).keys = s.keys := rfl
@[simp] theorem State.setI_currentOpcode (a : Word) : (s.setI a).currentOpcode = s.currentOpcode := rfl
@[simp] theorem State.setI_fault (a : Word) : (s.setI a).fault = s.fault := rfl
@[simp] theorem State.setI_mem (a : Word) : (s.setI a).mem = s.mem := rfl
@[simp] theorem State.setI_now (a : Word) : (s.setI a).now = s.now := rfl
@[simp] theorem State.setI_draw (a : Word) : (s.setI a).draw = s.draw := rfl
@[simp] theorem State.setI_tones (a : Word) : (s.setI a).tones = s.tones := rfl
@[simp] theorem State.setI_inputs (a : Word) : (s.setI a).inputs = s.inputs := rfl
@[simp] theorem State.setI_turn (a : Word) : (s.setI a).turn = s.turn := rfl
@[simp] theorem State.setI_cfg (a : Word) : (s.setI a).cfg = s.cfg := rfl
@[simp] theorem State.setI_reg (a : Word) (y : RegIdx) : (s.setI a).reg y = s.reg y := rfl
@[simp] theorem State.setI_peek (a : Word) (q : Nat) : (s.setI a).peek q = s.peek q := rfl
@[simp] theorem State.setI_pressed (a : Word) (k : Key) : (s.setI a).pressed k = s.pressed k := rfl

/-! ### State.advance -/

@[simp] theorem State.advance_V : s.advance.V = s.V := rfl
@[simp] theorem State.advance_I : s.advance.I = s.I := rfl
@[simp] theorem State.advance_pc : s.advance.pc = s.pc + 2 := rfl
@[simp] theorem State.advance_stack : s.advance.stack = s.stack := rfl
@[simp] theorem State.advance_sp : s.advance.sp = s.sp := rfl
@[simp] theorem State.advance_DT : s.advance.DT = s.DT := rfl
@[simp] theorem State.advance_ST : s.advance.ST = s.ST := rfl
@[simp] theorem State.advance_lastDelayTick : s.advance.lastDelayTick = s.lastDelayTick := rfl
@[simp] theorem State.advance_lastSoundTick : s.advance.lastSoundTick = s.lastSoundTick := rfl
@[simp] theorem State.advance_display : s.advance.display = s.display := rfl
@[simp] theorem State.advance_keys : s.advance.keys = s.keys := rfl
@[simp] theorem State.advance_currentOpcode : s.advance.currentOpcode = s.currentOpcode := rfl
@[simp] theorem State.advance_fault : s.advance.fault = s.fault := rfl
@[simp] theorem State.advance_mem : s.advance.mem = s.mem := rfl
@[simp] theorem State.advance_now : s.advance.now = s.now := rfl
@[simp] theorem State.advance_draw : s.advance.draw = s.draw := rfl
@[simp] theorem State.advance_tones : s.advance.tones = s.tones := rfl
@[simp] theorem State.advance_inputs : s.advance.inputs = s.inputs := rfl
@[simp] theorem State.advance_turn : s.advance.turn = s.turn := rfl
@[simp] theorem State.advance_cfg : s.advance.cfg = s.cfg := rfl
@[simp] theorem State.advance_reg (y : RegIdx) : s.advance.reg y = s.reg y := rfl
@[simp] theorem State.advance_peek (q : Nat) : s.advance.peek q = s.peek q := rfl
@[simp] theorem State.advance_effAddr (q : Nat) : s.advance.effAddr q = s.effAddr q := rfl
@[simp] theorem State.advance_pressed (k : Key) : s.advance.pressed k = s.pressed k := rfl

/-! ### State.skipIf -/

@[simp] theorem State.skipIf_V (c : Bool) : (s.skipIf c).V = s.V := rfl
@[simp] theorem State.skipIf_I (c : Bool) : (s.skipIf c).I = s.I := rfl
@[simp] theorem State.skipIf_pc (c : Bool) : (s.skipIf c).pc = if c then s.pc + 4 else s.pc + 2 := rfl
@[simp] theorem State.skipIf_stack (c : Bool) : (s.skipIf c).stack = s.stack := rfl
@[simp] theorem State.skipIf_sp (c : Bool) : (s.skipIf c).sp = s.sp := rfl
@[simp] theorem State.skipIf_DT (c : Bool) : (s.skipIf c).DT = s.DT := rfl
@[simp] theorem State.skipIf_ST (c : Bool) : (s.skipIf c).ST = s.ST := rfl
@[simp] theorem State.skipIf_lastDelayTick (c : Bool) : (s.skipIf c).lastDelayTick = s.lastDelayTick := rfl
@[simp] theorem State.skipIf_lastSoundTick (c : Bool) : (s.skipIf c).lastSoundTick = s.lastSoundTick := rfl
@[simp] theorem State.skipIf_display (c : Bool) : (s.skipIf c).display = s.display := rfl
@[simp] theorem State.skipIf_keys (c : Bool) : (s.skipIf c).keys = s.keys := rfl
@[simp] theorem State.skipIf_currentOpcode (c : Bool) : (s.skipIf c).currentOpcode = s.currentOpcode := rfl
@[simp] theorem State.skipIf_fault (c : Bool) : (s.skipIf c).fault = s.fault := rfl
@[simp] theorem State.skipIf_mem (c : Bool) : (s.skipIf c).mem = s.mem := rfl
@[simp] theorem State.skipIf_now (c : Bool) : (s.skipIf c).now = s.now := rfl
@[simp] theorem State.skipIf_draw (c : Bool) : (s.skipIf c).draw = s.draw := rfl
@[simp] theorem State.skipIf_tones (c : Bool) : (s.skipIf c).tones = s.tones := rfl
@[simp] theorem State.skipIf_inputs (c : Bool) : (s.skipIf c).inputs = s.inputs := rfl
@[simp] theorem State.skipIf_turn (c : Bool) : (s.skipIf c).turn = s.turn := rfl
@[simp] theorem State.skipIf_cfg (c : Bool) : (s.skipIf c).cfg = s.cfg := rfl
@[simp] theorem State.skipIf_reg (c : Bool) (y : RegIdx) : (s.skipIf c).reg y = s.reg y := rfl
@[simp] theorem State.skipIf_peek (c : Bool) (q : Nat) : (s.skipIf c).peek q = s.peek q := rfl
@[simp] theorem State.skipIf_effAddr (c : Bool) (q : Nat) : (s.skipIf c).effAddr q = s.effAddr q := rfl
@[simp] theorem State.skipIf_pressed (c : Bool) (k : Key) : (s.skipIf c).pressed k = s.pressed k := rfl

/-! ### State.jump -/

@[simp] theorem State.jump_V (a : Word) : (s.jump a).V = s.V := rfl
@[simp] theorem State.jump_I (a : Word) : (s.jump a).I = s.I := rfl
@[simp] theorem State.jump_pc (a : Word) : (s.jump a).pc = a := rfl
@[simp] theorem State.jump_stack (a : Word) : (s.jump a).stack = s.stack := rfl
@[simp] theorem State.jump_sp (a : Word) : (s.jump a).sp = s.sp := rfl
@[simp] theorem State.jump_DT (a : Word) : (s.jump a).DT = s.DT := rfl
@[simp] theorem State.jump_ST (a : Word) : (s.jump a).ST = s.ST := rfl
@[simp] theorem State.jump_lastDelayTick (a : Word) : (s.jump a).lastDelayTick = s.lastDelayTick := rfl
@[simp] theorem State.jump_lastSoundTick (a : Word) : (s.jump a).lastSoundTick = s.lastSoundTick := rfl
@[simp] theorem State.jump_display (a : Word) : (s.jump a).display = s.display := rfl
@[simp] theorem State.jump_keys (a : Word) : (s.jump a).keys = s.keys := rfl
@[simp] theorem State.jump_currentOpcode (a : Word) : (s.jump a).currentOpcode = s.currentOpcode := rfl
@[simp] theorem State.jump_fault (a : Word) : (s.jump a).fault = s.fault := rfl
@[simp] theorem State.jump_mem (a : Word) : (s.jump a).mem = s.mem := rfl
@[simp] theorem State.jump_now (a : Word) : (s.jump a).now = s.now := rfl
@[simp] theorem State.jump_draw (a : Word) : (s.jump a).draw = s.draw := rfl
@[simp] theorem State.jump_tones (a : Word) : (s.jump a).tones = s.tones := rfl
@[simp] theorem State.jump_inputs (a : Word) : (s.jump a).inputs = s.inputs := rfl
@[simp] theorem State.jump_turn (a : Word) : (s.jump a).turn = s.turn := rfl
@[simp] theorem State.jump_cfg (a : Word) : (s.jump a).cfg = s.cfg := rfl
@[simp] theorem State.jump_reg (a : Word) (y : RegIdx) : (s.jump a).reg y = s.reg y := rfl
@[simp] theorem State.jump_peek (a : Word) (q : Nat) : (s.jump a).peek q = s.peek q := rfl
@[simp] theorem State.jump_effAddr (a : Word) (q : Nat) : (s.jump a).effAddr q = s.effAddr q := rfl
@[simp] theorem State.jump_pressed (a : Word) (k : Key) : (s.jump a).pressed k = s.pressed k := rfl

/-! ### State.poke -/

@[simp] theorem State.poke_V (a : Nat) (b : Byte) : (s.poke a b).V = s.V := rfl
@[simp] theorem State.poke_I (a : Nat) (b : Byte) : (s.poke a b).I = s.I := rfl
@[simp] theorem State.poke_pc (a : Nat) (b : Byte) : (s.poke a b).pc = s.pc := rfl
@[simp] theorem State.poke_stack (a : Nat) (b : Byte) : (s.poke a b).stack = s.stack := rfl
@[simp] theorem State.poke_sp (a : Nat) (b : Byte) : (s.poke a b).sp = s.sp := rfl
@[simp] theorem State.poke_DT (a : Nat) (b : Byte) : (s.poke a b).DT = s.DT := rfl
@[simp] theorem State.poke_ST (a : Nat) (b : Byte) : (s.poke a b).ST = s.ST := rfl
@[simp] theorem State.poke_lastDelayTick (a : Nat) (b : Byte) : (s.poke a b).lastDelayTick = s.lastDelayTick := rfl
@[simp] theorem State.poke_lastSoundTick (a : Nat) (b : Byte) : (s.poke a b).lastSoundTick = s.lastSoundTick := rfl
@[simp] theorem State.poke_display (a : Nat) (b : Byte) : (s.poke a b).display = s.display := rfl
@[simp] theorem State.poke_keys (a : Nat) (b : Byte) : (s.poke a b).keys = s.keys := rfl
@[simp] theorem State.poke_currentOpcode (a : Nat) (b : Byte) : (s.poke a b).currentOpcode = s.currentOpcode := rfl
@[simp] theorem State.poke_fault (a : Nat) (b : Byte) : (s.poke a b).fault = s.fault := rfl
@[simp] theorem State.poke_mem (a : Nat) (b : Byte) : (s.poke a b).mem = Memory.write s.cfg s.mem a b := rfl
@[simp] theorem State.poke_now (a : Nat) (b : Byte) : (s.poke a b).now = s.now := rfl
@[simp] theorem State.poke_draw (a : Nat) (b : Byte) : (s.poke a b).draw = s.draw := rfl
@[simp] theorem State.poke_tones (a : Nat) (b : Byte) : (s.poke a b).tones = s.tones := rfl
@[simp] theorem State.poke_inputs (a : Nat) (b : Byte) : (s.poke a b).inputs = s.inputs := rfl
@[simp] theorem State.poke_turn (a : Nat) (b : Byte) : (s.poke a b).turn = s.turn := rfl
@[simp] theorem State.poke_cfg (a : Nat) (b : Byte) : (s.poke a b).cfg = s.cfg := rfl
@[simp] theorem State.poke_reg (a : Nat) (b : Byte) (y : RegIdx) : (s.poke a b).reg y = s.reg y := rfl
@[simp] theorem State.poke_effAddr (a : Nat) (b : Byte) (q : Nat) : (s.poke a b).effAddr q = s.effAddr q := rfl
@[simp] theorem State.poke_pressed (a : Nat) (b : Byte) (k : Key) : (s.poke a b).pressed k = s.pressed k := rfl

/-! ### State.fetched -/

@[simp] theorem State.fetched_V (w : Word) : (s.fetched w).V = s.V := rfl
@[simp] theorem State.fetched_I (w : Word) : (s.fetched w).I = s.I := rfl
@[simp] theorem State.fetched_pc (w : Word) : (s.fetched w).pc = s.pc := rfl
@[simp] theorem State.fetched_stack (w : Word) : (s.fetched w).stack = s.stack := rfl
@[simp] theorem State.fetched_sp (w : Word) : (s.fetched w).sp = s.sp := rfl
@[simp] theorem State.fetched_DT (w : Word) : (s.fetched w).DT = s.DT := rfl
@[simp] theorem State.fetched_ST (w : Word) : (s.fetched w).ST = s.ST := rfl
@[simp] theorem State.fetched_lastDelayTick (w : Word) : (s.fetched w).lastDelayTick = s.lastDelayTick := rfl
@[simp] theorem State.fetched_lastSoundTick (w : Word) : (s.fetched w).lastSoundTick = s.lastSoundTick := rfl
@[simp] theorem State.fetched_display (w : Word) : (s.fetched w).display = s.display := rfl
@[simp] theorem State.fetched_keys (w : Word) : (s.fetched w).keys = s.keys := rfl
@[simp] theorem State.fetched_currentOpcode (w : Word) : (s.fetched w).currentOpcode = w := rfl
@[simp] theorem State.fetched_fault (w : Word) : (s.fetched w).fault = s.fault := rfl
@[simp] theorem State.fetched_mem (w : Word) : (s.fetched w).mem = s.mem := rfl
@[simp] theorem State.fetched_now (w : Word) : (s.fetched w).now = s.now := rfl
@[simp] theorem State.fetched_draw (w : Word) : (s.fetched w).draw = s.draw := rfl
@[simp] theorem State.fetched_tones (w : Word) : (s.fetched w).tones = s.tones := rfl
@[simp] theorem State.fetched_inputs (w : Word) : (s.fetched w).inputs = s.inputs := rfl
@[simp] theorem State.fetched_turn (w : Word) : (s.fetched w).turn = s.turn := rfl
@[simp] theorem State.fetched_cfg (w : Word) : (s.fetched w).cfg = s.cfg := rfl
@[simp] theorem State.fetched_reg (w : Word) (y : RegIdx) : (s.fetched w).reg y = s.reg y := rfl
@[simp] theorem State.fetched_peek (w : Word) (q : Nat) : (s.fetched w).peek q = s.peek q := rfl
@[simp] theorem State.fetched_effAddr (w : Word) (q : Nat) : (s.fetched w).effAddr q = s.effAddr q := rfl
@[simp] theorem State.fetched_pressed (w : Word) (k : Key) : (s.fetched w).pressed k = s.pressed k := rfl

/-! ### recordFault -/

@[simp] theorem recordFault_V (k : Fault) : (recordFault s k).V = s.V := rfl
@[simp] theorem recordFault_I (k : Fault) : (recordFault s k).I = s.I := rfl
@[simp] theorem recordFault_pc (k : Fault) : (recordFault s k).pc = s.pc := rfl
@[simp] theorem recordFault_stack (k : Fault) : (recordFault s k).stack = s.stack := rfl
@[simp] theorem recordFault_sp (k : Fault) : (recordFault s k).sp = s.sp := rfl
@[simp] theorem recordFault_DT (k : Fault) : (recordFault s k).DT = s.DT := rfl
@[simp] theorem recordFault_ST (k : Fault) : (recordFault s k).ST = s.ST := rfl
@[simp] theorem recordFault_lastDelayTick (k : Fault) : (recordFault s k).lastDelayTick = s.lastDelayTick := rfl
@[simp] theorem recordFault_lastSoundTick (k : Fault) : (recordFault s k).lastSoundTick = s.lastSoundTick := rfl
@[simp] theorem recordFault_display (k : Fault) : (recordFault s k).display = s.display := rfl
@[simp] theorem recordFault_keys (k : Fault) : (recordFault s k).keys = s.keys := rfl
@[simp] theorem recordFault_currentOpcode (k : Fault) : (recordFault s k).currentOpcode = s.currentOpcode := rfl
@[simp] theorem recordFault_fault (k : Fault) : (recordFault s k).fault = some k := rfl
@[simp] theorem recordFault_mem (k : Fault) : (recordFault s k).mem = s.mem := rfl
@[simp] theorem recordFault_now (k : Fault) : (recordFault s k).now = s.now := rfl
@[simp] theorem recordFault_draw (k : Fault) : (recordFault s k).draw = s.draw := rfl
@[simp] theorem recordFault_tones (k : Fault) : (recordFault s k).tones = s.tones := rfl
@[simp] theorem recordFault_inputs (k : Fault) : (recordFault s k).inputs = s.inputs := rfl
@[simp] theorem recordFault_turn (k : Fault) : (recordFault s k).turn = s.turn := rfl
@[simp] theorem recordFault_cfg (k : Fault) : (recordFault s k).cfg = s.cfg := rfl
@[simp] theorem recordFault_reg (k : Fault) (y : RegIdx) : (recordFault s k).reg y = s.reg y := rfl
@[simp] theorem recordFault_peek (k : Fault) (q : Nat) : (recordFault s k).peek q = s.peek q := rfl
@[simp] theorem recordFault_effAddr (k : Fault) (q : Nat) : (recordFault s k).effAddr q = s.effAddr q := rfl
@[simp] theorem recordFault_pressed (k : Fault) (q : Key) : (recordFault s k).pressed q = s.pressed q := rfl

/-! ### hostTurn -/

@[simp] theorem hostTurn_V : (hostTurn s).V = s.V := rfl
@[simp] theorem hostTurn_I : (hostTurn s).I = s.I := rfl
@[simp] theorem hostTurn_pc : (hostTurn s).pc = s.pc := rfl
@[simp] theorem hostTurn_stack : (hostTurn s).stack = s.stack := rfl
@[simp] theorem hostTurn_sp : (hostTurn s).sp = s.sp := rfl
@[simp] theorem hostTurn_DT : (hostTurn s).DT = s.DT := rfl
@[simp] theorem hostTurn_ST : (hostTurn s).ST = s.ST := rfl
@[simp] theorem hostTurn_lastDelayTick : (hostTurn s).lastDelayTick = s.lastDelayTick := rfl
@[simp] theorem hostTurn_lastSoundTick : (hostTurn s).lastSoundTick = s.lastSoundTick := rfl
@[simp] theorem hostTurn_display : (hostTurn s).display = s.display := rfl
@[simp] theorem hostTurn_keys : (hostTurn s).keys = (nextInput s).keys := rfl
@[simp] theorem hostTurn_currentOpcode : (hostTurn s).currentOpcode = s.currentOpcode := rfl
@[simp] theorem hostTurn_fault : (hostTurn s).fault = s.fault := rfl
@[simp] theorem hostTurn_mem : (hostTurn s).mem = s.mem := rfl
@[simp] theorem hostTurn_now : (hostTurn s).now = s.now + (nextInput s).elapsed := rfl
@[simp] theorem hostTurn_draw : (hostTurn s).draw = (nextInput s).draw := rfl
@[simp] theorem hostTurn_tones : (hostTurn s).tones = s.tones := rfl
@[simp] theorem hostTurn_inputs : (hostTurn s).inputs = s.inputs.tail := rfl
@[simp] theorem hostTurn_turn : (hostTurn s).turn = if s.inputs.isEmpty then s.turn + 1 else s.turn := rfl
@[simp] theorem hostTurn_cfg : (hostTurn s).cfg = s.cfg := rfl
@[simp] theorem hostTurn_reg (y : RegIdx) : (hostTurn s).reg y = s.reg y := rfl
@[simp] theorem hostTurn_peek (q : Nat) : (hostTurn s).peek q = s.peek q := rfl
@[simp] theorem hostTurn_effAddr (q : Nat) : (hostTurn s).effAddr q = s.effAddr q := rfl

/-! ### Reading a register after writing one -/

@[simp] theorem State.reg_setReg (x y : RegIdx) (b : Byte) :
    (s.setReg x b).reg y = if x = y then b else s.reg y := by
  simp only [State.reg, State.setReg, Fin.getElem_fin]
  rw [Vector.getElem_set]
  simp [Fin.ext_iff]

@[simp] theorem State.reg_setVF (y : RegIdx) (b : Byte) :
    (s.setVF b).reg y = if regF = y then b else s.reg y := State.reg_setReg s regF y b

/-- Two states with the same registers, read one by one, have the same register file. -/
theorem State.V_ext {s t : State} (h : ∀ x, t.reg x = s.reg x) : t.V = s.V := by
  apply Vector.ext
  intro i hi
  exact h ⟨i, hi⟩

end Sys2Proof.Machine
end

