-- ==== Sys2Proof/Laws/Memory.lean ====
section
/-! SUPPORT. Memory: reading after writing, the canonical form and that every memory operation keeps it, and what the multi-byte
operations do. -/

namespace Sys2Proof.Machine

/-! ## One cell -/

theorem Memory.read_of_forall_ne (c : Config) (m : Memory) (a : Nat) (h : ∀ p ∈ m, p.1 ≠ a) :
    Memory.read c m a = resetByte c a := by
  induction m with
  | nil => rfl
  | cons p rest ih =>
    obtain ⟨k, v⟩ := p
    have hk : k ≠ a := h (k, v) (by simp)
    simp only [Memory.read, if_neg hk]
    exact ih fun q hq => h q (by simp [hq])

theorem Memory.read_write_same (c : Config) (m : Memory) (a : Nat) (b : Byte)
    (h : m.Pairwise fun p q => p.1 < q.1) : Memory.read c (Memory.write c m a b) a = b := by
  induction m with
  | nil =>
    unfold Memory.write
    split <;> simp_all [Memory.read]
  | cons p rest ih =>
    obtain ⟨k, v⟩ := p
    have hrest : ∀ q ∈ rest, k < q.1 := fun q hq => (List.pairwise_cons.1 h).1 q hq
    unfold Memory.write
    split
    · rename_i hak
      split
      · rename_i hb
        rw [hb]
        apply Memory.read_of_forall_ne
        intro q hq
        rcases List.mem_cons.1 hq with rfl | hq
        · simp; omega
        · have := hrest q hq; omega
      · simp [Memory.read]
    · split
      · rename_i hak
        subst hak
        split
        · rename_i hb
          rw [hb]
          apply Memory.read_of_forall_ne
          intro q hq
          have := hrest q hq; omega
        · simp [Memory.read]
      · rename_i hlt hne
        simp only [Memory.read, if_neg (Ne.symm hne)]
        exact ih (List.pairwise_cons.1 h).2

theorem Memory.read_write_other (c : Config) (m : Memory) (a q : Nat) (b : Byte) (h : q ≠ a) :
    Memory.read c (Memory.write c m a b) q = Memory.read c m q := by
  induction m with
  | nil =>
    unfold Memory.write
    split <;> simp [Memory.read, Ne.symm h]
  | cons p rest ih =>
    obtain ⟨k, v⟩ := p
    unfold Memory.write
    split
    · split <;> simp [Memory.read, Ne.symm h]
    · split
      · rename_i hak
        subst hak
        split <;> simp [Memory.read, Ne.symm h]
      · simp only [Memory.read, ih]

theorem Memory.mem_write (c : Config) (m : Memory) (a : Nat) (b : Byte) (p : Host.Cell)
    (h : p ∈ Memory.write c m a b) : p ∈ m ∨ (p = (a, b) ∧ b ≠ resetByte c a) := by
  induction m with
  | nil =>
    unfold Memory.write at h
    split at h
    · simp at h
    · simp_all
  | cons q rest ih =>
    obtain ⟨k, v⟩ := q
    unfold Memory.write at h
    split at h
    · split at h
      · exact .inl h
      · rcases List.mem_cons.1 h with rfl | h
        · exact .inr ⟨rfl, ‹_›⟩
        · exact .inl h
    · split at h
      · split at h
        · exact .inl (List.mem_cons_of_mem _ h)
        · rcases List.mem_cons.1 h with rfl | h
          · exact .inr ⟨rfl, ‹_›⟩
          · exact .inl (List.mem_cons_of_mem _ h)
      · rcases List.mem_cons.1 h with rfl | h
        · exact .inl (by simp)
        · rcases ih h with h | h
          · exact .inl (List.mem_cons_of_mem _ h)
          · exact .inr h

/-- A write below 4096 keeps the canonical form. -/
theorem Memory.write_wf {c : Config} {m : Memory} {a : Nat} {b : Byte} (h : Memory.wf c m) (ha : a < 4096) :
    Memory.wf c (Memory.write c m a b) := by
  refine ⟨?_, fun p hp => ?_⟩
  · have hs := h.1
    clear h
    induction m with
    | nil => unfold Memory.write; split <;> simp
    | cons p rest ih =>
      obtain ⟨k, v⟩ := p
      obtain ⟨hk, hrest⟩ := List.pairwise_cons.1 hs
      unfold Memory.write
      split
      · split
        · exact hs
        · refine List.pairwise_cons.2 ⟨fun q hq => ?_, hs⟩
          rcases List.mem_cons.1 hq with rfl | hq
          · assumption
          · exact Nat.lt_trans ‹a < k› (hk q hq)
      · split
        · rename_i hak
          subst hak
          split
          · exact hrest
          · exact List.pairwise_cons.2 ⟨hk, hrest⟩
        · refine List.pairwise_cons.2 ⟨fun q hq => ?_, ih hrest⟩
          rcases Memory.mem_write c rest a b q hq with hq | ⟨rfl, -⟩
          · exact hk q hq
          · have : ¬ a < k := by assumption
            have : ¬ a = k := by assumption
            simp only
            omega
  · rcases Memory.mem_write c m a b p hp with hp | ⟨rfl, hb⟩
    · exact h.2 p hp
    · exact ⟨ha, hb⟩

theorem Memory.wf_nil (c : Config) : Memory.wf c [] := by simp [Memory.wf]

/-- Canonical memories that read the same everywhere are the same list. -/
theorem Memory.ext_of_read {c : Config} {m m' : Memory} (h : Memory.wf c m) (h' : Memory.wf c m')
    (hr : ∀ a, Memory.read c m a = Memory.read c m' a) : m = m' := by
  have notListed : ∀ (l : Memory) (k a : Nat) (v : Byte), ((k, v) :: l).Pairwise (fun p q => p.1 < q.1) →
      a < k → Memory.read c ((k, v) :: l) a = resetByte c a := by
    intro l k a v hl ha
    apply Memory.read_of_forall_ne
    intro p hp
    rcases List.mem_cons.1 hp with rfl | hp
    · simp only; omega
    · have := (List.pairwise_cons.1 hl).1 p hp; simp only at this; omega
  induction m generalizing m' with
  | nil =>
    cases m' with
    | nil => rfl
    | cons p rest =>
      obtain ⟨k, v⟩ := p
      exact absurd (by simpa [Memory.read] using (hr k).symm) (h'.2 (k, v) (by simp)).2
  | cons p rest ih =>
    obtain ⟨k, v⟩ := p
    cases m' with
    | nil => exact absurd (by simpa [Memory.read] using hr k) (h.2 (k, v) (by simp)).2
    | cons p' rest' =>
      obtain ⟨k', v'⟩ := p'
      have hv := (h.2 (k, v) (by simp)).2
      have hv' := (h'.2 (k', v') (by simp)).2
      have hkk : k = k' := by
        rcases Nat.lt_trichotomy k k' with hlt | heq | hgt
        · exact absurd (by simpa [Memory.read] using (hr k).trans (notListed rest' k' k v' h'.1 hlt)) hv
        · exact heq
        · exact absurd (by simpa [Memory.read] using (hr k').symm.trans (notListed rest k k' v h.1 hgt)) hv'
      subst hkk
      have hvv : v = v' := by simpa [Memory.read] using hr k
      subst hvv
      obtain ⟨hk, hs⟩ := List.pairwise_cons.1 h.1
      obtain ⟨hk', hs'⟩ := List.pairwise_cons.1 h'.1
      have := ih (m' := rest') ⟨hs, fun q hq => h.2 q (by simp [hq])⟩ ⟨hs', fun q hq => h'.2 q (by simp [hq])⟩
        (fun a => by
          by_cases ha : k = a
          · subst ha
            rw [Memory.read_of_forall_ne c rest k fun q hq => by have := hk q hq; simp only at this; omega,
              Memory.read_of_forall_ne c rest' k fun q hq => by have := hk' q hq; simp only at this; omega]
          · simpa [Memory.read, ha] using hr a)
      rw [this]

/-! ## One byte of a state -/

theorem State.peek_poke_same {s : State} (h : Memory.wf s.cfg s.mem) (a : Nat) (b : Byte) : (s.poke a b).peek a = b :=
  Memory.read_write_same _ _ _ _ h.1

theorem State.peek_poke_other (s : State) {a q : Nat} (b : Byte) (h : q ≠ a) : (s.poke a b).peek q = s.peek q :=
  Memory.read_write_other _ _ _ _ _ h

/-! ## Many bytes -/

/-- Nothing but memory changes when bytes are stored. -/
theorem State.pokeMany_eq (s : State) (a : Nat) (bs : List Byte) :
    s.pokeMany a bs = { s with mem := (s.pokeMany a bs).mem } := by
  induction bs generalizing s a with
  | nil => rfl
  | cons b bs ih =>
    simp only [State.pokeMany]
    rw [ih]
    rfl

theorem State.pokeMany_peek_outside (s : State) (a : Nat) (bs : List Byte) (q : Nat)
    (h : q < a ∨ a + bs.length ≤ q) : (s.pokeMany a bs).peek q = s.peek q := by
  induction bs generalizing s a with
  | nil => rfl
  | cons b bs ih =>
    simp only [List.length_cons] at h
    simp only [State.pokeMany]
    rw [ih _ _ (by omega), State.peek_poke_other _ _ (by omega)]

/-- Stores below 4096 keep the canonical form. -/
theorem State.pokeMany_wf {s : State} (h : Memory.wf s.cfg s.mem) {a : Nat} {bs : List Byte}
    (hb : bs = [] ∨ a + bs.length ≤ 4096) : Memory.wf (s.pokeMany a bs).cfg (s.pokeMany a bs).mem := by
  induction bs generalizing s a with
  | nil => exact h
  | cons b bs ih =>
    simp only [List.length_cons, reduceCtorEq, false_or] at hb
    exact ih (s := s.poke a b) (Memory.write_wf h (by omega)) (Or.inr (by omega))

/-- The k-th byte stored is read back at the k-th address. -/
theorem State.pokeMany_peek_inside {s : State} (h : Memory.wf s.cfg s.mem) {a : Nat} {bs : List Byte}
    (hb : a + bs.length ≤ 4096) (k : Nat) (hk : k < bs.length) : (s.pokeMany a bs).peek (a + k) = bs[k] := by
  induction bs generalizing s a k with
  | nil => simp at hk
  | cons b bs ih =>
    simp only [List.length_cons] at hb hk
    have hwf : Memory.wf (s.poke a b).cfg (s.poke a b).mem := Memory.write_wf h (by omega)
    simp only [State.pokeMany]
    cases k with
    | zero => rw [State.pokeMany_peek_outside _ _ _ _ (by omega)]; exact State.peek_poke_same h _ _
    | succ k => simpa [Nat.add_assoc, Nat.add_comm 1] using ih hwf (a := a + 1) (by omega) k (by omega)

@[simp] theorem State.peekMany_length (s : State) (a n : Nat) : (s.peekMany a n).length = n := by
  induction n generalizing a with
  | zero => rfl
  | succ n ih => simp [State.peekMany, ih]

theorem State.getElem_peekMany (s : State) (a n k : Nat) (hk : k < (s.peekMany a n).length) :
    (s.peekMany a n)[k] = s.peek (a + k) := by
  induction n generalizing a k with
  | zero => simp [State.peekMany] at hk
  | succ n ih =>
    cases k with
    | zero => rfl
    | succ k =>
      simp only [State.peekMany, List.getElem_cons_succ]
      rw [ih]
      congr 1
      omega

/-! ## The other fields after storing bytes -/

@[simp] theorem State.pokeMany_V (s : State) (a : Nat) (bs : List Byte) : (s.pokeMany a bs).V = s.V := by
  rw [State.pokeMany_eq]
@[simp] theorem State.pokeMany_I (s : State) (a : Nat) (bs : List Byte) : (s.pokeMany a bs).I = s.I := by
  rw [State.pokeMany_eq]
@[simp] theorem State.pokeMany_pc (s : State) (a : Nat) (bs : List Byte) : (s.pokeMany a bs).pc = s.pc := by
  rw [State.pokeMany_eq]
@[simp] theorem State.pokeMany_stack (s : State) (a : Nat) (bs : List Byte) : (s.pokeMany a bs).stack = s.stack := by
  rw [State.pokeMany_eq]
@[simp] theorem State.pokeMany_sp (s : State) (a : Nat) (bs : List Byte) : (s.pokeMany a bs).sp = s.sp := by
  rw [State.pokeMany_eq]
@[simp] theorem State.pokeMany_DT (s : State) (a : Nat) (bs : List Byte) : (s.pokeMany a bs).DT = s.DT := by
  rw [State.pokeMany_eq]
@[simp] theorem State.pokeMany_ST (s : State) (a : Nat) (bs : List Byte) : (s.pokeMany a bs).ST = s.ST := by
  rw [State.pokeMany_eq]
@[simp] theorem State.pokeMany_lastDelayTick (s : State) (a : Nat) (bs : List Byte) : (s.pokeMany a bs).lastDelayTick = s.lastDelayTick := by
  rw [State.pokeMany_eq]
@[simp] theorem State.pokeMany_lastSoundTick (s : State) (a : Nat) (bs : List Byte) : (s.pokeMany a bs).lastSoundTick = s.lastSoundTick := by
  rw [State.pokeMany_eq]
@[simp] theorem State.pokeMany_display (s : State) (a : Nat) (bs : List Byte) : (s.pokeMany a bs).display = s.display := by
  rw [State.pokeMany_eq]
@[simp] theorem State.pokeMany_keys (s : State) (a : Nat) (bs : List Byte) : (s.pokeMany a bs).keys = s.keys := by
  rw [State.pokeMany_eq]
@[simp] theorem State.pokeMany_currentOpcode (s : State) (a : Nat) (bs : List Byte) : (s.pokeMany a bs).currentOpcode = s.currentOpcode := by
  rw [State.pokeMany_eq]
@[simp] theorem State.pokeMany_fault (s : State) (a : Nat) (bs : List Byte) : (s.pokeMany a bs).fault = s.fault := by
  rw [State.pokeMany_eq]
@[simp] theorem State.pokeMany_now (s : State) (a : Nat) (bs : List Byte) : (s.pokeMany a bs).now = s.now := by
  rw [State.pokeMany_eq]
@[simp] theorem State.pokeMany_draw (s : State) (a : Nat) (bs : List Byte) : (s.pokeMany a bs).draw = s.draw := by
  rw [State.pokeMany_eq]
@[simp] theorem State.pokeMany_tones (s : State) (a : Nat) (bs : List Byte) : (s.pokeMany a bs).tones = s.tones := by
  rw [State.pokeMany_eq]
@[simp] theorem State.pokeMany_inputs (s : State) (a : Nat) (bs : List Byte) : (s.pokeMany a bs).inputs = s.inputs := by
  rw [State.pokeMany_eq]
@[simp] theorem State.pokeMany_turn (s : State) (a : Nat) (bs : List Byte) : (s.pokeMany a bs).turn = s.turn := by
  rw [State.pokeMany_eq]
@[simp] theorem State.pokeMany_cfg (s : State) (a : Nat) (bs : List Byte) : (s.pokeMany a bs).cfg = s.cfg := by
  rw [State.pokeMany_eq]
@[simp] theorem State.pokeMany_reg (s : State) (a : Nat) (bs : List Byte) (x : RegIdx) : (s.pokeMany a bs).reg x = s.reg x := by
  rw [State.pokeMany_eq]; rfl
@[simp] theorem State.pokeMany_pressed (s : State) (a : Nat) (bs : List Byte) (k : Key) : (s.pokeMany a bs).pressed k = s.pressed k := by
  rw [State.pokeMany_eq]; rfl

/-! ## Bounded accesses -/

theorem inMemory_iff (a n : Nat) : inMemory a n = true ↔ n = 0 ∨ a + n ≤ 4096 := by
  simp [inMemory]

/-- Everything a store can do: it completes, with the bytes stored and pc moved by 2, or faults. -/
theorem storeBytes_cases (s : State) (a : Nat) (bs : List Byte) :
    ((bs = [] ∨ a + bs.length ≤ 4096) ∧ storeBytes s a bs = .next (s.pokeMany a bs).advance) ∨
    (bs ≠ [] ∧ 4096 < a + bs.length ∧ storeBytes s a bs = .fault .memBounds) := by
  by_cases h : inMemory a bs.length = true
  · exact .inl ⟨by simpa [inMemory_iff] using h, by simp [storeBytes, h]⟩
  · refine .inr ?_
    have h' := h
    rw [inMemory_iff] at h'
    refine ⟨by rintro rfl; simp at h', by omega, by simp [storeBytes, h]⟩

/-- Everything a bounded read can do: it goes on with the bytes, or faults. -/
theorem withBytes_cases (s : State) (a n : Nat) (go : List Byte → Result) :
    ((n = 0 ∨ a + n ≤ 4096) ∧ withBytes s a n go = go (s.peekMany a n)) ∨
    (n ≠ 0 ∧ 4096 < a + n ∧ withBytes s a n go = .fault .memBounds) := by
  by_cases h : inMemory a n = true
  · exact .inl ⟨by simpa [inMemory_iff] using h, by simp [withBytes, h]⟩
  · refine .inr ?_
    have h' := h
    rw [inMemory_iff] at h'
    exact ⟨by omega, by omega, by simp [withBytes, h]⟩

end Sys2Proof.Machine
end

