-- ==== Sys2Proof/Laws/Registers.lean ====
section
/-! SUPPORT. What loading many registers and storing many registers do, and the effective addresses. -/

namespace Sys2Proof.Machine

/-- Only the register file changes when registers are loaded. -/
theorem State.setRegs_eq (s : State) (k : Nat) (bs : List Byte) : s.setRegs k bs = { s with V := (s.setRegs k bs).V } := by
  induction bs generalizing s k with
  | nil => rfl
  | cons b bs ih =>
    simp only [State.setRegs]
    rw [ih]

/-- Register x after loading bytes from register k on: its byte when it is one of those, else as before. -/
theorem State.reg_setRegs (s : State) (k : Nat) (bs : List Byte) (x : RegIdx) :
    (s.setRegs k bs).reg x = if h : k ≤ x.val ∧ x.val < k + bs.length then bs[x.val - k] else s.reg x := by
  induction bs generalizing s k with
  | nil =>
    simp [State.setRegs]
  | cons b bs ih =>
    simp only [State.setRegs]
    rw [ih]
    simp only [State.reg, Fin.getElem_fin, List.length_cons]
    by_cases hx : x.val = k
    · subst hx
      simp
    · by_cases hr : k + 1 ≤ x.val ∧ x.val < k + 1 + bs.length
      · have h1 : k ≤ x.val ∧ x.val < k + (bs.length + 1) := by omega
        have h2 : x.val - k = (x.val - (k + 1)) + 1 := by omega
        simp [hr, h1, h2]
      · have h1 : ¬ (k ≤ x.val ∧ x.val < k + (bs.length + 1)) := by omega
        simp only [hr, h1, dite_false]
        rw [Vector.getElem_setIfInBounds]
        simp [Ne.symm hx]

/-! ### The other fields after loading registers -/

@[simp] theorem State.setRegs_I (s : State) (k : Nat) (bs : List Byte) : (s.setRegs k bs).I = s.I := by
  rw [State.setRegs_eq]
@[simp] theorem State.setRegs_pc (s : State) (k : Nat) (bs : List Byte) : (s.setRegs k bs).pc = s.pc := by
  rw [State.setRegs_eq]
@[simp] theorem State.setRegs_stack (s : State) (k : Nat) (bs : List Byte) : (s.setRegs k bs).stack = s.stack := by
  rw [State.setRegs_eq]
@[simp] theorem State.setRegs_sp (s : State) (k : Nat) (bs : List Byte) : (s.setRegs k bs).sp = s.sp := by
  rw [State.setRegs_eq]
@[simp] theorem State.setRegs_DT (s : State) (k : Nat) (bs : List Byte) : (s.setRegs k bs).DT = s.DT := by
  rw [State.setRegs_eq]
@[simp] theorem State.setRegs_ST (s : State) (k : Nat) (bs : List Byte) : (s.setRegs k bs).ST = s.ST := by
  rw [State.setRegs_eq]
@[simp] theorem State.setRegs_lastDelayTick (s : State) (k : Nat) (bs : List Byte) : (s.setRegs k bs).lastDelayTick = s.lastDelayTick := by
  rw [State.setRegs_eq]
@[simp] theorem State.setRegs_lastSoundTick (s : State) (k : Nat) (bs : List Byte) : (s.setRegs k bs).lastSoundTick = s.lastSoundTick := by
  rw [State.setRegs_eq]
@[simp] theorem State.setRegs_display (s : State) (k : Nat) (bs : List Byte) : (s.setRegs k bs).display = s.display := by
  rw [State.setRegs_eq]
@[simp] theorem State.setRegs_keys (s : State) (k : Nat) (bs : List Byte) : (s.setRegs k bs).keys = s.keys := by
  rw [State.setRegs_eq]
@[simp] theorem State.setRegs_currentOpcode (s : State) (k : Nat) (bs : List Byte) : (s.setRegs k bs).currentOpcode = s.currentOpcode := by
  rw [State.setRegs_eq]
@[simp] theorem State.setRegs_fault (s : State) (k : Nat) (bs : List Byte) : (s.setRegs k bs).fault = s.fault := by
  rw [State.setRegs_eq]
@[simp] theorem State.setRegs_mem (s : State) (k : Nat) (bs : List Byte) : (s.setRegs k bs).mem = s.mem := by
  rw [State.setRegs_eq]
@[simp] theorem State.setRegs_now (s : State) (k : Nat) (bs : List Byte) : (s.setRegs k bs).now = s.now := by
  rw [State.setRegs_eq]
@[simp] theorem State.setRegs_draw (s : State) (k : Nat) (bs : List Byte) : (s.setRegs k bs).draw = s.draw := by
  rw [State.setRegs_eq]
@[simp] theorem State.setRegs_tones (s : State) (k : Nat) (bs : List Byte) : (s.setRegs k bs).tones = s.tones := by
  rw [State.setRegs_eq]
@[simp] theorem State.setRegs_inputs (s : State) (k : Nat) (bs : List Byte) : (s.setRegs k bs).inputs = s.inputs := by
  rw [State.setRegs_eq]
@[simp] theorem State.setRegs_turn (s : State) (k : Nat) (bs : List Byte) : (s.setRegs k bs).turn = s.turn := by
  rw [State.setRegs_eq]
@[simp] theorem State.setRegs_cfg (s : State) (k : Nat) (bs : List Byte) : (s.setRegs k bs).cfg = s.cfg := by
  rw [State.setRegs_eq]
@[simp] theorem State.setRegs_peek (s : State) (k : Nat) (bs : List Byte) (q : Nat) : (s.setRegs k bs).peek q = s.peek q := by
  rw [State.setRegs_eq]; rfl
@[simp] theorem State.setRegs_pressed (s : State) (k : Nat) (bs : List Byte) (q : Key) : (s.setRegs k bs).pressed q = s.pressed q := by
  rw [State.setRegs_eq]; rfl

theorem State.regsUpTo_length (s : State) (x : RegIdx) : (s.regsUpTo x).length = x.val + 1 := by
  simp [State.regsUpTo]

theorem State.getElem_regsUpTo (s : State) (x : RegIdx) (k : Nat) (hk : k < (s.regsUpTo x).length) :
    (s.regsUpTo x)[k] = s.reg ⟨k, by rw [State.regsUpTo_length] at hk; omega⟩ := by
  simp [State.regsUpTo, State.reg]

theorem zext16_toNat (nnn : Addr12) : (zext16 nnn).toNat = nnn.toNat := by
  have := nnn.isLt
  simp [zext16]
  omega

theorem zextByte_toNat (b : Byte) : (zextByte b).toNat = b.toNat := by
  have := b.isLt
  simp [zextByte]
  omega

end Sys2Proof.Machine
end

