-- ==== Sys2Proof/Laws/Display.lean ====
section
/-! SUPPORT. The sprite engine: reading a cell after writing one, what XOR-ing a list of cells does, and which cells a sprite takes. -/

namespace Sys2Proof.Machine

theorem grid_getElem_set (d : Vector (Vector Bool 64) 32) (r r' : Fin 32) (c c' : Fin 64) (b : Bool) :
    (Vector.set d r.val (Vector.set d[r.val] c.val b))[r'.val][c'.val] = if (r, c) = (r', c') then b else d[r'.val][c'.val] := by
  by_cases hr : r = r'
  · subst hr
    by_cases hc : c = c'
    · subst hc; simp
    · have : c.val ≠ c'.val := fun h => hc (Fin.ext h)
      simp [hc, Vector.getElem_set_ne, this]
  · have : r.val ≠ r'.val := fun h => hr (Fin.ext h)
    simp [hr, Vector.getElem_set_ne, this]
theorem Display.get_set (d : Display) (p q : Cell) (b : Bool) :
    Display.get (Display.set d p b) q = if p = q then b else Display.get d q :=
  grid_getElem_set d p.1 q.1 p.2 q.2 b

/-- Two framebuffers whose cells agree are the same. -/
theorem Display.ext {d d' : Display} (h : ∀ c, Display.get d c = Display.get d' c) : d = d' := by
  apply Vector.ext
  intro r hr
  apply Vector.ext
  intro c hc
  exact h (⟨r, hr⟩, ⟨c, hc⟩)

@[simp] theorem Display.get_blank (c : Cell) : Display.get Display.blank c = false := by
  simp [Display.get, Display.blank]

/-- XOR-ing distinct cells flips exactly those, and the flag says whether one of them was set before. -/
theorem xorCells_spec (d : Display) (collided : Bool) (cells : List Cell) (h : cells.Nodup) :
    (∀ q, Display.get (xorCells d collided cells).1 q = (Display.get d q ^^ decide (q ∈ cells))) ∧
    (xorCells d collided cells).2 = (collided || cells.any fun p => Display.get d p) := by
  induction cells generalizing d collided with
  | nil => simp [xorCells]
  | cons p ps ih =>
    obtain ⟨hp, hps⟩ := List.nodup_cons.1 h
    obtain ⟨ih1, ih2⟩ := ih (Display.set d p (!Display.get d p)) (collided || Display.get d p) hps
    refine ⟨fun q => ?_, ?_⟩
    · simp only [xorCells]
      rw [ih1, Display.get_set]
      by_cases hpq : p = q
      · subst hpq
        simp [hp]
      · have : q ≠ p := fun h => hpq h.symm
        simp [hpq, this]
    · simp only [xorCells]
      rw [ih2, List.any_cons, Bool.or_assoc]
      congr 2
      rw [Bool.eq_iff_iff]
      simp only [List.any_eq_true]
      refine exists_congr fun q => and_congr_right fun hq => ?_
      have : p ≠ q := fun h => hp (h ▸ hq)
      rw [Display.get_set, if_neg this]

/-! ## The places of a sprite -/

theorem mem_rowPlaces (row : Byte) (r cx : Nat) (p : Nat × Nat) :
    p ∈ rowPlaces row r cx ↔ ∃ i, i < 8 ∧ spriteBit row i = true ∧ p = (r, cx + i) := by
  simp only [rowPlaces, List.mem_map, List.mem_filter, List.mem_range]
  constructor
  · rintro ⟨i, ⟨hi, hb⟩, rfl⟩
    exact ⟨i, hi, hb, rfl⟩
  · rintro ⟨i, hi, hb, rfl⟩
    exact ⟨i, ⟨hi, hb⟩, rfl⟩

theorem mem_spritePlaces (cx cy : Nat) (rows : List Byte) (p : Nat × Nat) :
    p ∈ spritePlaces cx cy rows ↔
      ∃ j, ∃ hj : j < rows.length, ∃ i, i < 8 ∧ spriteBit rows[j] i = true ∧ p = (cy + j, cx + i) := by
  induction rows generalizing cy with
  | nil => simp [spritePlaces]
  | cons row rows ih =>
    simp only [spritePlaces, List.mem_append, mem_rowPlaces, ih]
    constructor
    · rintro (⟨i, hi, hb, rfl⟩ | ⟨j, hj, i, hi, hb, rfl⟩)
      · exact ⟨0, by simp, i, hi, hb, by simp⟩
      · exact ⟨j + 1, by simpa using hj, i, hi, hb, by simp; omega⟩
    · rintro ⟨j, hj, i, hi, hb, rfl⟩
      cases j with
      | zero => exact .inl ⟨i, hi, hb, by simp⟩
      | succ j => exact .inr ⟨j, by simpa using hj, i, hi, hb, by simp; omega⟩

theorem rowPlaces_nodup (row : Byte) (r cx : Nat) : (rowPlaces row r cx).Nodup := by
  refine List.Nodup.map (fun a b h => ?_) (List.Nodup.filter _ List.nodup_range)
  simp only [Prod.mk.injEq, true_and] at h
  omega

theorem spritePlaces_nodup (cx cy : Nat) (rows : List Byte) : (spritePlaces cx cy rows).Nodup := by
  induction rows generalizing cy with
  | nil => simp [spritePlaces]
  | cons row rows ih =>
    refine List.Nodup.append (rowPlaces_nodup row cy cx) (ih (cy + 1)) fun p hp hq => ?_
    obtain ⟨i, -, -, rfl⟩ := (mem_rowPlaces _ _ _ _).1 hp
    obtain ⟨j, _, i', -, -, h⟩ := (mem_spritePlaces _ _ _ _).1 hq
    simp only [Prod.mk.injEq] at h
    omega

/-! ## Places and cells -/

/-- A list of cells is what `cellsAt` gives for their places, and for nothing else. -/
theorem cellsAt_eq_some (ps : List (Nat × Nat)) (cs : List Cell) :
    cellsAt ps = some cs ↔ ps = cs.map fun c => (c.1.val, c.2.val) := by
  induction ps generalizing cs with
  | nil => cases cs <;> simp [cellsAt]
  | cons p ps ih =>
    cases cs with
    | nil =>
      simp only [cellsAt]
      split <;> simp
    | cons c cs =>
      simp only [cellsAt, List.map_cons, List.cons.injEq, ← ih]
      obtain ⟨r, q⟩ := p
      by_cases h : r < 32 ∧ q < 64
      · simp only [cellAt, h, and_self, dite_true]
        cases hps : cellsAt ps with
        | none => simp
        | some l =>
          simp only [Option.some.injEq, List.cons.injEq, and_congr_left_iff]
          intro _
          constructor
          · rintro rfl; rfl
          · intro hh
            simp only [Prod.mk.injEq] at hh
            exact Prod.ext (Fin.ext hh.1) (Fin.ext hh.2)
      · have : cellAt (r, q) = none := by simp only [cellAt]; exact dif_neg h
        rw [this]
        simp only [reduceCtorEq, Prod.mk.injEq, false_iff, not_and]
        rintro ⟨rfl, rfl⟩
        exact absurd ⟨c.1.isLt, c.2.isLt⟩ h

theorem cellsAt_eq_none (ps : List (Nat × Nat)) :
    cellsAt ps = none ↔ ∃ p ∈ ps, ¬ (p.1 < 32 ∧ p.2 < 64) := by
  induction ps with
  | nil => simp [cellsAt]
  | cons p ps ih =>
    simp only [cellsAt, List.mem_cons, exists_eq_or_imp, ← ih]
    by_cases h : p.1 < 32 ∧ p.2 < 64
    · simp only [cellAt, h, and_self, dite_true, not_true, false_or]
      cases cellsAt ps <;> simp
    · have : cellAt p = none := by simp only [cellAt]; exact dif_neg h
      rw [this]
      simp [h]

/-- The cells of a sprite: all of them on the grid, all distinct, and each the place of a set bit. -/
theorem cellsAt_sprite {cx cy : Nat} {rows : List Byte} {cs : List Cell} (h : cellsAt (spritePlaces cx cy rows) = some cs) :
    cs.Nodup ∧ ∀ c : Cell, c ∈ cs ↔
      ∃ j, ∃ hj : j < rows.length, ∃ i, i < 8 ∧ spriteBit rows[j] i = true ∧ c.1.val = cy + j ∧ c.2.val = cx + i := by
  have hp := (cellsAt_eq_some _ _).1 h
  constructor
  · have := spritePlaces_nodup cx cy rows
    rw [hp] at this
    exact List.Nodup.of_map _ this
  · intro c
    have : c ∈ cs ↔ (c.1.val, c.2.val) ∈ spritePlaces cx cy rows := by
      rw [hp, List.mem_map]
      constructor
      · exact fun hc => ⟨c, hc, rfl⟩
      · rintro ⟨c', hc', he⟩
        simp only [Prod.mk.injEq] at he
        have : c' = c := Prod.ext (Fin.ext he.1) (Fin.ext he.2)
        exact this ▸ hc'
    rw [this, mem_spritePlaces]
    simp only [Prod.mk.injEq]

end Sys2Proof.Machine
end

