-- ==== Sys2Proof/Laws/Cycle.lean ====
section
/-! SUPPORT. What the timer tick, the host's turn and a step can do, said once; and what each meaning that can stop does. -/

namespace Sys2Proof.Machine

/-! ## The timer tick -/

theorem periodOver_iff (s : State) (last : Nat) : periodOver s last = true ↔ last + s.cfg.timerPeriod ≤ s.now := by
  simp [periodOver]

/-- Everything the delay half of the tick can do. -/
theorem delayTick_cases (s : State) :
    ((s.DT = 0 ∨ s.now < s.lastDelayTick + s.cfg.timerPeriod) ∧ delayTick s = s) ∨
    (s.DT ≠ 0 ∧ s.lastDelayTick + s.cfg.timerPeriod ≤ s.now ∧
      delayTick s = { s with DT := s.DT - 1, lastDelayTick := s.now }) := by
  unfold delayTick
  split
  · rename_i h
    simp only [Bool.and_eq_true, bne_iff_ne, periodOver_iff] at h
    exact .inr ⟨h.1, h.2, rfl⟩
  · rename_i h
    simp only [Bool.and_eq_true, bne_iff_ne, periodOver_iff, not_and, not_le] at h
    refine .inl ⟨?_, rfl⟩
    by_cases hd : s.DT = 0
    · exact .inl hd
    · exact .inr (h hd)

/-- Everything the sound half of the tick can do. -/
theorem soundTick_cases (s : State) :
    ((s.ST = 0 ∨ s.now < s.lastSoundTick + s.cfg.timerPeriod) ∧ soundTick s = s) ∨
    (s.ST ≠ 0 ∧ s.lastSoundTick + s.cfg.timerPeriod ≤ s.now ∧
      soundTick s = { s with ST := s.ST - 1, lastSoundTick := s.now, tones := s.tones + 1 }) := by
  unfold soundTick
  split
  · rename_i h
    simp only [Bool.and_eq_true, bne_iff_ne, periodOver_iff] at h
    exact .inr ⟨h.1, h.2, rfl⟩
  · rename_i h
    simp only [Bool.and_eq_true, bne_iff_ne, periodOver_iff, not_and, not_le] at h
    refine .inl ⟨?_, rfl⟩
    by_cases hd : s.ST = 0
    · exact .inl hd
    · exact .inr (h hd)

@[simp] theorem delayTick_V (s : State) : (delayTick s).V = s.V := by
  unfold delayTick; split <;> rfl
@[simp] theorem delayTick_I (s : State) : (delayTick s).I = s.I := by
  unfold delayTick; split <;> rfl
@[simp] theorem delayTick_pc (s : State) : (delayTick s).pc = s.pc := by
  unfold delayTick; split <;> rfl
@[simp] theorem delayTick_stack (s : State) : (delayTick s).stack = s.stack := by
  unfold delayTick; split <;> rfl
@[simp] theorem delayTick_sp (s : State) : (delayTick s).sp = s.sp := by
  unfold delayTick; split <;> rfl
@[simp] theorem delayTick_display (s : State) : (delayTick s).display = s.display := by
  unfold delayTick; split <;> rfl
@[simp] theorem delayTick_keys (s : State) : (delayTick s).keys = s.keys := by
  unfold delayTick; split <;> rfl
@[simp] theorem delayTick_currentOpcode (s : State) : (delayTick s).currentOpcode = s.currentOpcode := by
  unfold delayTick; split <;> rfl
@[simp] theorem delayTick_fault (s : State) : (delayTick s).fault = s.fault := by
  unfold delayTick; split <;> rfl
@[simp] theorem delayTick_mem (s : State) : (delayTick s).mem = s.mem := by
  unfold delayTick; split <;> rfl
@[simp] theorem delayTick_now (s : State) : (delayTick s).now = s.now := by
  unfold delayTick; split <;> rfl
@[simp] theorem delayTick_draw (s : State) : (delayTick s).draw = s.draw := by
  unfold delayTick; split <;> rfl
@[simp] theorem delayTick_inputs (s : State) : (delayTick s).inputs = s.inputs := by
  unfold delayTick; split <;> rfl
@[simp] theorem delayTick_turn (s : State) : (delayTick s).turn = s.turn := by
  unfold delayTick; split <;> rfl
@[simp] theorem delayTick_cfg (s : State) : (delayTick s).cfg = s.cfg := by
  unfold delayTick; split <;> rfl
@[simp] theorem delayTick_ST (s : State) : (delayTick s).ST = s.ST := by
  unfold delayTick; split <;> rfl
@[simp] theorem delayTick_lastSoundTick (s : State) : (delayTick s).lastSoundTick = s.lastSoundTick := by
  unfold delayTick; split <;> rfl
@[simp] theorem delayTick_tones (s : State) : (delayTick s).tones = s.tones := by
  unfold delayTick; split <;> rfl
@[simp] theorem soundTick_V (s : State) : (soundTick s).V = s.V := by
  unfold soundTick; split <;> rfl
@[simp] theorem soundTick_I (s : State) : (soundTick s).I = s.I := by
  unfold soundTick; split <;> rfl
@[simp] theorem soundTick_pc (s : State) : (soundTick s).pc = s.pc := by
  unfold soundTick; split <;> rfl
@[simp] theorem soundTick_stack (s : State) : (soundTick s).stack = s.stack := by
  unfold soundTick; split <;> rfl
@[simp] theorem soundTick_sp (s : State) : (soundTick s).sp = s.sp := by
  unfold soundTick; split <;> rfl
@[simp] theorem soundTick_display (s : State) : (soundTick s).display = s.display := by
  unfold soundTick; split <;> rfl
@[simp] theorem soundTick_keys (s : State) : (soundTick s).keys = s.keys := by
  unfold soundTick; split <;> rfl
@[simp] theorem soundTick_currentOpcode (s : State) : (soundTick s).currentOpcode = s.currentOpcode := by
  unfold soundTick; split <;> rfl
@[simp] theorem soundTick_fault (s : State) : (soundTick s).fault = s.fault := by
  unfold soundTick; split <;> rfl
@[simp] theorem soundTick_mem (s : State) : (soundTick s).mem = s.mem := by
  unfold soundTick; split <;> rfl
@[simp] theorem soundTick_now (s : State) : (soundTick s).now = s.now := by
  unfold soundTick; split <;> rfl
@[simp] theorem soundTick_draw (s : State) : (soundTick s).draw = s.draw := by
  unfold soundTick; split <;> rfl
@[simp] theorem soundTick_inputs (s : State) : (soundTick s).inputs = s.inputs := by
  unfold soundTick; split <;> rfl
@[simp] theorem soundTick_turn (s : State) : (soundTick s).turn = s.turn := by
  unfold soundTick; split <;> rfl
@[simp] theorem soundTick_cfg (s : State) : (soundTick s).cfg = s.cfg := by
  unfold soundTick; split <;> rfl
@[simp] theorem soundTick_DT (s : State) : (soundTick s).DT = s.DT := by
  unfold soundTick; split <;> rfl
@[simp] theorem soundTick_lastDelayTick (s : State) : (soundTick s).lastDelayTick = s.lastDelayTick := by
  unfold soundTick; split <;> rfl

/-- The two halves are independent (46_timers_keys.md R118): the sound half reads nothing that the delay half writes. -/
theorem soundTick_delayTick (s : State) :
    (soundTick (delayTick s)).ST = (soundTick s).ST ∧
    (soundTick (delayTick s)).lastSoundTick = (soundTick s).lastSoundTick ∧
    (soundTick (delayTick s)).tones = (soundTick s).tones := by
  have : periodOver (delayTick s) s.lastSoundTick = periodOver s s.lastSoundTick := by simp [periodOver]
  unfold soundTick
  simp only [delayTick_ST, delayTick_lastSoundTick, this]
  split <;> simp

@[simp] theorem timerTick_V (s : State) : (timerTick s).V = s.V := by simp [timerTick]
@[simp] theorem timerTick_I (s : State) : (timerTick s).I = s.I := by simp [timerTick]
@[simp] theorem timerTick_pc (s : State) : (timerTick s).pc = s.pc := by simp [timerTick]
@[simp] theorem timerTick_stack (s : State) : (timerTick s).stack = s.stack := by simp [timerTick]
@[simp] theorem timerTick_sp (s : State) : (timerTick s).sp = s.sp := by simp [timerTick]
@[simp] theorem timerTick_display (s : State) : (timerTick s).display = s.display := by simp [timerTick]
@[simp] theorem timerTick_keys (s : State) : (timerTick s).keys = s.keys := by simp [timerTick]
@[simp] theorem timerTick_currentOpcode (s : State) : (timerTick s).currentOpcode = s.currentOpcode := by simp [timerTick]
@[simp] theorem timerTick_fault (s : State) : (timerTick s).fault = s.fault := by simp [timerTick]
@[simp] theorem timerTick_mem (s : State) : (timerTick s).mem = s.mem := by simp [timerTick]
@[simp] theorem timerTick_now (s : State) : (timerTick s).now = s.now := by simp [timerTick]
@[simp] theorem timerTick_draw (s : State) : (timerTick s).draw = s.draw := by simp [timerTick]
@[simp] theorem timerTick_inputs (s : State) : (timerTick s).inputs = s.inputs := by simp [timerTick]
@[simp] theorem timerTick_turn (s : State) : (timerTick s).turn = s.turn := by simp [timerTick]
@[simp] theorem timerTick_cfg (s : State) : (timerTick s).cfg = s.cfg := by simp [timerTick]
@[simp] theorem timerTick_reg (s : State) (x : RegIdx) : (timerTick s).reg x = s.reg x := by simp [State.reg]
@[simp] theorem timerTick_peek (s : State) (a : Nat) : (timerTick s).peek a = s.peek a := by simp [State.peek]

@[simp] theorem endStep_V (s : State) : (endStep s).V = s.V := by simp [endStep]
@[simp] theorem endStep_I (s : State) : (endStep s).I = s.I := by simp [endStep]
@[simp] theorem endStep_pc (s : State) : (endStep s).pc = s.pc := by simp [endStep]
@[simp] theorem endStep_stack (s : State) : (endStep s).stack = s.stack := by simp [endStep]
@[simp] theorem endStep_sp (s : State) : (endStep s).sp = s.sp := by simp [endStep]
@[simp] theorem endStep_display (s : State) : (endStep s).display = s.display := by simp [endStep]
@[simp] theorem endStep_currentOpcode (s : State) : (endStep s).currentOpcode = s.currentOpcode := by simp [endStep]
@[simp] theorem endStep_fault (s : State) : (endStep s).fault = s.fault := by simp [endStep]
@[simp] theorem endStep_mem (s : State) : (endStep s).mem = s.mem := by simp [endStep]
@[simp] theorem endStep_cfg (s : State) : (endStep s).cfg = s.cfg := by simp [endStep]
@[simp] theorem endStep_DT (s : State) : (endStep s).DT = (timerTick s).DT := by simp [endStep]
@[simp] theorem endStep_ST (s : State) : (endStep s).ST = (timerTick s).ST := by simp [endStep]
@[simp] theorem endStep_lastDelayTick (s : State) : (endStep s).lastDelayTick = (timerTick s).lastDelayTick := by simp [endStep]
@[simp] theorem endStep_lastSoundTick (s : State) : (endStep s).lastSoundTick = (timerTick s).lastSoundTick := by simp [endStep]
@[simp] theorem endStep_tones (s : State) : (endStep s).tones = (timerTick s).tones := by simp [endStep]
@[simp] theorem endStep_reg (s : State) (x : RegIdx) : (endStep s).reg x = s.reg x := by simp [State.reg]
@[simp] theorem endStep_peek (s : State) (a : Nat) : (endStep s).peek a = s.peek a := by simp [State.peek]

/-- Time never goes back (60_exceptions.md R138). -/
theorem endStep_now (s : State) : (endStep s).now = s.now + (nextInput (timerTick s)).elapsed := by
  simp [endStep]

/-! ## The fetch -/

theorem fetchWord_eq_some (s : State) (w : Word) :
    fetchWord s = some w ↔ s.pc.toNat ≤ 0xFFE ∧ wordOfBytes (s.peek s.pc.toNat) (s.peek (s.pc.toNat + 1)) = w := by
  unfold fetchWord
  split
  · simp only [Option.some.injEq]
    exact ⟨fun h => ⟨by omega, h⟩, fun h => h.2⟩
  · simp only [reduceCtorEq, false_iff, not_and]
    omega

theorem fetchWord_eq_none (s : State) : fetchWord s = none ↔ 0xFFF ≤ s.pc.toNat := by
  unfold fetchWord
  split
  · simp only [reduceCtorEq, false_iff]
    omega
  · simp only [true_iff]
    omega

/-! ## The step -/

/-- Everything a step that goes on can have done: no fault stood, a word was fetched, its instruction went on, and the tick and the host's
turn followed. -/
theorem step_next {s t : State} (h : step s = .next t) :
    s.fault = none ∧ ∃ w u, fetchWord s = some w ∧ exec (decode w) (s.fetched w) = .next u ∧ t = endStep u := by
  unfold step at h
  split at h
  · simp at h
  · rename_i hf
    split at h
    · simp at h
    · rename_i w hw
      split at h
      · rename_i u hu
        simp only [Host.Outcome.next.injEq] at h
        exact ⟨hf, w, u, hw, hu, h.symm⟩
      · simp at h
      · simp at h

/-- Everything a step that faults can have met: its fault stood already, nothing could be fetched, or the instruction faulted. -/
theorem step_fault {s : State} {k : Fault} (h : step s = .fault k) :
    s.fault = some k ∨ (s.fault = none ∧ fetchWord s = none ∧ k = .fetchBounds) ∨
    (s.fault = none ∧ ∃ w, fetchWord s = some w ∧ exec (decode w) (s.fetched w) = .fault k) := by
  unfold step at h
  split at h
  · rename_i hf
    simp only [Host.Outcome.fault.injEq] at h
    exact .inl (h ▸ hf)
  · rename_i hf
    split at h
    · rename_i hw
      simp only [Host.Outcome.fault.injEq] at h
      exact .inr (.inl ⟨hf, hw, h.symm⟩)
    · rename_i w hw
      split at h
      · simp at h
      · rename_i hk
        simp only [Host.Outcome.fault.injEq] at h
        exact .inr (.inr ⟨hf, w, hw, h ▸ hk⟩)
      · simp at h

/-! ## The meanings that can stop -/

/-- Everything RET can do. -/
theorem execRet_cases (s : State) :
    (s.sp = 0 ∧ execRet s = .fault .stackUnderflow) ∨
    ∃ j : Fin 16, s.sp.val = j.val + 1 ∧
      execRet s = .next { s with sp := ⟨j.val, by omega⟩, pc := s.stack[j] + 2 } := by
  unfold execRet
  by_cases h : s.sp.val = 0
  · exact .inl ⟨Fin.ext h, by simp [h]⟩
  · refine .inr ⟨⟨s.sp.val - 1, by omega⟩, by simp only; omega, ?_⟩
    rw [dif_neg h]
    rfl

/-- Everything CALL can do. -/
theorem execCall_cases (nnn : Addr12) (s : State) :
    (s.sp.val = 16 ∧ execCall nnn s = .fault .stackOverflow) ∨
    ∃ h : s.sp.val < 16,
      execCall nnn s = .next { s with stack := s.stack.set s.sp.val s.pc h, sp := ⟨s.sp.val + 1, by omega⟩, pc := zext16 nnn } := by
  unfold execCall
  by_cases h : s.sp.val < 16
  · exact .inr ⟨h, by rw [dif_pos h]; rfl⟩
  · exact .inl ⟨by omega, by rw [dif_neg h]⟩

/-- A register names a key exactly when its value is at most 15. -/
theorem keyOf_cases (b : Byte) : (15 < b.toNat ∧ keyOf b = none) ∨ ∃ k : Key, k.val = b.toNat ∧ keyOf b = some k := by
  unfold keyOf
  by_cases h : b.toNat < 16
  · exact .inr ⟨⟨b.toNat, h⟩, rfl, by rw [dif_pos h]⟩
  · exact .inl ⟨by omega, by rw [dif_neg h]⟩

/-- Everything the key wait can do: there is always a next state. -/
theorem execLdVxK_cases (x : RegIdx) (s : State) :
    (s.scanKeys = none ∧ execLdVxK x s = .next s) ∨
    ∃ k, s.scanKeys = some k ∧ execLdVxK x s = .next (s.setReg x (BitVec.ofNat 8 k.val)).advance := by
  unfold execLdVxK
  cases h : s.scanKeys with
  | none => exact .inl ⟨rfl, rfl⟩
  | some k => exact .inr ⟨k, rfl, rfl⟩

/-- Everything DRW can do. -/
theorem execDrw_cases (x y : RegIdx) (n : BitVec 4) (s : State) :
    (n.toNat ≠ 0 ∧ 4096 < s.effAddr 0 + n.toNat ∧ execDrw x y n s = .fault .memBounds) ∨
    ((n.toNat = 0 ∨ s.effAddr 0 + n.toNat ≤ 4096) ∧
      ((cellsAt (spritePlaces (s.reg x).toNat (s.reg y).toNat (s.peekMany (s.effAddr 0) n.toNat)) = none ∧
          execDrw x y n s = .fault .displayBounds) ∨
        ∃ cells, cellsAt (spritePlaces (s.reg x).toNat (s.reg y).toNat (s.peekMany (s.effAddr 0) n.toNat)) = some cells ∧
          execDrw x y n s = .next ({ s with display := (xorCells s.display false cells).1 }.setVF
            (flagByte (xorCells s.display false cells).2)).advance)) := by
  unfold execDrw withBytes
  by_cases h : inMemory (s.effAddr 0) n.toNat = true
  · rw [if_pos h]
    refine .inr ⟨(inMemory_iff _ _).1 h, ?_⟩
    cases hc : cellsAt (spritePlaces (s.reg x).toNat (s.reg y).toNat (s.peekMany (s.effAddr 0) n.toNat)) with
    | none => exact .inl ⟨rfl, by simp only [hc]⟩
    | some cells => exact .inr ⟨cells, rfl, by simp only [hc]⟩
  · rw [if_neg h]
    have h' := h
    rw [inMemory_iff] at h'
    exact .inl ⟨by omega, by omega, rfl⟩

end Sys2Proof.Machine
end

