-- ==== Sys2Proof/Laws/Decode.lean ====
section
/-! SUPPORT. The fields of a word and of a packed word, the masks of the opcode map as conditions on fields, and the bytes of a word. -/

namespace Sys2Proof

/-! ## Fields as numbers -/

theorem fieldOp_toNat (w : Word) : (fieldOp w).toNat = w.toNat / 4096 := by
  have := w.isLt
  simp [fieldOp, BitVec.extractLsb'_toNat, Nat.shiftRight_eq_div_pow]
  omega

theorem fieldX_val (w : Word) : (fieldX w).val = w.toNat / 256 % 16 := by
  show (w.extractLsb' 8 4).toNat = _
  simp [BitVec.extractLsb'_toNat, Nat.shiftRight_eq_div_pow]

theorem fieldY_val (w : Word) : (fieldY w).val = w.toNat / 16 % 16 := by
  show (w.extractLsb' 4 4).toNat = _
  simp [BitVec.extractLsb'_toNat, Nat.shiftRight_eq_div_pow]

theorem fieldN_toNat (w : Word) : (fieldN w).toNat = w.toNat % 16 := by
  simp [fieldN, BitVec.extractLsb'_toNat]

theorem fieldKK_toNat (w : Word) : (fieldKK w).toNat = w.toNat % 256 := by
  simp [fieldKK, BitVec.extractLsb'_toNat]

theorem fieldNNN_toNat (w : Word) : (fieldNNN w).toNat = w.toNat % 4096 := by
  simp [fieldNNN, BitVec.extractLsb'_toNat]

/-! ## Packed words as numbers -/

theorem toNat_packNNN (op : BitVec 4) (nnn : Addr12) : (packNNN op nnn).toNat = op.toNat * 4096 + nnn.toNat := by
  simp only [packNNN, BitVec.toNat_append]
  rw [← Nat.shiftLeft_add_eq_or_of_lt nnn.isLt]
  simp [Nat.shiftLeft_eq]

theorem toNat_packXKK (op : BitVec 4) (x : RegIdx) (kk : Byte) :
    (packXKK op x kk).toNat = op.toNat * 4096 + x.val * 256 + kk.toNat := by
  simp only [packXKK, BitVec.toNat_append]
  rw [← Nat.shiftLeft_add_eq_or_of_lt kk.isLt, ← Nat.shiftLeft_add_eq_or_of_lt (by simp)]
  simp [Nat.shiftLeft_eq]
  omega

theorem toNat_packXYN (op : BitVec 4) (x y : RegIdx) (n : BitVec 4) :
    (packXYN op x y n).toNat = op.toNat * 4096 + x.val * 256 + y.val * 16 + n.toNat := by
  have := n.isLt
  have := y.isLt
  have hyn : ((BitVec.ofFin y : BitVec 4) ++ n).toNat = y.val * 16 + n.toNat := by
    rw [BitVec.toNat_append, ← Nat.shiftLeft_add_eq_or_of_lt n.isLt]
    simp [Nat.shiftLeft_eq]
  simp only [packXYN]
  rw [BitVec.toNat_append, hyn, ← Nat.shiftLeft_add_eq_or_of_lt (by omega), BitVec.toNat_append,
    ← Nat.shiftLeft_add_eq_or_of_lt (by simp)]
  simp [Nat.shiftLeft_eq]
  omega

/-! ## The fields of a packed word -/

@[simp] theorem fieldOp_packNNN (op : BitVec 4) (nnn : Addr12) : fieldOp (packNNN op nnn) = op := by
  have := nnn.isLt
  apply BitVec.eq_of_toNat_eq; rw [fieldOp_toNat, toNat_packNNN]; omega

@[simp] theorem fieldNNN_packNNN (op : BitVec 4) (nnn : Addr12) : fieldNNN (packNNN op nnn) = nnn := by
  have := nnn.isLt
  apply BitVec.eq_of_toNat_eq; rw [fieldNNN_toNat, toNat_packNNN]; omega

@[simp] theorem fieldOp_packXKK (op : BitVec 4) (x : RegIdx) (kk : Byte) : fieldOp (packXKK op x kk) = op := by
  have := kk.isLt
  apply BitVec.eq_of_toNat_eq; rw [fieldOp_toNat, toNat_packXKK]; omega

@[simp] theorem fieldX_packXKK (op : BitVec 4) (x : RegIdx) (kk : Byte) : fieldX (packXKK op x kk) = x := by
  have := kk.isLt
  apply Fin.ext; rw [fieldX_val, toNat_packXKK]; omega

@[simp] theorem fieldKK_packXKK (op : BitVec 4) (x : RegIdx) (kk : Byte) : fieldKK (packXKK op x kk) = kk := by
  have := kk.isLt
  apply BitVec.eq_of_toNat_eq; rw [fieldKK_toNat, toNat_packXKK]; omega

@[simp] theorem fieldOp_packXYN (op : BitVec 4) (x y : RegIdx) (n : BitVec 4) : fieldOp (packXYN op x y n) = op := by
  have := n.isLt
  apply BitVec.eq_of_toNat_eq; rw [fieldOp_toNat, toNat_packXYN]; omega

@[simp] theorem fieldX_packXYN (op : BitVec 4) (x y : RegIdx) (n : BitVec 4) : fieldX (packXYN op x y n) = x := by
  have := n.isLt
  apply Fin.ext; rw [fieldX_val, toNat_packXYN]; omega

@[simp] theorem fieldY_packXYN (op : BitVec 4) (x y : RegIdx) (n : BitVec 4) : fieldY (packXYN op x y n) = y := by
  have := n.isLt
  apply Fin.ext; rw [fieldY_val, toNat_packXYN]; omega

@[simp] theorem fieldN_packXYN (op : BitVec 4) (x y : RegIdx) (n : BitVec 4) : fieldN (packXYN op x y n) = n := by
  have := n.isLt
  apply BitVec.eq_of_toNat_eq; rw [fieldN_toNat, toNat_packXYN]; omega

/-! ## A word is the packing of its fields -/

theorem packNNN_fields (w : Word) : packNNN (fieldOp w) (fieldNNN w) = w := by
  apply BitVec.eq_of_toNat_eq; rw [toNat_packNNN, fieldOp_toNat, fieldNNN_toNat]; omega

theorem packXKK_fields (w : Word) : packXKK (fieldOp w) (fieldX w) (fieldKK w) = w := by
  apply BitVec.eq_of_toNat_eq; rw [toNat_packXKK, fieldOp_toNat, fieldX_val, fieldKK_toNat]; omega

theorem packXYN_fields (w : Word) : packXYN (fieldOp w) (fieldX w) (fieldY w) (fieldN w) = w := by
  apply BitVec.eq_of_toNat_eq; rw [toNat_packXYN, fieldOp_toNat, fieldX_val, fieldY_val, fieldN_toNat]; omega

/-! ## The masks of the opcode map, as conditions on fields -/

theorem append_inj_parts {n m : Nat} (a b : BitVec n) (c d : BitVec m) (h : a ++ c = b ++ d) : a = b ∧ c = d := by
  constructor
  · have := congrArg (fun v : BitVec (n + m) => v.extractLsb' m n) h
    simpa [BitVec.extractLsb'_append_eq_left] using this
  · have := congrArg (fun v : BitVec (n + m) => v.extractLsb' 0 m) h
    simpa [BitVec.extractLsb'_append_eq_right] using this

theorem and_F000 (w : Word) : w &&& 0xF000 = fieldOp w ++ 0#12 := by
  ext i hi
  simp only [BitVec.getElem_and, BitVec.getElem_append, fieldOp, BitVec.getElem_extractLsb']
  interval_cases i <;> simp

theorem and_F00F (w : Word) : w &&& 0xF00F = fieldOp w ++ 0#8 ++ fieldN w := by
  ext i hi
  simp only [BitVec.getElem_and, BitVec.getElem_append, fieldOp, fieldN, BitVec.getElem_extractLsb']
  interval_cases i <;> simp

theorem and_F0FF (w : Word) : w &&& 0xF0FF = fieldOp w ++ 0#4 ++ fieldKK w := by
  ext i hi
  simp only [BitVec.getElem_and, BitVec.getElem_append, fieldOp, fieldKK, BitVec.getElem_extractLsb']
  interval_cases i <;> simp

/-- A row with mask 0xF000 selects by the top nibble. -/
theorem mask_F000 (w : Word) (op : BitVec 4) : w &&& 0xF000 = op ++ 0#12 ↔ fieldOp w = op := by
  rw [and_F000]
  exact ⟨fun h => (append_inj_parts _ _ _ _ h).1, fun h => by rw [h]⟩

/-- A row with mask 0xF00F selects by the top nibble and n. -/
theorem mask_F00F (w : Word) (op n : BitVec 4) : w &&& 0xF00F = op ++ 0#8 ++ n ↔ fieldOp w = op ∧ fieldN w = n := by
  rw [and_F00F]
  refine ⟨fun h => ?_, fun h => by rw [h.1, h.2]⟩
  obtain ⟨h1, h2⟩ := append_inj_parts _ _ _ _ h
  exact ⟨(append_inj_parts _ _ _ _ h1).1, h2⟩

/-- A row with mask 0xF0FF selects by the top nibble and kk. -/
theorem mask_F0FF (w : Word) (op : BitVec 4) (kk : Byte) :
    w &&& 0xF0FF = op ++ 0#4 ++ kk ↔ fieldOp w = op ∧ fieldKK w = kk := by
  rw [and_F0FF]
  refine ⟨fun h => ?_, fun h => by rw [h.1, h.2]⟩
  obtain ⟨h1, h2⟩ := append_inj_parts _ _ _ _ h
  exact ⟨(append_inj_parts _ _ _ _ h1).1, h2⟩

/-! ## Bytes -/

theorem wordOfBytes_toNat (hi lo : Byte) : (wordOfBytes hi lo).toNat = hi.toNat * 256 + lo.toNat := by
  rw [wordOfBytes, BitVec.toNat_append, ← Nat.shiftLeft_add_eq_or_of_lt lo.isLt]
  simp [Nat.shiftLeft_eq]

/-- The two bytes of a word, put together, are the word. -/
theorem wordOfBytes_bytesOfWord (w : Word) : wordOfBytes (w.extractLsb' 8 8) (w.extractLsb' 0 8) = w := by
  have := w.isLt
  apply BitVec.eq_of_toNat_eq
  rw [wordOfBytes_toNat]
  simp [BitVec.extractLsb'_toNat, Nat.shiftRight_eq_div_pow]
  omega

/-! ## The decoder, arm by arm: what it answers once the fields it dispatches on are known -/

theorem decode_op0 {w : Word} (h : fieldOp w = 0x0) : decode w = decode0 w := by simp [decode, h]
theorem decode_op1 {w : Word} (h : fieldOp w = 0x1) : decode w = .jp (fieldNNN w) := by simp [decode, h]
theorem decode_op2 {w : Word} (h : fieldOp w = 0x2) : decode w = .call (fieldNNN w) := by simp [decode, h]
theorem decode_op3 {w : Word} (h : fieldOp w = 0x3) : decode w = .seImm (fieldX w) (fieldKK w) := by simp [decode, h]
theorem decode_op4 {w : Word} (h : fieldOp w = 0x4) : decode w = .sneImm (fieldX w) (fieldKK w) := by simp [decode, h]
theorem decode_op5 {w : Word} (h : fieldOp w = 0x5) :
    decode w = if fieldN w = 0 then .seReg (fieldX w) (fieldY w) else .undefined w := by simp [decode, h]
theorem decode_op6 {w : Word} (h : fieldOp w = 0x6) : decode w = .ldImm (fieldX w) (fieldKK w) := by simp [decode, h]
theorem decode_op7 {w : Word} (h : fieldOp w = 0x7) : decode w = .addImm (fieldX w) (fieldKK w) := by simp [decode, h]
theorem decode_op8 {w : Word} (h : fieldOp w = 0x8) : decode w = decode8 w := by simp [decode, h]
theorem decode_op9 {w : Word} (h : fieldOp w = 0x9) :
    decode w = if fieldN w = 0 then .sneReg (fieldX w) (fieldY w) else .undefined w := by simp [decode, h]
theorem decode_opA {w : Word} (h : fieldOp w = 0xA) : decode w = .ldI (fieldNNN w) := by simp [decode, h]
theorem decode_opB {w : Word} (h : fieldOp w = 0xB) : decode w = .jpV0 (fieldNNN w) := by simp [decode, h]
theorem decode_opC {w : Word} (h : fieldOp w = 0xC) : decode w = .rnd (fieldX w) (fieldKK w) := by simp [decode, h]
theorem decode_opD {w : Word} (h : fieldOp w = 0xD) : decode w = .drw (fieldX w) (fieldY w) (fieldN w) := by simp [decode, h]
theorem decode_opE {w : Word} (h : fieldOp w = 0xE) : decode w = decodeE w := by simp [decode, h]
theorem decode_opF {w : Word} (h : fieldOp w = 0xF) : decode w = decodeF w := by simp [decode, h]

/-- The top nibble is one of sixteen. -/
theorem fieldOp_cases (w : Word) :
    fieldOp w = 0x0 ∨ fieldOp w = 0x1 ∨ fieldOp w = 0x2 ∨ fieldOp w = 0x3 ∨ fieldOp w = 0x4 ∨ fieldOp w = 0x5 ∨
    fieldOp w = 0x6 ∨ fieldOp w = 0x7 ∨ fieldOp w = 0x8 ∨ fieldOp w = 0x9 ∨ fieldOp w = 0xA ∨ fieldOp w = 0xB ∨
    fieldOp w = 0xC ∨ fieldOp w = 0xD ∨ fieldOp w = 0xE ∨ fieldOp w = 0xF := by
  generalize fieldOp w = b
  revert b
  decide

end Sys2Proof
end

