-- ==== Sys2Proof/Laws/Frames.lean ====
section
/-! SUPPORT. Frames of the shared operations, and what a whole store, load or draw leaves. -/

namespace Sys2Proof.Machine

/-- Storing bytes and advancing changes pc and those bytes only. -/
theorem pokeMany_frame (s : State) (a : Nat) (bs : List Byte) :
    UnchangedBut (fun p => p = .pc ∨ ∃ k, k < bs.length ∧ p = .byte (a + k)) s (s.pokeMany a bs).advance := by
  intro p hp
  cases p with
  | byte q =>
    refine State.pokeMany_peek_outside s a bs q ?_
    by_contra hc
    exact hp (.inr ⟨q - a, by omega, by congr 1; omega⟩)
  | pc => exact absurd (.inl rfl) hp
  | _ => clear hp; simp [Part.same]

/-- Loading registers from V0 on and advancing changes pc and those registers only. -/
theorem setRegs_frame (s : State) (bs : List Byte) :
    UnchangedBut (fun p => p = .pc ∨ ∃ r : RegIdx, r.val < bs.length ∧ p = .V r) s (s.setRegs 0 bs).advance := by
  intro p hp
  cases p with
  | V r =>
    show (s.setRegs 0 bs).reg r = s.reg r
    rw [State.reg_setRegs, dif_neg]
    exact fun hc => hp (.inr ⟨r, by omega, rfl⟩)
  | pc => exact absurd (.inl rfl) hp
  | _ => clear hp; rw [State.setRegs_eq]; rfl

/-- Writing one register and advancing changes pc and that register only. -/
theorem setReg_frame (s : State) (x : RegIdx) (b : Byte) :
    UnchangedBut (fun p => p = .pc ∨ p = .V x) s (s.setReg x b).advance := by
  intro p hp
  cases p with
  | pc => simp at hp
  | V r =>
    have : x.val ≠ r.val := fun h => hp (.inr (by rw [Fin.ext h]))
    show (s.V.set x b)[r.val] = s.V[r.val]
    rw [Vector.getElem_set_ne _ _ this]
  | _ => rfl

/-- A smaller frame is a frame. -/
theorem UnchangedBut.mono {may may' : Part → Prop} {s t : State} (h : UnchangedBut may s t) (hm : ∀ p, may p → may' p) :
    UnchangedBut may' s t := fun p hp => h p fun hc => hp (hm p hc)

theorem UnchangedBut.trans {may : Part → Prop} {s t u : State} (h : UnchangedBut may s t) (h' : UnchangedBut may t u) :
    UnchangedBut may s u := fun p hp => by
  have h1 := h p hp
  have h2 := h' p hp
  cases p <;> exact Eq.trans h2 h1

/-- The effective addresses are consecutive. -/
theorem State.effAddr_add (s : State) (k : Nat) : s.effAddr k = s.effAddr 0 + k := by simp [State.effAddr]

/-! ## The timer tick -/

/-- What the tick does to the delay timer (46_timers_keys.md R117). -/
theorem timerTick_delay (s : State) :
    ((0 < s.DT.toNat ∧ s.lastDelayTick + s.cfg.timerPeriod ≤ s.now) →
      (timerTick s).DT.toNat = s.DT.toNat - 1 ∧ (timerTick s).lastDelayTick = s.now) ∧
    (¬ (0 < s.DT.toNat ∧ s.lastDelayTick + s.cfg.timerPeriod ≤ s.now) →
      (timerTick s).DT = s.DT ∧ (timerTick s).lastDelayTick = s.lastDelayTick) := by
  simp only [timerTick, soundTick_DT, soundTick_lastDelayTick]
  have e : (0 < s.DT.toNat) ↔ s.DT ≠ 0 := by
    rw [Nat.pos_iff_ne_zero, ne_eq, ne_eq]
    rw [← BitVec.toNat_inj]; simp
  simp only [delayTick]
  split
  · rename_i h
    simp [periodOver_iff] at h
    refine ⟨fun _ => ⟨?_, rfl⟩, fun hh => absurd ⟨e.2 h.1, h.2⟩ hh⟩
    have := e.2 h.1
    have h2 := s.DT.isLt
    simp only
    bv_omega
  · rename_i h
    simp [periodOver_iff] at h
    refine ⟨fun hh => ?_, fun _ => ⟨rfl, rfl⟩⟩
    have := h (e.1 hh.1); omega

/-- What the tick does to the sound timer and the tones (R118, R119). -/
theorem timerTick_sound (s : State) :
    ((0 < s.ST.toNat ∧ s.lastSoundTick + s.cfg.timerPeriod ≤ s.now) →
      (timerTick s).ST.toNat = s.ST.toNat - 1 ∧ (timerTick s).lastSoundTick = s.now ∧ (timerTick s).tones = s.tones + 1) ∧
    (¬ (0 < s.ST.toNat ∧ s.lastSoundTick + s.cfg.timerPeriod ≤ s.now) →
      (timerTick s).ST = s.ST ∧ (timerTick s).lastSoundTick = s.lastSoundTick ∧ (timerTick s).tones = s.tones) := by
  have e : (0 < s.ST.toNat) ↔ s.ST ≠ 0 := by
    rw [Nat.pos_iff_ne_zero, ne_eq, ne_eq]
    rw [← BitVec.toNat_inj]; simp
  simp only [timerTick, soundTick]
  split
  · rename_i h
    simp [periodOver_iff] at h
    refine ⟨fun _ => ⟨?_, by simp, by simp⟩, fun hh => absurd ⟨e.2 h.1, h.2⟩ hh⟩
    have := e.2 h.1
    have h2 := s.ST.isLt
    simp only [delayTick_ST]
    bv_omega
  · rename_i h
    simp [periodOver_iff] at h
    refine ⟨fun hh => ?_, fun _ => by simp⟩
    have := h (e.1 hh.1); omega

/-! ## Sprites -/

/-- The cells a sprite draws on are the cells of its set bits. -/
theorem mem_sprite_cells (s : State) (x y : RegIdx) (n : BitVec 4) {cs : List Cell}
   (h : cellsAt (spritePlaces (s.reg x).toNat (s.reg y).toNat (s.peekMany (s.effAddr 0) n.toNat)) = some cs) (c : Cell) :
   c ∈ cs ↔ spritePixel s x y n.toNat c.1.val c.2.val = true := by
  rw [(cellsAt_sprite h).2]
  simp only [spritePixel, Bool.and_eq_true, decide_eq_true_eq, State.peekMany_length, State.getElem_peekMany, spriteBit]
  constructor
  · rintro ⟨j, hj, i, hi, hb, h1, h2⟩
    refine ⟨⟨⟨⟨by omega, by omega⟩, by omega⟩, by omega⟩, ?_⟩
    have e1 : c.1.val - (s.reg y).toNat = j := by omega
    have e2 : c.2.val - (s.reg x).toNat = i := by omega
    rw [e1, e2, s.effAddr_add j]; exact hb
  · rintro ⟨⟨⟨⟨h1, h2⟩, h3⟩, h4⟩, hb⟩
    refine ⟨c.1.val - (s.reg y).toNat, by omega, c.2.val - (s.reg x).toNat, by omega, ?_, by omega, by omega⟩
    rw [← s.effAddr_add]; exact hb

/-- A sprite has a set bit off the grid exactly when its cells cannot be had. -/
theorem sprite_off_grid_iff (s : State) (x y : RegIdx) (n : BitVec 4) :
   cellsAt (spritePlaces (s.reg x).toNat (s.reg y).toNat (s.peekMany (s.effAddr 0) n.toNat)) = none ↔
      ∃ j i, j < n.toNat ∧ i < 8 ∧ (s.peek (s.effAddr j)).getLsbD (7 - i) = true ∧
        (31 < (s.reg y).toNat + j ∨ 63 < (s.reg x).toNat + i) := by
  rw [cellsAt_eq_none]
  constructor
  · rintro ⟨p, hp, hn⟩
    rw [mem_spritePlaces] at hp
    obtain ⟨j, hj, i, hi, hb, rfl⟩ := hp
    simp only [State.peekMany_length] at hj
    refine ⟨j, i, hj, hi, ?_, ?_⟩
    · rw [State.getElem_peekMany, ← s.effAddr_add] at hb; exact hb
    · simp only at hn; omega
  · rintro ⟨j, i, hj, hi, hb, ho⟩
    refine ⟨((s.reg y).toNat + j, (s.reg x).toNat + i), ?_, ?_⟩
    · rw [mem_spritePlaces]
      refine ⟨j, by simpa using hj, i, hi, ?_, rfl⟩
      rw [State.getElem_peekMany, ← s.effAddr_add]; exact hb
    · simp only; omega

end Sys2Proof.Machine
end

