-- ==== Sys2Proof/Laws/PerInstr.lean ====
section
/-! SUPPORT. The family Encoding: the word of each instruction is selected by its own row of the opcode map (30_encoding.md R59). -/

/-- The row with the instruction's mnemonic selects the instruction's word; an undefined word has no row. -/
def Sys2Proof.Laws.Encoding.Statement (i : Sys2Proof.Instr) : Prop :=
  i.mnemonic = "(undefined)" ∨
    ∃ r ∈ Sys2Proof.opcodeMap, r.mnemonic = i.mnemonic ∧ Sys2Proof.encode i &&& r.mask = r.pattern

theorem Sys2Proof.Laws.Encoding.cls :
    Sys2Proof.Laws.Encoding.Statement (.cls) :=
  .inr ⟨⟨0x00E0, 0xFFFF, .O, "CLS"⟩, by decide, rfl, rfl⟩
theorem Sys2Proof.Laws.Encoding.ret :
    Sys2Proof.Laws.Encoding.Statement (.ret) :=
  .inr ⟨⟨0x00EE, 0xFFFF, .O, "RET"⟩, by decide, rfl, rfl⟩
theorem Sys2Proof.Laws.Encoding.sys (nnn : Sys2Proof.Addr12) :
    Sys2Proof.Laws.Encoding.Statement (.sys nnn) :=
  .inr ⟨⟨0x0000, 0xF000, .NNN, "SYS_nnn"⟩, by decide, rfl, (Sys2Proof.mask_F000 _ 0x0).2 (by simp [Sys2Proof.encode])⟩
theorem Sys2Proof.Laws.Encoding.jp (nnn : Sys2Proof.Addr12) :
    Sys2Proof.Laws.Encoding.Statement (.jp nnn) :=
  .inr ⟨⟨0x1000, 0xF000, .NNN, "JP_nnn"⟩, by decide, rfl, (Sys2Proof.mask_F000 _ 0x1).2 (by simp [Sys2Proof.encode])⟩
theorem Sys2Proof.Laws.Encoding.call (nnn : Sys2Proof.Addr12) :
    Sys2Proof.Laws.Encoding.Statement (.call nnn) :=
  .inr ⟨⟨0x2000, 0xF000, .NNN, "CALL_nnn"⟩, by decide, rfl, (Sys2Proof.mask_F000 _ 0x2).2 (by simp [Sys2Proof.encode])⟩
theorem Sys2Proof.Laws.Encoding.seImm (x : Sys2Proof.RegIdx) (kk : Sys2Proof.Byte) :
    Sys2Proof.Laws.Encoding.Statement (.seImm x kk) :=
  .inr ⟨⟨0x3000, 0xF000, .XKK, "SE_Vx__kk"⟩, by decide, rfl, (Sys2Proof.mask_F000 _ 0x3).2 (by simp [Sys2Proof.encode])⟩
theorem Sys2Proof.Laws.Encoding.sneImm (x : Sys2Proof.RegIdx) (kk : Sys2Proof.Byte) :
    Sys2Proof.Laws.Encoding.Statement (.sneImm x kk) :=
  .inr ⟨⟨0x4000, 0xF000, .XKK, "SNE_Vx__kk"⟩, by decide, rfl, (Sys2Proof.mask_F000 _ 0x4).2 (by simp [Sys2Proof.encode])⟩
theorem Sys2Proof.Laws.Encoding.seReg (x y : Sys2Proof.RegIdx) :
    Sys2Proof.Laws.Encoding.Statement (.seReg x y) :=
  .inr ⟨⟨0x5000, 0xF00F, .XY, "SE_Vx__Vy"⟩, by decide, rfl, (Sys2Proof.mask_F00F _ 0x5 0x0).2 (by simp [Sys2Proof.encode])⟩
theorem Sys2Proof.Laws.Encoding.ldImm (x : Sys2Proof.RegIdx) (kk : Sys2Proof.Byte) :
    Sys2Proof.Laws.Encoding.Statement (.ldImm x kk) :=
  .inr ⟨⟨0x6000, 0xF000, .XKK, "LD_Vx__kk"⟩, by decide, rfl, (Sys2Proof.mask_F000 _ 0x6).2 (by simp [Sys2Proof.encode])⟩
theorem Sys2Proof.Laws.Encoding.addImm (x : Sys2Proof.RegIdx) (kk : Sys2Proof.Byte) :
    Sys2Proof.Laws.Encoding.Statement (.addImm x kk) :=
  .inr ⟨⟨0x7000, 0xF000, .XKK, "ADD_Vx__kk"⟩, by decide, rfl, (Sys2Proof.mask_F000 _ 0x7).2 (by simp [Sys2Proof.encode])⟩
theorem Sys2Proof.Laws.Encoding.ldReg (x y : Sys2Proof.RegIdx) :
    Sys2Proof.Laws.Encoding.Statement (.ldReg x y) :=
  .inr ⟨⟨0x8000, 0xF00F, .XY, "LD_Vx__Vy"⟩, by decide, rfl, (Sys2Proof.mask_F00F _ 0x8 0x0).2 (by simp [Sys2Proof.encode])⟩
theorem Sys2Proof.Laws.Encoding.or (x y : Sys2Proof.RegIdx) :
    Sys2Proof.Laws.Encoding.Statement (.or x y) :=
  .inr ⟨⟨0x8001, 0xF00F, .XY, "OR_Vx__Vy"⟩, by decide, rfl, (Sys2Proof.mask_F00F _ 0x8 0x1).2 (by simp [Sys2Proof.encode])⟩
theorem Sys2Proof.Laws.Encoding.and (x y : Sys2Proof.RegIdx) :
    Sys2Proof.Laws.Encoding.Statement (.and x y) :=
  .inr ⟨⟨0x8002, 0xF00F, .XY, "AND_Vx__Vy"⟩, by decide, rfl, (Sys2Proof.mask_F00F _ 0x8 0x2).2 (by simp [Sys2Proof.encode])⟩
theorem Sys2Proof.Laws.Encoding.xor (x y : Sys2Proof.RegIdx) :
    Sys2Proof.Laws.Encoding.Statement (.xor x y) :=
  .inr ⟨⟨0x8003, 0xF00F, .XY, "XOR_Vx__Vy"⟩, by decide, rfl, (Sys2Proof.mask_F00F _ 0x8 0x3).2 (by simp [Sys2Proof.encode])⟩
theorem Sys2Proof.Laws.Encoding.addReg (x y : Sys2Proof.RegIdx) :
    Sys2Proof.Laws.Encoding.Statement (.addReg x y) :=
  .inr ⟨⟨0x8004, 0xF00F, .XY, "ADD_Vx__Vy"⟩, by decide, rfl, (Sys2Proof.mask_F00F _ 0x8 0x4).2 (by simp [Sys2Proof.encode])⟩
theorem Sys2Proof.Laws.Encoding.sub (x y : Sys2Proof.RegIdx) :
    Sys2Proof.Laws.Encoding.Statement (.sub x y) :=
  .inr ⟨⟨0x8005, 0xF00F, .XY, "SUB_Vx__Vy"⟩, by decide, rfl, (Sys2Proof.mask_F00F _ 0x8 0x5).2 (by simp [Sys2Proof.encode])⟩
theorem Sys2Proof.Laws.Encoding.shr (x y : Sys2Proof.RegIdx) :
    Sys2Proof.Laws.Encoding.Statement (.shr x y) :=
  .inr ⟨⟨0x8006, 0xF00F, .XY, "SHR_Vx__Vy"⟩, by decide, rfl, (Sys2Proof.mask_F00F _ 0x8 0x6).2 (by simp [Sys2Proof.encode])⟩
theorem Sys2Proof.Laws.Encoding.subn (x y : Sys2Proof.RegIdx) :
    Sys2Proof.Laws.Encoding.Statement (.subn x y) :=
  .inr ⟨⟨0x8007, 0xF00F, .XY, "SUBN_Vx__Vy"⟩, by decide, rfl, (Sys2Proof.mask_F00F _ 0x8 0x7).2 (by simp [Sys2Proof.encode])⟩
theorem Sys2Proof.Laws.Encoding.shl (x y : Sys2Proof.RegIdx) :
    Sys2Proof.Laws.Encoding.Statement (.shl x y) :=
  .inr ⟨⟨0x800E, 0xF00F, .XY, "SHL_Vx__Vy"⟩, by decide, rfl, (Sys2Proof.mask_F00F _ 0x8 0xE).2 (by simp [Sys2Proof.encode])⟩
theorem Sys2Proof.Laws.Encoding.sneReg (x y : Sys2Proof.RegIdx) :
    Sys2Proof.Laws.Encoding.Statement (.sneReg x y) :=
  .inr ⟨⟨0x9000, 0xF00F, .XY, "SNE_Vx__Vy"⟩, by decide, rfl, (Sys2Proof.mask_F00F _ 0x9 0x0).2 (by simp [Sys2Proof.encode])⟩
theorem Sys2Proof.Laws.Encoding.ldI (nnn : Sys2Proof.Addr12) :
    Sys2Proof.Laws.Encoding.Statement (.ldI nnn) :=
  .inr ⟨⟨0xA000, 0xF000, .NNN, "LD_I__nnn"⟩, by decide, rfl, (Sys2Proof.mask_F000 _ 0xA).2 (by simp [Sys2Proof.encode])⟩
theorem Sys2Proof.Laws.Encoding.jpV0 (nnn : Sys2Proof.Addr12) :
    Sys2Proof.Laws.Encoding.Statement (.jpV0 nnn) :=
  .inr ⟨⟨0xB000, 0xF000, .NNN, "JP_V0__nnn"⟩, by decide, rfl, (Sys2Proof.mask_F000 _ 0xB).2 (by simp [Sys2Proof.encode])⟩
theorem Sys2Proof.Laws.Encoding.rnd (x : Sys2Proof.RegIdx) (kk : Sys2Proof.Byte) :
    Sys2Proof.Laws.Encoding.Statement (.rnd x kk) :=
  .inr ⟨⟨0xC000, 0xF000, .XKK, "RND_Vx__kk"⟩, by decide, rfl, (Sys2Proof.mask_F000 _ 0xC).2 (by simp [Sys2Proof.encode])⟩
theorem Sys2Proof.Laws.Encoding.drw (x y : Sys2Proof.RegIdx) (n : BitVec 4) :
    Sys2Proof.Laws.Encoding.Statement (.drw x y n) :=
  .inr ⟨⟨0xD000, 0xF000, .XYN, "DRW_Vx__Vy__n"⟩, by decide, rfl, (Sys2Proof.mask_F000 _ 0xD).2 (by simp [Sys2Proof.encode])⟩
theorem Sys2Proof.Laws.Encoding.skp (x : Sys2Proof.RegIdx) :
    Sys2Proof.Laws.Encoding.Statement (.skp x) :=
  .inr ⟨⟨0xE09E, 0xF0FF, .X, "SKP_Vx"⟩, by decide, rfl, (Sys2Proof.mask_F0FF _ 0xE 0x9E).2 (by simp [Sys2Proof.encode])⟩
theorem Sys2Proof.Laws.Encoding.sknp (x : Sys2Proof.RegIdx) :
    Sys2Proof.Laws.Encoding.Statement (.sknp x) :=
  .inr ⟨⟨0xE0A1, 0xF0FF, .X, "SKNP_Vx"⟩, by decide, rfl, (Sys2Proof.mask_F0FF _ 0xE 0xA1).2 (by simp [Sys2Proof.encode])⟩
theorem Sys2Proof.Laws.Encoding.ldVxDT (x : Sys2Proof.RegIdx) :
    Sys2Proof.Laws.Encoding.Statement (.ldVxDT x) :=
  .inr ⟨⟨0xF007, 0xF0FF, .X, "LD_Vx__DT"⟩, by decide, rfl, (Sys2Proof.mask_F0FF _ 0xF 0x07).2 (by simp [Sys2Proof.encode])⟩
theorem Sys2Proof.Laws.Encoding.ldVxK (x : Sys2Proof.RegIdx) :
    Sys2Proof.Laws.Encoding.Statement (.ldVxK x) :=
  .inr ⟨⟨0xF00A, 0xF0FF, .X, "LD_Vx__K"⟩, by decide, rfl, (Sys2Proof.mask_F0FF _ 0xF 0x0A).2 (by simp [Sys2Proof.encode])⟩
theorem Sys2Proof.Laws.Encoding.ldDTVx (x : Sys2Proof.RegIdx) :
    Sys2Proof.Laws.Encoding.Statement (.ldDTVx x) :=
  .inr ⟨⟨0xF015, 0xF0FF, .X, "LD_DT__Vx"⟩, by decide, rfl, (Sys2Proof.mask_F0FF _ 0xF 0x15).2 (by simp [Sys2Proof.encode])⟩
theorem Sys2Proof.Laws.Encoding.ldSTVx (x : Sys2Proof.RegIdx) :
    Sys2Proof.Laws.Encoding.Statement (.ldSTVx x) :=
  .inr ⟨⟨0xF018, 0xF0FF, .X, "LD_ST__Vx"⟩, by decide, rfl, (Sys2Proof.mask_F0FF _ 0xF 0x18).2 (by simp [Sys2Proof.encode])⟩
theorem Sys2Proof.Laws.Encoding.addIVx (x : Sys2Proof.RegIdx) :
    Sys2Proof.Laws.Encoding.Statement (.addIVx x) :=
  .inr ⟨⟨0xF01E, 0xF0FF, .X, "ADD_I__Vx"⟩, by decide, rfl, (Sys2Proof.mask_F0FF _ 0xF 0x1E).2 (by simp [Sys2Proof.encode])⟩
theorem Sys2Proof.Laws.Encoding.ldFVx (x : Sys2Proof.RegIdx) :
    Sys2Proof.Laws.Encoding.Statement (.ldFVx x) :=
  .inr ⟨⟨0xF029, 0xF0FF, .X, "LD_F__Vx"⟩, by decide, rfl, (Sys2Proof.mask_F0FF _ 0xF 0x29).2 (by simp [Sys2Proof.encode])⟩
theorem Sys2Proof.Laws.Encoding.ldBVx (x : Sys2Proof.RegIdx) :
    Sys2Proof.Laws.Encoding.Statement (.ldBVx x) :=
  .inr ⟨⟨0xF033, 0xF0FF, .X, "LD_B__Vx"⟩, by decide, rfl, (Sys2Proof.mask_F0FF _ 0xF 0x33).2 (by simp [Sys2Proof.encode])⟩
theorem Sys2Proof.Laws.Encoding.ldMemVx (x : Sys2Proof.RegIdx) :
    Sys2Proof.Laws.Encoding.Statement (.ldMemVx x) :=
  .inr ⟨⟨0xF055, 0xF0FF, .X, "LD__I___Vx"⟩, by decide, rfl, (Sys2Proof.mask_F0FF _ 0xF 0x55).2 (by simp [Sys2Proof.encode])⟩
theorem Sys2Proof.Laws.Encoding.ldVxMem (x : Sys2Proof.RegIdx) :
    Sys2Proof.Laws.Encoding.Statement (.ldVxMem x) :=
  .inr ⟨⟨0xF065, 0xF0FF, .X, "LD_Vx___I"⟩, by decide, rfl, (Sys2Proof.mask_F0FF _ 0xF 0x65).2 (by simp [Sys2Proof.encode])⟩
theorem Sys2Proof.Laws.Encoding.undefined (w : Sys2Proof.Word) :
    Sys2Proof.Laws.Encoding.Statement (.undefined w) := .inl rfl
end

