-- ==== Sys2Proof/Tests/Slice0.lean ====
section
/-! SUPPORT. Tests: the smoke test of WellFormed, words written out from the spec's encodings, one-step tests whose expected values are
those of 95_test_vectors.md, and for each statement with hypotheses a state and operands that meet them. -/

namespace Sys2Proof.Tests

open Sys2Proof Sys2Proof.Machine

/-! ## Helpers -/

/-- The reset state with TIMER_PERIOD 4 (95_test_vectors.md section 2.7), a known draw, and one input to come. -/
def testState : State :=
  { State.reset with
    cfg := { Config.standard with timerPeriod := 4 }
    draw := 0xA7
    inputs := [⟨1, Keypad.released, 0⟩, ⟨1, Keypad.released, 0⟩, ⟨1, Keypad.released, 0⟩] }

/-- `s` with some registers set. -/
def regs (l : List (RegIdx × Byte)) (s : State := testState) : State := l.foldl (fun s p => s.setReg p.1 p.2) s

/-- `s` with some bytes stored from `a` on. -/
def bytesAt (a : Nat) (bs : List Byte) (s : State := testState) : State := s.pokeMany a bs

/-- `s` with one key pressed. -/
def press (k : Key) (s : State := testState) : State := { s with keys := s.keys.set k true }

/-- The step that runs `w`, and what `f` sees of the next state; none when the step does not go on. -/
def see {α : Type} (w : Nat) (s : State) (f : State → α) : Option α :=
  match step (s.withFetchWord 16 w) with
  | .next t => some (f t)
  | _ => none

/-- The fault of an outcome. -/
def faultKind (r : Result) : Option Fault :=
  match r with
  | .fault k => some k
  | _ => none

/-- The fault of the step that runs `w`. -/
def faultOf (w : Nat) (s : State) : Option Fault := faultKind (step (s.withFetchWord 16 w))

/-- The outcome is a next state. -/
def goesOn (r : Result) : Bool :=
  match r with
  | .next _ => true
  | _ => false

theorem exists_next {r : Result} (h : goesOn r = true) : ∃ t, r = .next t := by
  cases r with
  | next t => exact ⟨t, rfl⟩
  | fault k => simp [goesOn] at h
  | refused k => simp [goesOn] at h

/-- The states of a run from `s`, as long as the steps go on. -/
def runFrom (s : State) : Nat → State
  | 0 => s
  | k + 1 =>
    match step (runFrom s k) with
    | .next t => t
    | _ => runFrom s k

theorem runFrom_step (s : State) (k : Nat) (h : goesOn (step (runFrom s k)) = true) :
    step (runFrom s k) = .next (runFrom s (k + 1)) := by
  obtain ⟨t, ht⟩ := exists_next h
  rw [ht, runFrom, ht]

/-! ## WellFormed refuses the terms no word stands for (41_control_flow.md R76, 30_encoding.md R60) -/

theorem smoke_sys_00E0_refused : (Instr.sys 0x0E0).wf = false := by decide
theorem smoke_sys_00EE_refused : (Instr.sys 0x0EE).wf = false := by decide
theorem smoke_undefined_of_op0_refused : (Instr.undefined 0x00E0).wf = false := by decide
theorem smoke_undefined_of_op5_refused : (Instr.undefined 0x5120).wf = false := by decide
theorem smoke_undefined_of_op8_refused : (Instr.undefined 0x8AB4).wf = false := by decide
theorem smoke_undefined_of_op9_refused : (Instr.undefined 0x9120).wf = false := by decide
theorem smoke_undefined_of_opE_refused : (Instr.undefined 0xE59E).wf = false := by decide
theorem smoke_undefined_of_opF_refused : (Instr.undefined 0xFA29).wf = false := by decide
theorem smoke_wellformed_accepted : (Instr.sys 0x123).wf = true ∧ (Instr.undefined 0x5121).wf = true := by decide

/-! ## Decoding: each constructor by a word written out from 30_encoding.md R56, R59 -/

theorem test_decode_control :
    decode 0x00EE = .ret ∧ decode 0x0123 = .sys 0x123 ∧ decode 0x00E1 = .sys 0x0E1 ∧ decode 0x0FEE = .sys 0xFEE ∧
    decode 0x1234 = .jp 0x234 ∧ decode 0x2ABC = .call 0xABC ∧ decode 0xBF01 = .jpV0 0xF01 := by decide

theorem test_decode_skips :
    decode 0x3A5F = .seImm 0xA 0x5F ∧ decode 0x4001 = .sneImm 0 0x01 ∧ decode 0x5120 = .seReg 1 2 ∧
    decode 0x9120 = .sneReg 1 2 ∧ decode 0xE59E = .skp 5 ∧ decode 0xE5A1 = .sknp 5 := by decide

theorem test_decode_alu :
    decode 0x6A2F = .ldImm 0xA 0x2F ∧ decode 0x7103 = .addImm 1 0x03 ∧ decode 0x8120 = .ldReg 1 2 ∧
    decode 0x8121 = .or 1 2 ∧ decode 0x8122 = .and 1 2 ∧ decode 0x8123 = .xor 1 2 ∧ decode 0x8AB4 = .addReg 0xA 0xB ∧
    decode 0x8125 = .sub 1 2 ∧ decode 0x8126 = .shr 1 2 ∧ decode 0x8127 = .subn 1 2 ∧ decode 0x812E = .shl 1 2 ∧
    decode 0xC30F = .rnd 3 0x0F := by decide

theorem test_decode_index_memory :
    decode 0xA2F0 = .ldI 0x2F0 ∧ decode 0xF21E = .addIVx 2 ∧ decode 0xFA29 = .ldFVx 0xA ∧ decode 0xF333 = .ldBVx 3 ∧
    decode 0xF255 = .ldMemVx 2 ∧ decode 0xF265 = .ldVxMem 2 := by decide

theorem test_decode_display_timers_keys :
    decode 0x00E0 = .cls ∧ decode 0xDAB7 = .drw 0xA 0xB 7 ∧ decode 0xF307 = .ldVxDT 3 ∧ decode 0xF50A = .ldVxK 5 ∧
    decode 0xF215 = .ldDTVx 2 ∧ decode 0xF218 = .ldSTVx 2 := by decide

/-- Every fixed nibble is checked (R58, R60; V7, V8, V28, V32). -/
theorem test_decode_undefined :
    decode 0x5121 = .undefined 0x5121 ∧ decode 0x912F = .undefined 0x912F ∧ decode 0x8128 = .undefined 0x8128 ∧
    decode 0x812F = .undefined 0x812F ∧ decode 0xE1FF = .undefined 0xE1FF ∧ decode 0xF1FF = .undefined 0xF1FF ∧
    decode 0xF000 = .undefined 0xF000 ∧ decode 0xF090 = .undefined 0xF090 := by decide

/-- The first byte is the high one (20_memory.md R41); one byte is no instruction. -/
theorem test_decode_bytes :
    decodeBytes [0x12, 0x34, 0x56] = .ok (.jp 0x234, [0x56]) ∧ decodeBytes [0x12] = .error .truncated := by decide

/-- The host's view: a word of the opcode table (16 bits). -/
theorem test_decode_table_word : decodeTableWord 16 0x6A2F = some (.ldImm 0xA 0x2F) ∧ decodeTableWord 16 0 = some (.sys 0) := by decide

/-! ## The cycle (95_test_vectors.md section 2.1) -/

/-- V1 -/
theorem test_fetch : see 0x1234 testState (fun t => (t.currentOpcode, t.pc)) = some (0x1234, 0x234) := by decide

/-- V2: an odd pc -/
theorem test_fetch_odd : see 0x602A { testState with pc := 0x201 } (fun t => (t.reg 0, t.pc)) = some (0x2A, 0x203) := by decide

/-- V3, V4, V5: the top of memory -/
theorem test_fetch_bounds :
    see 0 { testState with pc := 0xFFE } (·.pc) = some 0x1000 ∧ faultKind (step { testState with pc := 0xFFF }) = some .fetchBounds ∧
    faultKind (step { testState with pc := 0x1000 }) = some .fetchBounds := by decide

/-- V6, V139: a faulted machine has no step, and reset clears the fault. -/
theorem test_faulted :
    faultKind (step (recordFault testState .keyIndex)) = some .keyIndex ∧ (resetAt 50 (recordFault testState .keyIndex)).fault = none := by
  decide

/-- V10: the tick runs after any instruction. -/
theorem test_tick :
    see 0 { testState with DT := 1, now := 4 } (fun t => (t.DT, t.lastDelayTick, t.pc)) = some (0, 4, 0x202) := by decide

/-- The first step after reset fetches at 0x200, where reset memory holds zeros (70_reset_and_hazards.md R147, R145). -/
theorem test_first_step : goesOn (step State.reset) = true ∧ fetchWord State.reset = some 0 := by decide

/-! ## Control flow (section 2.2) -/

/-- T5, V13 -/
theorem test_call :
    see 0x2300 testState (fun t => (t.pc, t.sp, t.stack[0])) = some (0x300, 1, 0x200) ∧
    see 0x2400 { testState with sp := 15 } (fun t => (t.stack[15], t.sp, t.pc)) = some (0x200, 16, 0x400) := by decide

/-- V14, V15 -/
theorem test_stack_faults :
    faultOf 0x2400 { testState with sp := 16 } = some .stackOverflow ∧ faultOf 0x00EE testState = some .stackUnderflow := by
  decide

/-- V16 -/
theorem test_ret :
    see 0x00EE { testState with sp := 2, stack := (testState.stack.set 0 0x200).set 1 0x350 }
      (fun t => (t.sp, t.pc, t.stack[1])) = some (1, 0x352, 0x350) := by decide

/-- V20 -/
theorem test_sys : see 0x0123 testState (·.pc) = some 0x202 := by decide

/-- V12 -/
theorem test_jp : see 0x1FFF testState (·.pc) = some 0xFFF := by decide

/-- V17, V18 -/
theorem test_jpV0 :
    see 0xB300 (regs [(0, 0x10)]) (·.pc) = some 0x310 ∧ see 0xBF01 (regs [(0, 0xFF)]) (·.pc) = some 0x1000 := by decide

/-- V7 -/
theorem test_undefined : see 0x8128 (regs [(1, 5)]) (fun t => (t.pc, t.reg 1, t.reg 15)) = some (0x202, 5, 0) := by decide

/-! ## Skips (section 2.3) -/

/-- V21, V22 -/
theorem test_seImm :
    see 0x3342 (regs [(3, 0x42)]) (·.pc) = some 0x204 ∧ see 0x3342 (regs [(3, 0x41)]) (·.pc) = some 0x202 := by decide

/-- V24, V25 -/
theorem test_sneImm :
    see 0x4001 testState (·.pc) = some 0x204 ∧ see 0x4001 (regs [(0, 1)]) (·.pc) = some 0x202 := by decide

/-- V26, V27 -/
theorem test_seReg :
    see 0x5120 (regs [(1, 7), (2, 7)]) (·.pc) = some 0x204 ∧ see 0x5120 (regs [(1, 7), (2, 8)]) (·.pc) = some 0x202 := by decide

/-- V30, V31 -/
theorem test_sneReg :
    see 0x9120 (regs [(1, 1), (2, 2)]) (·.pc) = some 0x204 ∧ see 0x9440 (regs [(4, 9)]) (·.pc) = some 0x202 := by decide

/-- V33, V34, V37, V38 -/
theorem test_skp :
    see 0xE59E (press 0xA (regs [(5, 0xA)])) (·.pc) = some 0x204 ∧ see 0xE59E (regs [(5, 0xA)]) (·.pc) = some 0x202 ∧
    see 0xE59E (press 0xF (regs [(5, 0xF)])) (·.pc) = some 0x204 ∧ faultOf 0xE59E (regs [(5, 0x10)]) = some .keyIndex := by
  decide

/-- V35, V36, V37 -/
theorem test_sknp :
    see 0xE5A1 (regs [(5, 0xA)]) (·.pc) = some 0x204 ∧ see 0xE5A1 (press 0xA (regs [(5, 0xA)])) (·.pc) = some 0x202 ∧
    faultOf 0xE5A1 (regs [(5, 0x10)]) = some .keyIndex := by decide

/-! ## ALU (section 2.4): plain cases, then VF as an operand -/

/-- V39, V82 -/
theorem test_ldImm :
    see 0x6A2F testState (·.reg 0xA) = some 0x2F ∧ see 0x6F07 testState (·.reg 15) = some 7 := by decide

/-- V40 -/
theorem test_addImm : see 0x7103 (regs [(1, 0xFE)]) (fun t => (t.reg 1, t.reg 15)) = some (1, 0) := by decide

/-- V42 -/
theorem test_ldReg : see 0x8120 (regs [(2, 9)]) (·.reg 1) = some 9 := by decide

/-- V43, V81 -/
theorem test_or :
    see 0x8121 (regs [(1, 0x0F), (2, 0xF0), (15, 1)]) (fun t => (t.reg 1, t.reg 15)) = some (0xFF, 1) ∧
    see 0x8F21 (regs [(15, 0x0F), (2, 0xF0)]) (·.reg 15) = some 0xFF := by decide

/-- V44 -/
theorem test_and :
    see 0x8122 (regs [(1, 0x3C), (2, 0x0F), (15, 1)]) (fun t => (t.reg 1, t.reg 15)) = some (0x0C, 1) := by decide

/-- V45 -/
theorem test_xor :
    see 0x8123 (regs [(1, 0xFF), (2, 0x0F), (15, 1)]) (fun t => (t.reg 1, t.reg 15)) = some (0xF0, 1) := by decide

/-- V47, V50: the unsigned carry -/
theorem test_addReg :
    see 0x8124 (regs [(1, 0xFF), (2, 1)]) (fun t => (t.reg 1, t.reg 15)) = some (0, 1) ∧
    see 0x8124 (regs [(1, 0x7F), (2, 1)]) (fun t => (t.reg 1, t.reg 15)) = some (0x80, 0) := by decide

/-- V66, V67, V68 -/
theorem test_addReg_VF :
    see 0x8F24 (regs [(15, 0x30), (2, 0x10)]) (·.reg 15) = some 0 ∧
    see 0x81F4 (regs [(1, 0x30), (15, 0x81)]) (fun t => (t.reg 1, t.reg 15)) = some (0xB1, 0) ∧
    see 0x8FF4 (regs [(15, 0x90)]) (·.reg 15) = some 1 := by decide

/-- V52, V53 -/
theorem test_sub :
    see 0x8125 (regs [(1, 0x10), (2, 0x30)]) (fun t => (t.reg 1, t.reg 15)) = some (0xE0, 0) ∧
    see 0x8125 (regs [(1, 0x42), (2, 0x42)]) (fun t => (t.reg 1, t.reg 15)) = some (0, 1) := by decide

/-- V69, V70, V71 -/
theorem test_sub_VF :
    see 0x8F25 (regs [(15, 0x30), (2, 0x10)]) (·.reg 15) = some 0xF1 ∧
    see 0x81F5 (regs [(1, 0x30), (15, 0x81)]) (fun t => (t.reg 1, t.reg 15)) = some (0x30, 0) ∧
    see 0x8FF5 (regs [(15, 0x90)]) (·.reg 15) = some 0 := by decide

/-- V55: the source is Vy -/
theorem test_shr : see 0x8126 (regs [(1, 0xAA), (2, 5)]) (fun t => (t.reg 1, t.reg 15)) = some (2, 1) := by decide

/-- V72, V73 -/
theorem test_shr_VF :
    see 0x8F26 (regs [(15, 0x30), (2, 0x10)]) (·.reg 15) = some 8 ∧
    see 0x81F6 (regs [(1, 0x30), (15, 0x81)]) (fun t => (t.reg 1, t.reg 15)) = some (0, 1) := by decide

/-- V58, V59 -/
theorem test_subn :
    see 0x8127 (regs [(1, 0x10), (2, 0x30)]) (fun t => (t.reg 1, t.reg 15)) = some (0x20, 1) ∧
    see 0x8127 (regs [(1, 0x30), (2, 0x10)]) (fun t => (t.reg 1, t.reg 15)) = some (0xE0, 0) := by decide

/-- V75, V76 -/
theorem test_subn_VF :
    see 0x8F27 (regs [(15, 0x30), (2, 0x10)]) (·.reg 15) = some 0x10 ∧
    see 0x81F7 (regs [(1, 0x30), (15, 0x81)]) (fun t => (t.reg 1, t.reg 15)) = some (0xD1, 1) := by decide

/-- V61 -/
theorem test_shl : see 0x812E (regs [(2, 0x81)]) (fun t => (t.reg 1, t.reg 15)) = some (2, 1) := by decide

/-- V78, V79, V80 -/
theorem test_shl_VF :
    see 0x8F2E (regs [(15, 0x30), (2, 0x10)]) (·.reg 15) = some 0x20 ∧
    see 0x81FE (regs [(1, 0x30), (15, 0x81)]) (fun t => (t.reg 1, t.reg 15)) = some (2, 1) ∧
    see 0x8FFE (regs [(15, 0x90)]) (·.reg 15) = some 2 := by decide

/-- V64 -/
theorem test_rnd : see 0xC30F testState (·.reg 3) = some 7 := by decide

/-! ## Index and memory (section 2.5) -/

/-- V89 -/
theorem test_ldI : see 0xA2F0 { testState with I := 0x1234 } (·.I) = some 0x2F0 := by decide

/-- V90, V92, V94, V95 -/
theorem test_addIVx :
    see 0xF21E (regs [(2, 3)] { testState with I := 0xFFE }) (fun t => (t.I, t.reg 15)) = some (0x1001, 1) ∧
    see 0xF21E { testState with I := 0xFFF } (fun t => (t.I, t.reg 15)) = some (0xFFF, 0) ∧
    see 0xF21E (regs [(2, 2)] { testState with I := 0xFFFF }) (fun t => (t.I, t.reg 15)) = some (1, 1) ∧
    see 0xFF1E (regs [(15, 5)] { testState with I := 0x100 }) (fun t => (t.I, t.reg 15)) = some (0x105, 0) := by decide

/-- V96, V97 -/
theorem test_ldFVx :
    see 0xFA29 (regs [(0xA, 0xA)]) (·.I) = some 0x032 ∧ see 0xF129 (regs [(1, 0xFF)]) (·.I) = some 0x4FB := by decide

/-- T7 -/
theorem test_ldBVx :
    see 0xF333 (regs [(3, 234)] (bytesAt 0x303 [0x77] { testState with I := 0x300 })) (fun t => (t.peekMany 0x300 4, t.I)) =
      some ([2, 3, 4, 0x77], 0x300) := by decide

/-- V100, V101 -/
theorem test_ldBVx_bounds :
    see 0xF333 (regs [(3, 7)] { testState with I := 0xFFD }) (·.peekMany 0xFFD 3) = some [0, 0, 7] ∧
    faultOf 0xF333 (regs [(3, 7)] { testState with I := 0xFFE }) = some .memBounds := by decide

/-- V102, V108 -/
theorem test_ldMemVx :
    see 0xF255 (regs [(0, 1), (1, 2), (2, 3), (3, 4)] { testState with I := 0x300 }) (fun t => (t.peekMany 0x300 4, t.I)) =
      some ([1, 2, 3, 0], 0x300) ∧
    see 0xF055 (regs [(0, 0xAB)]) (·.peek 0) = some 0xAB := by decide

/-- V103, V104 -/
theorem test_ldMemVx_bounds :
    see 0xF055 (regs [(0, 9)] { testState with I := 0xFFF }) (·.peek 0xFFF) = some 9 ∧
    faultOf 0xF155 { testState with I := 0xFFF } = some .memBounds := by decide

/-- V105 -/
theorem test_ldVxMem :
    see 0xF265 (regs [(3, 0x77)] (bytesAt 0x300 [1, 2, 3] { testState with I := 0x300 }))
      (fun t => (t.reg 0, t.reg 1, t.reg 2, t.reg 3, t.I)) = some (1, 2, 3, 0x77, 0x300) := by decide

/-- V107 -/
theorem test_ldVxMem_bounds : faultOf 0xF065 { testState with I := 0x1001 } = some .memBounds := by decide

/-! ## Display (section 2.6) -/

/-- T4 -/
theorem test_cls :
    see 0x00E0 { testState with display := Display.set Display.blank (31, 63) true } (·.display) = some Display.blank := by
  decide

/-- V109, V119: the bottom right cell; XOR and collision -/
theorem test_drw :
    see 0xD011 (regs [(0, 0x3F), (1, 0x1F)] (bytesAt 0x300 [0x80] { testState with I := 0x300 }))
      (fun t => (Display.get t.display (31, 63), t.reg 15)) = some (true, 0) ∧
    see 0xD011 (bytesAt 0x300 [0xC0] { testState with I := 0x300, display := Display.set Display.blank (0, 0) true })
      (fun t => (Display.get t.display (0, 0), Display.get t.display (0, 1), t.reg 15)) = some (false, true, 1) := by decide

/-- V111, V114, V117, V118, V115 -/
theorem test_drw_faults :
    faultOf 0xD011 (regs [(0, 0x3C)] (bytesAt 0x300 [0xF8] { testState with I := 0x300 })) = some .displayBounds ∧
    faultOf 0xD012 (regs [(1, 0x1F)] (bytesAt 0x300 [0x80, 0x80] { testState with I := 0x300 })) = some .displayBounds ∧
    faultOf 0xD012 { testState with I := 0xFFF } = some .memBounds ∧
    faultOf 0xD012 (regs [(0, 0xFF)] { testState with I := 0x1000 }) = some .memBounds ∧
    see 0xD011 (regs [(0, 0xFF), (1, 0xFF)] { testState with I := 0x300 }) (·.reg 15) = some 0 := by decide

/-! ## Timers and keys (section 2.7) -/

/-- V125: DT is read before the tick. -/
theorem test_ldVxDT :
    see 0xF307 { testState with DT := 1, now := 4 } (fun t => (t.reg 3, t.DT, t.lastDelayTick)) = some (1, 0, 4) := by decide

/-- V126 -/
theorem test_ldDTVx :
    see 0xF215 (regs [(2, 5)] { testState with now := 9 }) (fun t => (t.DT, t.lastDelayTick)) = some (5, 9) := by decide

/-- V130, V133: no tone on Fx18, one at the decrement -/
theorem test_ldSTVx :
    see 0xF218 (regs [(2, 3)]) (fun t => (t.ST, t.lastSoundTick, t.tones)) = some (3, 0, 0) ∧
    see 0 { testState with DT := 2, ST := 2, now := 4 } (fun t => (t.DT, t.ST, t.tones)) = some (1, 1, 1) := by decide

/-- T9, V135 -/
theorem test_ldVxK :
    see 0xF50A testState (fun t => (t.pc, t.reg 5)) = some (0x200, 0) ∧
    see 0xF50A (press 9 (press 3)) (fun t => (t.pc, t.reg 5)) = some (0x202, 3) := by decide

/-- V136: the tick runs while blocked. -/
theorem test_ldVxK_ticks :
    see 0xF50A { testState with DT := 1, now := 4 } (fun t => (t.pc, t.DT)) = some (0x200, 0) := by decide

/-! ## Load and reset (section 2.8, T11) -/

theorem test_load :
    (match load [0x60, 0x0A] testState with
      | .ok t => some (t.peekMany 0x200 2, t.pc)
      | .error _ => none) = some ([0x60, 0x0A], 0x200) ∧
    load [1] testState 4096 = .error .capacityError ∧ load [] testState 4096 = .ok testState := by decide

/-- V139, V140: the font is back, the keys stay. -/
theorem test_reset :
    (resetAt 50 (press 3 (bytesAt 0 [1, 2] (regs [(4, 9)])))).peekMany 0 5 = [0xF0, 0x90, 0x90, 0x90, 0xF0] ∧
    (resetAt 50 (press 3 (regs [(4, 9)]))).reg 4 = 0 ∧ (resetAt 50 (press 3)).pressed 3 = true ∧
    (resetAt 50 testState).lastDelayTick = 50 := by decide

/-! ## Witnesses: for each statement with hypotheses a state and operands that meet them, at the boundaries of their ranges -/

/-- A machine inside a call, with a stale entry and a used timer: its invariant holds and none of its parts is trivial. -/
def busyState : State :=
  { testState with sp := 1, stack := (testState.stack.set 0 0xFFE).set 1 0x350, DT := 1, now := 4, mem := [(0x100, 7)] }

theorem witness_EncodedInstructionsDecodeToThemselves :
    (Instr.sys 0xFFF).wf = true ∧ (Instr.undefined 0xFFFF).wf = true ∧ (Instr.drw 15 15 15).wf = true := by decide

theorem witness_DecoderFollowsTheOpcodeMap :
    ⟨0x00E0, 0xFFFF, .O, "CLS"⟩ ∈ opcodeMap ∧ ⟨0x0000, 0xF000, .NNN, "SYS_nnn"⟩ ∈ opcodeMap ∧
    (0x00E0 : Word) &&& 0xFFFF = 0x00E0 ∧ (0x00E0 : Word) &&& 0xF000 = 0x0000 := by decide

/-- Each outcome: a next state from the last pc that fetches, and a fault. -/
theorem witness_StepRunsTheDecodedInstruction :
    testState.fault = none ∧
    (let s := { testState with pc := 0xFFE }
     s.pc.toNat ≤ 0xFFE ∧ decodeBytes [s.peek s.pc.toNat, s.peek (s.pc.toNat + 1)] = .ok (.sys 0, []) ∧ goesOn (step s)) ∧
    (let s := testState.withFetchWord 16 0x00EE
     s.pc.toNat ≤ 0xFFE ∧ decodeBytes [s.peek s.pc.toNat, s.peek (s.pc.toNat + 1)] = .ok (.ret, []) ∧
       faultKind (step s) = some .stackUnderflow) := by decide

theorem witness_FetchIsBigEndianOrFaults :
    (let s := { testState with pc := 0xFFE }; s.pc.toNat ≤ 0xFFE) ∧
    (let s := { testState with pc := 0xFFF }; s.fault = none ∧ 0xFFF ≤ s.pc.toNat) := by decide

theorem exists_fault {r : Result} {k : Fault} (h : faultKind r = some k) : r = .fault k := by
  cases r with
  | next t => simp [faultKind] at h
  | fault j => simp [faultKind] at h; rw [h]
  | refused j => simp [faultKind] at h

theorem witness_FaultingStepIsAllOrNothing : step (busyState.withFetchWord 16 0xE09E |> regs [(0, 16)]) = .fault .keyIndex :=
  exists_fault (by decide)

/-- Each fault of the table is raised. -/
theorem witness_OnlyTheNamedInstructionsFault :
    faultKind (exec (.drw 0 0 2) { testState with I := 0xFFF }) = some .memBounds ∧
    faultKind (exec (.ldBVx 0) { testState with I := 0xFFE }) = some .memBounds ∧
    faultKind (exec (.ldMemVx 1) { testState with I := 0xFFF }) = some .memBounds ∧
    faultKind (exec (.ldVxMem 1) { testState with I := 0xFFF }) = some .memBounds ∧
    faultKind (exec (.drw 1 0 1) (regs [(1, 61)])) = some .displayBounds ∧
    faultKind (exec (.call 0) { testState with sp := 16 }) = some .stackOverflow ∧
    faultKind (exec .ret testState) = some .stackUnderflow ∧
    faultKind (exec (.skp 0) (regs [(0, 16)])) = some .keyIndex ∧
    faultKind (exec (.sknp 0) (regs [(0, 255)])) = some .keyIndex := by decide

/-- With a scheduled input, and with none. -/
theorem witness_NextInputsArriveAfterTheStep :
    (∃ t, step testState = .next t) ∧ testState.inputs ≠ [] ∧ (∃ t, step State.reset = .next t) ∧ State.reset.inputs = [] :=
  ⟨exists_next (by decide), by decide, exists_next (by decide), rfl⟩

theorem witness_SysIsANoOp :
    (0x0FFF : Word) &&& 0xF000 = 0x0000 ∧ (0x0FFF : Word) ≠ 0x00E0 ∧ (0x0FFF : Word) ≠ 0x00EE := by decide

/-- One word of each of the five spaces of R60. -/
theorem witness_UndefinedWordsAreNoOps :
    undefinedWord 0x5001 = true ∧ undefinedWord 0x8FFF = true ∧ undefinedWord 0x9FFF = true ∧ undefinedWord 0xE000 = true ∧
    undefinedWord 0xFFFF = true := by decide

/-- A word of each pattern that the statements' `EncodedAs` clauses speak of. -/
theorem witness_EncodedAs_op :
    (0x1FFF : Word) &&& 0xF000 = 0x1000 ∧ (0x2FFF : Word) &&& 0xF000 = 0x2000 ∧ (0x3FFF : Word) &&& 0xF000 = 0x3000 ∧
    (0x4FFF : Word) &&& 0xF000 = 0x4000 ∧ (0x6FFF : Word) &&& 0xF000 = 0x6000 ∧ (0x7FFF : Word) &&& 0xF000 = 0x7000 ∧
    (0xAFFF : Word) &&& 0xF000 = 0xA000 ∧ (0xBFFF : Word) &&& 0xF000 = 0xB000 ∧ (0xCFFF : Word) &&& 0xF000 = 0xC000 ∧
    (0xDFFF : Word) &&& 0xF000 = 0xD000 := by decide

theorem witness_EncodedAs_op_n :
    (0x5FF0 : Word) &&& 0xF00F = 0x5000 ∧ (0x8FF0 : Word) &&& 0xF00F = 0x8000 ∧ (0x8FF1 : Word) &&& 0xF00F = 0x8001 ∧
    (0x8FF2 : Word) &&& 0xF00F = 0x8002 ∧ (0x8FF3 : Word) &&& 0xF00F = 0x8003 ∧ (0x8FF4 : Word) &&& 0xF00F = 0x8004 ∧
    (0x8FF5 : Word) &&& 0xF00F = 0x8005 ∧ (0x8FF6 : Word) &&& 0xF00F = 0x8006 ∧ (0x8FF7 : Word) &&& 0xF00F = 0x8007 ∧
    (0x8FFE : Word) &&& 0xF00F = 0x800E ∧ (0x9FF0 : Word) &&& 0xF00F = 0x9000 := by decide

theorem witness_EncodedAs_op_kk :
    (0xEF9E : Word) &&& 0xF0FF = 0xE09E ∧ (0xEFA1 : Word) &&& 0xF0FF = 0xE0A1 ∧ (0xFF07 : Word) &&& 0xF0FF = 0xF007 ∧
    (0xFF0A : Word) &&& 0xF0FF = 0xF00A ∧ (0xFF15 : Word) &&& 0xF0FF = 0xF015 ∧ (0xFF18 : Word) &&& 0xF0FF = 0xF018 ∧
    (0xFF1E : Word) &&& 0xF0FF = 0xF01E ∧ (0xFF29 : Word) &&& 0xF0FF = 0xF029 ∧ (0xFF33 : Word) &&& 0xF0FF = 0xF033 ∧
    (0xFF55 : Word) &&& 0xF0FF = 0xF055 ∧ (0xFF65 : Word) &&& 0xF0FF = 0xF065 := by decide

/-- The first and the last free entry, and a full stack. -/
theorem witness_CallPushesItsOwnAddress :
    (∃ j : Fin 16, testState.sp.val = j.val) ∧ (∃ j : Fin 16, { testState with sp := 15 }.sp.val = j.val) ∧
    { testState with sp := 16 }.sp.val = 16 := by decide

/-- One live entry, sixteen, and none. -/
theorem witness_ReturnGoesPastTheCall :
    (∃ j : Fin 16, busyState.sp.val = j.val + 1) ∧ (∃ j : Fin 16, { testState with sp := 16 }.sp.val = j.val + 1) ∧
    testState.sp.val = 0 := by decide

/-- The callee may be the state right after the call. -/
theorem witness_CallAndReturnAdvanceByOne :
    { testState with sp := 15 }.sp.val < 16 ∧ goesOn (exec (.call 0x300) { testState with sp := 15 }) = true := by decide

theorem witness_SkipsOnAByte :
    (regs [(3, 0x42)] |>.reg 3).toNat = (0x42 : Byte).toNat ∧ (testState.reg 3).toNat ≠ (0x42 : Byte).toNat := by decide

theorem witness_SkipsOnARegister :
    (testState.reg 1).toNat = (testState.reg 2).toNat ∧ (regs [(1, 1)] |>.reg 1).toNat ≠ (regs [(1, 1)] |>.reg 2).toNat := by decide

theorem witness_SkipsOnAKey :
    (∃ k : Key, (regs [(5, 15)] |>.reg 5).toNat = k.val) ∧ 15 < (regs [(5, 16)] |>.reg 5).toNat := by decide

/-- The cases of x and y against F, for the statements on 8xy4 to 8xy7 and 8xyE. -/
theorem witness_AddSetsCarry_SubtractionsSetNotBorrow_ShiftsTakeVy :
    (∃ x y : RegIdx, x ≠ regF ∧ y ≠ regF) ∧ (∃ x y : RegIdx, x ≠ regF ∧ y = regF) ∧ (∃ x y : RegIdx, x = regF ∧ y ≠ regF) ∧
    ∃ x y : RegIdx, x = regF ∧ y = regF := by decide

theorem busy_wf : Memory.wf busyState.cfg busyState.mem := by decide

theorem witness_IndexAddFlagsTheRange : 0x10FE = (regs [(2, 0xFF)] { testState with I := 0xFFF }).I.toNat + 0xFF := by decide

/-- The last I that fits, and the first that does not. -/
theorem witness_DecimalDigitsAreStored :
    Memory.wf testState.cfg testState.mem ∧ { testState with I := 0xFFD }.effAddr 2 ≤ 0xFFF ∧
    0xFFF < { testState with I := 0xFFE }.effAddr 2 := by decide

theorem witness_RegistersAreStored_RegistersAreLoaded_StoreThenLoadRestores :
    Memory.wf busyState.cfg busyState.mem ∧ { busyState with I := 0xFF0 }.effAddr (15 : RegIdx).val ≤ 0xFFF ∧
    0xFFF < { busyState with I := 0xFF1 }.effAddr (15 : RegIdx).val ∧ { busyState with I := 0xFFF }.effAddr (0 : RegIdx).val ≤ 0xFFF ∧
    goesOn (exec (.ldMemVx 15) { busyState with I := 0xFF0 }) = true := by decide

/-- The word stored over is the last of memory. -/
theorem witness_StoredWordIsFetchedNext :
    let s := { testState with pc := 0xFFC, I := 0xFFE }
    Memory.wf s.cfg s.mem ∧ 1 ≤ (1 : RegIdx).val ∧ s.effAddr (1 : RegIdx).val ≤ 0xFFF ∧ s.I = s.pc + 2 := by decide

theorem witness_MemoryReadsTheLatestWrite :
    Memory.wf Config.standard [(0, 1), (0xFFF, 2)] ∧ (0xFFF : Nat) ≤ 0xFFF ∧ (0xFFE : Nat) ≠ 0xFFF := by decide

/-- Each clause: no byte at all, the first byte past memory, and a set bit one column or one row off the grid. -/
theorem witness_DrawFaultsExactlyOffMemoryOrGrid :
    faultKind (exec (.drw 0 0 0) { testState with I := 0xFFFF }) = none ∧
    (0 < (2 : BitVec 4).toNat ∧ 0xFFF < { testState with I := 0xFFF }.effAddr ((2 : BitVec 4).toNat - 1)) ∧
    faultKind (exec (.drw 1 0 1) (regs [(1, 61)])) = some .displayBounds ∧
    faultKind (exec (.drw 0 1 5) (regs [(1, 28)])) = some .displayBounds := by decide

/-- Glyph 0 in the bottom right corner: its last row is row 31, its last set column 63. -/
theorem witness_DrawXorsTheSprite :
    let s := regs [(1, 60), (2, 27)]
    (0 < (5 : BitVec 4).toNat → s.effAddr ((5 : BitVec 4).toNat - 1) ≤ 0xFFF) ∧
    ∀ j, j < (5 : BitVec 4).toNat → ∀ i, i < 8 → (s.peek (s.effAddr j)).getLsbD (7 - i) = true →
      (s.reg 2).toNat + j ≤ 31 ∧ (s.reg 1).toNat + i ≤ 63 := by decide

theorem witness_DrawingTwiceRestoresTheDisplay :
    ∃ t, (1 : RegIdx) ≠ regF ∧ (2 : RegIdx) ≠ regF ∧ exec (.drw 1 2 5) (regs [(1, 60), (2, 27)]) = .next t := by
  obtain ⟨t, ht⟩ := exists_next (r := exec (.drw 1 2 5) (regs [(1, 60), (2, 27)])) (by decide)
  exact ⟨t, by decide, by decide, ht⟩

/-- A period, and, whatever the period, the value 0. -/
theorem witness_SoundTimerIsSet : 0 < testState.cfg.timerPeriod ∧ testState.reg 2 = 0 := by decide

/-- LD DT, V2 at time 0; the next step is taken at time 3, the last before the period of 4 is over. -/
def setDelay (v : Byte) : State :=
  (regs [(2, v)] { testState with inputs := [⟨3, Keypad.released, 0⟩, ⟨9, Keypad.released, 0⟩] }).withFetchWord 16 0xF215

/-- A run of two steps, the first an Fx15 and the second not, with the value 5 and with the value 0. -/
theorem setDelay_run (v : Byte) (h0 : (setDelay v).nextInstr = some (.ldDTVx 2)) (h1 : goesOn (step (runFrom (setDelay v) 0)) = true)
    (h2 : goesOn (step (runFrom (setDelay v) 1)) = true) (h3 : (runFrom (setDelay v) 1).nextInstr = some (.sys 0)) :
    runFrom (setDelay v) 0 = setDelay v ∧ (setDelay v).nextInstr = some (.ldDTVx 2) ∧
    step (setDelay v) = .next (runFrom (setDelay v) 1) ∧
    StepsWithout (fun i => ∃ x, i = .ldDTVx x) 1 (fun k => runFrom (setDelay v) (k + 1)) := by
  refine ⟨rfl, h0, runFrom_step _ 0 h1, fun k hk => ?_⟩
  have hk0 : k = 0 := by omega
  subst hk0
  refine ⟨runFrom_step _ 1 h2, ?_⟩
  rintro i hi ⟨x, rfl⟩
  exact absurd (h3.symm.trans hi) (by simp)

theorem witness_DelayTimerIsReadAndSet :
    (runFrom (setDelay 5) 0 = setDelay 5 ∧ (setDelay 5).nextInstr = some (.ldDTVx 2) ∧
      step (setDelay 5) = .next (runFrom (setDelay 5) 1) ∧
      StepsWithout (fun i => ∃ x, i = .ldDTVx x) 1 (fun k => runFrom (setDelay 5) (k + 1))) ∧
    0 < (setDelay 5).cfg.timerPeriod ∧
    (∀ k, k < 1 → (runFrom (setDelay 5) (k + 1)).now < (setDelay 5).now + (setDelay 5).cfg.timerPeriod) ∧
    (runFrom (setDelay 0) 0 = setDelay 0 ∧ (setDelay 0).nextInstr = some (.ldDTVx 2) ∧
      step (setDelay 0) = .next (runFrom (setDelay 0) 1) ∧
      StepsWithout (fun i => ∃ x, i = .ldDTVx x) 1 (fun k => runFrom (setDelay 0) (k + 1))) ∧
    (setDelay 0).reg 2 = 0 :=
  ⟨setDelay_run 5 (by decide) (by decide) (by decide) (by decide), by decide, by decide,
    setDelay_run 0 (by decide) (by decide) (by decide) (by decide), by decide⟩

theorem witness_KeyWaitHoldsUntilAKey :
    testState.cfg.wf ∧ (∀ k : Key, testState.keys[k] = false) ∧ ∃ k : Key, (press 15).keys[k] = true := by decide

/-- Either timer, with a period just over and one unit short of it. -/
theorem witness_EveryStepTicksTheTimers :
    let s : State := { testState with DT := 1, ST := 1, now := 4 }
    let s' : State := { testState with DT := 1, ST := 1, now := 3 }
    s.nextInstr = some (.sys 0) ∧ (∃ t, step s = .next t) ∧ 0 < s.DT.toNat ∧ s.lastDelayTick + s.cfg.timerPeriod ≤ s.now ∧
    0 < s.ST.toNat ∧ s.lastSoundTick + s.cfg.timerPeriod ≤ s.now ∧ (∃ t, step s' = .next t) ∧
    ¬ s'.lastDelayTick + s'.cfg.timerPeriod ≤ s'.now :=
  ⟨by decide, exists_next (by decide), by decide, by decide, by decide, by decide, exists_next (by decide), by decide⟩

/-- A run of one step, in which each timer goes from 1 to 0. -/
def decayStart : State := { testState with DT := 1, ST := 1, now := 4 }

theorem decayStart_noSet (k : Nat) (hk : k < 1) (i : Instr) (hi : (runFrom decayStart k).nextInstr = some i) : i = .sys 0 := by
  have h0 : k = 0 := by omega
  subst h0
  have h : (runFrom decayStart 0).nextInstr = some (.sys 0) := by decide
  rw [h] at hi
  exact (Option.some.inj hi).symm

theorem witness_TonesCountTheDecay :
    StepsWithout (fun i => ∃ x, i = .ldSTVx x) 1 (runFrom decayStart) ∧ (runFrom decayStart 1).ST = 0 := by
  refine ⟨fun k hk => ⟨runFrom_step _ _ ?_, ?_⟩, by decide⟩
  · have h0 : k = 0 := by omega
    subst h0
    decide
  · rintro i hi ⟨x, rfl⟩
    exact absurd (decayStart_noSet k hk _ hi) (by simp)

theorem witness_DelayDecaysNoFasterThanTime :
    StepsWithout (fun i => ∃ x, i = .ldDTVx x) 1 (runFrom decayStart) ∧ (runFrom decayStart 1).DT = 0 ∧
    (runFrom decayStart 0).DT ≠ 0 := by
  refine ⟨fun k hk => ⟨runFrom_step _ _ ?_, ?_⟩, by decide, by decide⟩
  · have h0 : k = 0 := by omega
    subst h0
    decide
  · rintro i hi ⟨x, rfl⟩
    exact absurd (decayStart_noSet k hk _ hi) (by simp)

/-- TIMER_PERIOD 2 and steps one unit apart, the first one unit after the stamp: DT = 1 is 0 after the step at time 3. -/
def inTimeStart : State := { testState with DT := 1, now := 1, cfg := { Config.standard with timerPeriod := 2 } }

theorem witness_DelayDecaysInTime :
    StepsWithout (fun i => ∃ x, i = .ldDTVx x) 3 (runFrom inTimeStart) ∧
    1 < (runFrom inTimeStart 0).cfg.timerPeriod ∧ (runFrom inTimeStart 0).now ≤ (runFrom inTimeStart 0).lastDelayTick + 1 ∧
    (∀ k, k < 2 → (runFrom inTimeStart (k + 1)).now ≤ (runFrom inTimeStart k).now + 1) ∧
    (runFrom inTimeStart 0).lastDelayTick +
      (runFrom inTimeStart 0).DT.toNat * ((runFrom inTimeStart 0).cfg.timerPeriod + 1) ≤ (runFrom inTimeStart 2).now := by
  have hg : ∀ k, k < 3 → goesOn (step (runFrom inTimeStart k)) = true := by decide
  have hn : ∀ k, k < 3 → (runFrom inTimeStart k).nextInstr = some (.sys 0) := by decide
  refine ⟨fun k hk => ⟨runFrom_step _ _ (hg k hk), ?_⟩, by decide, by decide, by decide, by decide⟩
  rintro i hi ⟨x, rfl⟩
  rw [hn k hk] at hi
  simp at hi

/-- The last byte of memory, no byte at the end of memory, and one byte too many there (T11). -/
theorem witness_LoadCopiesOrFails :
    Memory.wf busyState.cfg busyState.mem ∧ 4095 + [(1 : Byte)].length ≤ 4096 ∧ 4096 + ([] : List Byte).length ≤ 4096 ∧
    4096 < 4096 + [(1 : Byte)].length := by decide

theorem witness_ResetSetsEveryField : ∃ t, t = resetAt 7 busyState := ⟨_, rfl⟩

/-- The last font byte; a load that fits, over it, with a byte on each side, and one that does not fit; a step that stores nothing, a
step of Fx33 over the font's first bytes and one of Fx55 that ends at the last byte of memory. -/
theorem witness_ResetInstallsTheFont :
    79 < 80 ∧ Memory.wf busyState.cfg busyState.mem ∧ 79 + [(1 : Byte)].length ≤ 4096 ∧ (78 < 79 ∨ 79 + [(1 : Byte)].length ≤ 78) ∧
    (80 < 79 ∨ 79 + [(1 : Byte)].length ≤ 80) ∧ 4096 < 4096 + [(1 : Byte)].length ∧
    (testState.nextInstr = some (.sys 0) ∧ ∃ t, step testState = .next t) ∧
    (let s := testState.withFetchWord 16 0xF333
     Memory.wf s.cfg s.mem ∧ s.nextInstr = some (.ldBVx 3) ∧ ∃ t, step s = .next t) ∧
    let s := { testState with I := 0xFF0 }.withFetchWord 16 0xFF55
    Memory.wf s.cfg s.mem ∧ s.nextInstr = some (.ldMemVx 15) ∧ ∃ t, step s = .next t :=
  ⟨by decide, busy_wf, by decide, by decide, by decide, by decide, ⟨by decide, exists_next (by decide)⟩,
    ⟨by decide, by decide, exists_next (by decide)⟩, by decide, by decide, exists_next (by decide)⟩

theorem witness_FramesCoverTheState :
    Memory.wf busyState.cfg busyState.mem ∧ UnchangedBut (fun _ => False) busyState busyState :=
  ⟨busy_wf, fun p _ => by cases p <;> rfl⟩

/-- One instruction of each shape goes on; the scan order is legal, and the conditions of the skips and of the wait hold and fail. -/
theorem witness_EveryInstructionKeepsItsFrame_NextPcFollowsTheTable :
    goesOn (exec .ret busyState) = true ∧ goesOn (exec (.call 0xFFF) busyState) = true ∧ goesOn (exec (.jpV0 0xFFF) busyState) = true ∧
    goesOn (exec (.skp 0) busyState) = true ∧ goesOn (exec (.skp 0) (press 0)) = true ∧ goesOn (exec (.sknp 0) (press 0)) = true ∧
    goesOn (exec (.seImm 1 0) busyState) = true ∧ goesOn (exec (.sneReg 1 2) (regs [(1, 1)])) = true ∧
    goesOn (exec (.ldVxK 0) busyState) = true ∧ goesOn (exec (.ldVxK 0) (press 15)) = true ∧ busyState.cfg.wf ∧
    goesOn (exec (.drw 0 0 5) busyState) = true ∧ goesOn (exec (.ldMemVx 15) busyState) = true ∧
    goesOn (exec (.ldVxMem 15) busyState) = true := by decide

theorem witness_IndexLeavesMemoryOnlyByAdding :
    let s := regs [(2, 1)] { testState with I := 0xFFF }
    s.I.toNat ≤ 0xFFF ∧ see 0xF21E s (fun t => decide (0xFFF < t.I.toNat)) = some true ∧ goesOn (exec (.addIVx 2) s) = true := by
  decide

/-- The invariant holds of a machine in the middle of its work, which can step. -/
theorem witness_EveryStepKeepsTheInvariant : Inv busyState ∧ ∃ t, step busyState = .next t :=
  ⟨⟨busy_wf, by decide, by decide, by decide, by decide, by decide⟩, exists_next (by decide)⟩

theorem witness_EveryReachableStateMeetsTheInvariant :
    Inv busyState ∧ Reaches busyState (happen (happen busyState .step) (.load [1] 0xFFF)) :=
  ⟨witness_EveryStepKeepsTheInvariant.1, (Relation.ReflTransGen.single ⟨.step, rfl⟩).tail ⟨.load [1] 0xFFF, rfl⟩⟩

/-- A stack that differs in a dead entry, for a step that goes on (a RET) and one that faults. -/
theorem witness_DeadStackEntriesHaveNoEffect :
    (∀ j : Fin 16, j.val < busyState.sp.val → (busyState.stack.set 1 0)[j] = busyState.stack[j]) ∧
    (∃ t, step (busyState.withFetchWord 16 0x00EE) = .next t) ∧
    step (busyState.withFetchWord 16 0xE09E |> regs [(0, 16)]) = .fault .keyIndex :=
  ⟨by decide, exists_next (by decide), witness_FaultingStepIsAllOrNothing⟩

theorem witness_SoundTimerIsNeverRead :
    (∃ t, step decayStart = .next t) ∧ step (busyState.withFetchWord 16 0xE09E |> regs [(0, 16)]) = .fault .keyIndex :=
  ⟨exists_next (by decide), witness_FaultingStepIsAllOrNothing⟩

theorem witness_CurrentOpcodeCarriesNothing : ∃ t, step busyState = .next t := exists_next (by decide)

end Sys2Proof.Tests
end

/-! SUPPORT. The decoder against the opcode map (30_encoding.md R59). The rows of a word's own top nibble are the only ones that can match
it, and within a top nibble the decoder's tests and the map's rows go in the same order, so the two are compared test by row. -/

namespace Sys2Proof

/-! ## Rows and top nibbles -/

theorem opcodeMap_mask_top_nibble : ∀ r ∈ opcodeMap, r.mask &&& 0xF000 = 0xF000 := by decide

theorem fieldOp_pattern_of_matches {r : OpcodeRow} (hr : r ∈ opcodeMap) {w : Word} (h : w &&& r.mask = r.pattern) :
    fieldOp r.pattern = fieldOp w := by
  have htop : r.pattern &&& 0xF000 = w &&& 0xF000 := by
    rw [← h, BitVec.and_assoc, opcodeMap_mask_top_nibble r hr]
  rw [and_F000 w] at htop
  exact (mask_F000 _ _).1 htop

/-- Two rows that some word matches have patterns that agree on the bits both masks fix. -/
theorem patterns_agree_of_matches {r r' : OpcodeRow} {w : Word} (h : w &&& r.mask = r.pattern)
    (h' : w &&& r'.mask = r'.pattern) : r.pattern &&& r'.mask = r'.pattern &&& r.mask := by
  rw [← h, ← h', BitVec.and_assoc, BitVec.and_assoc, BitVec.and_comm r.mask]

/-- Only rows of top nibble 0 have patterns that agree on the bits both masks fix. -/
theorem opcodeMap_patterns_agree_only_op0 : ∀ r ∈ opcodeMap, ∀ r' ∈ opcodeMap, r ≠ r' →
    r.pattern &&& r'.mask = r'.pattern &&& r.mask → fieldOp r.pattern = 0 := by decide

/-- The rows of the opcode map whose pattern has the top nibble `op`, top to bottom. -/
def rowsOfOp (op : BitVec 4) : List OpcodeRow := opcodeMap.filter fun r => fieldOp r.pattern == op

theorem mapRow_eq_find?_rowsOfOp {w : Word} {op : BitVec 4} (h : fieldOp w = op) :
    mapRow w = (rowsOfOp op).find? fun r => w &&& r.mask == r.pattern := by
  subst h
  rw [mapRow, rowsOfOp, List.find?_filter]
  refine List.find?_congr fun r hr => ?_
  rw [Bool.eq_iff_iff]
  simpa using fieldOp_pattern_of_matches hr

/-! ## An instruction that agrees with a row -/

/-- What R59 asks of the instruction `i` decoded from `w`, given the first row of the map that matches `w`, if there is one. -/
def Instr.AgreesWith (i : Instr) (w : Word) : Option OpcodeRow → Prop
  | some r => i.mnemonic = r.mnemonic ∧ i.operands = r.format.fields w
  | none => i = .undefined w

section

variable {w : Word} {op : BitVec 4} {i j : Instr} {r : OpcodeRow} {rows : List OpcodeRow}

/-- When the first of the rows matches, it is the row to agree with. -/
theorem agreesWith_head (hrow : w &&& r.mask = r.pattern) (hi : i.AgreesWith w (some r)) :
    i.AgreesWith w ((r :: rows).find? fun r => w &&& r.mask == r.pattern) := by
  rwa [List.find?_cons_of_pos (by simpa using hrow)]

/-- A test of the decoder that asks what the first of the rows asks: its `then` answers to that row, its `else` to the others. -/
theorem ite_agreesWith_cons {c : Prop} [Decidable c] (hrow : w &&& r.mask = r.pattern ↔ c)
    (hi : i.AgreesWith w (some r)) (hj : j.AgreesWith w (rows.find? fun r => w &&& r.mask == r.pattern)) :
    (if c then i else j).AgreesWith w ((r :: rows).find? fun r => w &&& r.mask == r.pattern) := by
  split
  case isTrue hc => exact agreesWith_head (hrow.2 hc) hi
  case isFalse hc => rwa [List.find?_cons_of_neg (by simpa using mt hrow.1 hc)]

theorem match_F00F_iff (h : fieldOp w = op) (n : BitVec 4) : w &&& 0xF00F = op ++ 0#8 ++ n ↔ fieldN w = n :=
  (mask_F00F w op n).trans (and_iff_right h)

theorem match_F0FF_iff (h : fieldOp w = op) (kk : Byte) : w &&& 0xF0FF = op ++ 0#4 ++ kk ↔ fieldKK w = kk :=
  (mask_F0FF w op kk).trans (and_iff_right h)

theorem match_FFFF_iff (p : Word) : w &&& 0xFFFF = p ↔ w = p := by rw [show w &&& 0xFFFF = w from BitVec.and_allOnes]

/-! ## The families of the decoder -/

theorem decode0_agreesWith_mapRow (h : fieldOp w = 0x0) : (decode0 w).AgreesWith w (mapRow w) := by
  rw [mapRow_eq_find?_rowsOfOp h]
  exact ite_agreesWith_cons (match_FFFF_iff 0x00E0) ⟨rfl, rfl⟩ <|
    ite_agreesWith_cons (match_FFFF_iff 0x00EE) ⟨rfl, rfl⟩ <|
    agreesWith_head ((mask_F000 w 0x0).2 h) ⟨rfl, rfl⟩

theorem decode8_agreesWith_mapRow (h : fieldOp w = 0x8) : (decode8 w).AgreesWith w (mapRow w) := by
  rw [mapRow_eq_find?_rowsOfOp h]
  exact ite_agreesWith_cons (match_F00F_iff h 0x0) ⟨rfl, rfl⟩ <|
    ite_agreesWith_cons (match_F00F_iff h 0x1) ⟨rfl, rfl⟩ <|
    ite_agreesWith_cons (match_F00F_iff h 0x2) ⟨rfl, rfl⟩ <|
    ite_agreesWith_cons (match_F00F_iff h 0x3) ⟨rfl, rfl⟩ <|
    ite_agreesWith_cons (match_F00F_iff h 0x4) ⟨rfl, rfl⟩ <|
    ite_agreesWith_cons (match_F00F_iff h 0x5) ⟨rfl, rfl⟩ <|
    ite_agreesWith_cons (match_F00F_iff h 0x6) ⟨rfl, rfl⟩ <|
    ite_agreesWith_cons (match_F00F_iff h 0x7) ⟨rfl, rfl⟩ <|
    ite_agreesWith_cons (match_F00F_iff h 0xE) ⟨rfl, rfl⟩ rfl

theorem decodeE_agreesWith_mapRow (h : fieldOp w = 0xE) : (decodeE w).AgreesWith w (mapRow w) := by
  rw [mapRow_eq_find?_rowsOfOp h]
  exact ite_agreesWith_cons (match_F0FF_iff h 0x9E) ⟨rfl, rfl⟩ <|
    ite_agreesWith_cons (match_F0FF_iff h 0xA1) ⟨rfl, rfl⟩ rfl

theorem decodeF_agreesWith_mapRow (h : fieldOp w = 0xF) : (decodeF w).AgreesWith w (mapRow w) := by
  rw [mapRow_eq_find?_rowsOfOp h]
  exact ite_agreesWith_cons (match_F0FF_iff h 0x07) ⟨rfl, rfl⟩ <|
    ite_agreesWith_cons (match_F0FF_iff h 0x0A) ⟨rfl, rfl⟩ <|
    ite_agreesWith_cons (match_F0FF_iff h 0x15) ⟨rfl, rfl⟩ <|
    ite_agreesWith_cons (match_F0FF_iff h 0x18) ⟨rfl, rfl⟩ <|
    ite_agreesWith_cons (match_F0FF_iff h 0x1E) ⟨rfl, rfl⟩ <|
    ite_agreesWith_cons (match_F0FF_iff h 0x29) ⟨rfl, rfl⟩ <|
    ite_agreesWith_cons (match_F0FF_iff h 0x33) ⟨rfl, rfl⟩ <|
    ite_agreesWith_cons (match_F0FF_iff h 0x55) ⟨rfl, rfl⟩ <|
    ite_agreesWith_cons (match_F0FF_iff h 0x65) ⟨rfl, rfl⟩ rfl

/-- A top nibble with a single row, which fixes nothing else. -/
theorem agreesWith_mapRow_of_single_row (h : fieldOp w = op) (hrows : rowsOfOp op = [r]) (hmask : r.mask = 0xF000)
    (hpat : r.pattern = op ++ 0#12) (hi : i.AgreesWith w (some r)) : i.AgreesWith w (mapRow w) := by
  rw [mapRow_eq_find?_rowsOfOp h, hrows]
  exact agreesWith_head (by rw [hmask, hpat]; exact (mask_F000 w op).2 h) hi

/-- A top nibble with a single row, which fixes n to be 0. -/
theorem ite_agreesWith_mapRow_of_single_row (h : fieldOp w = op) (hrows : rowsOfOp op = [r]) (hmask : r.mask = 0xF00F)
    (hpat : r.pattern = op ++ 0#8 ++ 0#4) (hi : i.AgreesWith w (some r)) :
    (if fieldN w = 0 then i else .undefined w).AgreesWith w (mapRow w) := by
  rw [mapRow_eq_find?_rowsOfOp h, hrows]
  exact ite_agreesWith_cons (by rw [hmask, hpat]; exact match_F00F_iff h 0) hi rfl

theorem decode_agreesWith_mapRow (w : Word) : (decode w).AgreesWith w (mapRow w) := by
  obtain h | h | h | h | h | h | h | h | h | h | h | h | h | h | h | h := fieldOp_cases w
  · rw [decode_op0 h]; exact decode0_agreesWith_mapRow h
  · rw [decode_op1 h]; exact agreesWith_mapRow_of_single_row h rfl rfl rfl ⟨rfl, rfl⟩
  · rw [decode_op2 h]; exact agreesWith_mapRow_of_single_row h rfl rfl rfl ⟨rfl, rfl⟩
  · rw [decode_op3 h]; exact agreesWith_mapRow_of_single_row h rfl rfl rfl ⟨rfl, rfl⟩
  · rw [decode_op4 h]; exact agreesWith_mapRow_of_single_row h rfl rfl rfl ⟨rfl, rfl⟩
  · rw [decode_op5 h]; exact ite_agreesWith_mapRow_of_single_row h rfl rfl rfl ⟨rfl, rfl⟩
  · rw [decode_op6 h]; exact agreesWith_mapRow_of_single_row h rfl rfl rfl ⟨rfl, rfl⟩
  · rw [decode_op7 h]; exact agreesWith_mapRow_of_single_row h rfl rfl rfl ⟨rfl, rfl⟩
  · rw [decode_op8 h]; exact decode8_agreesWith_mapRow h
  · rw [decode_op9 h]; exact ite_agreesWith_mapRow_of_single_row h rfl rfl rfl ⟨rfl, rfl⟩
  · rw [decode_opA h]; exact agreesWith_mapRow_of_single_row h rfl rfl rfl ⟨rfl, rfl⟩
  · rw [decode_opB h]; exact agreesWith_mapRow_of_single_row h rfl rfl rfl ⟨rfl, rfl⟩
  · rw [decode_opC h]; exact agreesWith_mapRow_of_single_row h rfl rfl rfl ⟨rfl, rfl⟩
  · rw [decode_opD h]; exact agreesWith_mapRow_of_single_row h rfl rfl rfl ⟨rfl, rfl⟩
  · rw [decode_opE h]; exact decodeE_agreesWith_mapRow h
  · rw [decode_opF h]; exact decodeF_agreesWith_mapRow h

/-- Two different rows that some word matches are rows of top nibble 0. -/
theorem fieldOp_eq_zero_of_two_matches {r r' : OpcodeRow} (hr : r ∈ opcodeMap) (hr' : r' ∈ opcodeMap) (hne : r ≠ r')
    (h : w &&& r.mask = r.pattern) (h' : w &&& r'.mask = r'.pattern) : fieldOp w = 0 := by
  rw [← fieldOp_pattern_of_matches hr h]
  exact opcodeMap_patterns_agree_only_op0 r hr r' hr' hne (patterns_agree_of_matches h h')

end

/-- Settles O3: the decoder agrees with the first matching row, top nibble by top nibble, and two rows that overlap
have patterns that agree on their common mask, which only op-0 rows do. -/
theorem decoderFollowsTheOpcodeMap : Obligations.DecoderFollowsTheOpcodeMap := by
  unfold Obligations.DecoderFollowsTheOpcodeMap
  refine ⟨fun w => ?_, rfl, fun r hr r' hr' hne w h h' => fieldOp_eq_zero_of_two_matches hr hr' hne h h'⟩
  have hagree := decode_agreesWith_mapRow w
  split
  case h_1 r hrow => rwa [hrow] at hagree
  case h_2 hrow => rwa [hrow] at hagree

end Sys2Proof

/-! SUPPORT. Control flow without the stack (41_control_flow.md R76, R77): the op-0 words that are SYS, and the instructions that give pc a
value and do nothing else. -/

namespace Sys2Proof

/-- The two op-0 words that are an instruction of their own are told apart on all 16 bits; every other one is SYS (R76). -/
theorem decode_eq_sys {w : Word} (hop : fieldOp w = 0x0) (hcls : w ≠ 0x00E0) (hret : w ≠ 0x00EE) :
    decode w = .sys (fieldNNN w) := by
  rw [decode_op0 hop, decode0, if_neg hcls, if_neg hret]

namespace Machine

/-- Jumping changes pc only. -/
theorem State.jump_frame (s : State) (target : Word) : UnchangedBut (· = .pc) s (s.jump target) := by
  intro p hp
  cases p with
  | pc => exact absurd rfl hp
  | _ => rfl

theorem State.advance_eq_jump (s : State) : s.advance = s.jump (s.pc + 2) := rfl

/-- Advancing changes pc only. -/
theorem State.advance_frame (s : State) : UnchangedBut (· = .pc) s s.advance := by
  rw [State.advance_eq_jump]
  exact s.jump_frame _

theorem exec_sys (nnn : Addr12) (s : State) : exec (.sys nnn) s = .next s.advance := rfl

theorem exec_jp (nnn : Addr12) (s : State) : exec (.jp nnn) s = .next (s.jump (zext16 nnn)) := rfl

end Machine

open Machine

/-- Settles O10: the decoder's two tests on the whole word are all that keeps an op-0 word from being SYS, and SYS only advances. -/
theorem sysIsANoOp : Obligations.SysIsANoOp := by
  unfold Obligations.SysIsANoOp
  constructor
  · intro w htop hcls hret
    exact decode_eq_sys ((mask_F000 w 0x0).1 htop) hcls hret
  · intro s nnn
    exact ⟨s.advance, exec_sys nnn s, s.advance_pc, s.advance_frame⟩

/-- Settles O12: top nibble 1 is JP alone, and JP only jumps, to an address that zero-extension leaves the same number. -/
theorem jumpGoesToItsAddress : Obligations.JumpGoesToItsAddress := by
  unfold Obligations.JumpGoesToItsAddress
  constructor
  · intro w htop
    exact decode_op1 ((mask_F000 w 0x1).1 htop)
  · intro s nnn
    exact ⟨s.jump (zext16 nnn), exec_jp nnn s, zext16_toNat nnn, s.jump_frame _⟩

end Sys2Proof

/-! SUPPORT. The conditional skips (42_skips.md R82 to R87). Every skip is a jump by 4 or by 2, so it is settled by what its condition
says of the operands. -/

namespace Sys2Proof.Machine

theorem State.skipIf_eq_jump (s : State) (c : Bool) : s.skipIf c = s.jump (if c then s.pc + 4 else s.pc + 2) := rfl

/-- Skipping or not changes pc only. -/
theorem State.skipIf_frame (s : State) (c : Bool) : UnchangedBut (· = .pc) s (s.skipIf c) := by
  rw [State.skipIf_eq_jump]
  exact s.jump_frame _

/-- An instruction that skips on `c` skips under any condition that makes `c` true, and does not under any that makes it false. -/
theorem exec_skip {i : Instr} {s : State} {c : Bool} {skips stays : Prop} (hexec : exec i s = .next (s.skipIf c))
    (hskips : skips → c = true) (hstays : stays → c = false) :
    ∃ t, exec i s = .next t ∧ UnchangedBut (· = .pc) s t ∧ (skips → t.pc = s.pc + 4) ∧ (stays → t.pc = s.pc + 2) := by
  refine ⟨s.skipIf c, hexec, s.skipIf_frame c, fun h => ?_, fun h => ?_⟩
  · rw [State.skipIf_pc, hskips h, if_pos rfl]
  · rw [State.skipIf_pc, hstays h, if_neg Bool.false_ne_true]

/-- Comparing two bytes is comparing them as unsigned numbers. -/
theorem byte_beq_iff_toNat (a b : Byte) : (a == b) = true ↔ a.toNat = b.toNat :=
  beq_iff_eq.trans BitVec.toNat_inj.symm

theorem exec_seImm (x : RegIdx) (kk : Byte) (s : State) : exec (.seImm x kk) s = .next (s.skipIf (s.reg x == kk)) := rfl

/-- SNE skips on the complement of SE's condition on the same operands (R83). -/
theorem exec_sneImm (x : RegIdx) (kk : Byte) (s : State) : exec (.sneImm x kk) s = .next (s.skipIf !(s.reg x == kk)) := rfl

end Sys2Proof.Machine

namespace Sys2Proof

open Machine

/-- Settles O17: top nibbles 3 and 4 are SE and SNE alone, and the two skip on one comparison of bytes and on its complement. -/
theorem skipsOnAByte : Obligations.SkipsOnAByte := by
  unfold Obligations.SkipsOnAByte
  refine ⟨fun w htop => decode_op3 ((mask_F000 w 0x3).1 htop), fun w htop => decode_op4 ((mask_F000 w 0x4).1 htop), ?_⟩
  intro s x kk
  have heq : (s.reg x).toNat = kk.toNat → (s.reg x == kk) = true := (byte_beq_iff_toNat _ _).2
  have hne : (s.reg x).toNat ≠ kk.toNat → (s.reg x == kk) = false :=
    fun h => Bool.eq_false_iff.2 (mt (byte_beq_iff_toNat _ _).1 h)
  constructor
  · exact exec_skip (exec_seImm x kk s) heq hne
  · exact exec_skip (exec_sneImm x kk s) (fun h => by rw [hne h, Bool.not_false]) (fun h => by rw [heq h, Bool.not_true])

end Sys2Proof

/-! SUPPORT. The ALU instructions that write Vx alone (43_alu.md R90 to R92): each is one register write and an advance, so they differ in
the byte written only. -/

namespace Sys2Proof

/-- Under top nibble 8, n = 0 is LD Vx, Vy (R92). -/
theorem decode_eq_ldReg {w : Word} (hop : fieldOp w = 0x8) (hn : fieldN w = 0x0) : decode w = .ldReg (fieldX w) (fieldY w) := by
  rw [decode_op8 hop, decode8, if_pos hn]

namespace Machine

theorem State.reg_setReg_same (s : State) (x : RegIdx) (b : Byte) : (s.setReg x b).reg x = b := by
  rw [State.reg_setReg, if_pos rfl]

theorem exec_ldImm (x : RegIdx) (kk : Byte) (s : State) : exec (.ldImm x kk) s = .next (s.setReg x kk).advance := rfl

theorem exec_addImm (x : RegIdx) (kk : Byte) (s : State) :
    exec (.addImm x kk) s = .next (s.setReg x (s.reg x + kk)).advance := rfl

theorem exec_ldReg (x y : RegIdx) (s : State) : exec (.ldReg x y) s = .next (s.setReg x (s.reg y)).advance := rfl

/-- An instruction that writes `b` to Vx and advances leaves `b` in Vx and changes nothing but Vx and pc. -/
theorem exec_writeReg {i : Instr} {s : State} {x : RegIdx} {b : Byte} (hexec : exec i s = .next (s.setReg x b).advance) :
    ∃ t, exec i s = .next t ∧ t.reg x = b ∧ t.pc = s.pc + 2 ∧ UnchangedBut (fun p => p = .pc ∨ p = .V x) s t :=
  ⟨(s.setReg x b).advance, hexec, s.reg_setReg_same x b, State.advance_pc _, setReg_frame s x b⟩

end Machine

open Machine

/-- Settles O20: top nibbles 6 and 7, and 8 with n = 0, are the three instructions, and each of them is one write of Vx; the 8-bit sum
is the sum of the numbers mod 256. -/
theorem movesAndImmediateAdd : Obligations.MovesAndImmediateAdd := by
  unfold Obligations.MovesAndImmediateAdd
  refine ⟨fun w htop => decode_op6 ((mask_F000 w 0x6).1 htop), fun w htop => decode_op7 ((mask_F000 w 0x7).1 htop), ?_, ?_⟩
  · intro w hw
    obtain ⟨hop, hn⟩ := (mask_F00F w 0x8 0x0).1 hw
    exact decode_eq_ldReg hop hn
  intro s x y kk
  refine ⟨exec_writeReg (exec_ldImm x kk s), ?_, exec_writeReg (exec_ldReg x y s)⟩
  obtain ⟨t, hexec, hsum, hpc, hframe⟩ := exec_writeReg (exec_addImm x kk s)
  have hnat : (t.reg x).toNat = ((s.reg x).toNat + kk.toNat) % 256 := by rw [hsum, BitVec.toNat_add]
  exact ⟨t, hexec, hnat, hpc, hframe⟩

end Sys2Proof

/-! SUPPORT. The instructions that give I a value and do nothing else (44_index_memory.md R103, R105): they differ in the word written
only. -/

namespace Sys2Proof

/-- Under top nibble F, kk = 0x29 is LD F, Vx (R105). -/
theorem decode_eq_ldFVx {w : Word} (hop : fieldOp w = 0xF) (hkk : fieldKK w = 0x29) : decode w = .ldFVx (fieldX w) := by
  rw [decode_opF hop]
  simp [decodeF, hkk]

namespace Machine

/-- Writing I changes I only. -/
theorem State.setI_frame (s : State) (a : Word) : UnchangedBut (· = .I) s (s.setI a) := by
  intro p hp
  cases p with
  | I => exact absurd rfl hp
  | _ => rfl

theorem exec_ldI (nnn : Addr12) (s : State) : exec (.ldI nnn) s = .next (s.setI (zext16 nnn)).advance := rfl

theorem exec_ldFVx (x : RegIdx) (s : State) :
    exec (.ldFVx x) s = .next (s.setI (BitVec.ofNat 16 ((s.reg x).toNat * 5))).advance := rfl

/-- An instruction that writes `a` to I and advances leaves `a` in I and changes nothing but I and pc. -/
theorem exec_writeI {i : Instr} {s : State} {a : Word} (hexec : exec i s = .next (s.setI a).advance) :
    ∃ t, exec i s = .next t ∧ t.I = a ∧ t.pc = s.pc + 2 ∧ UnchangedBut (fun p => p = .pc ∨ p = .I) s t := by
  have hI := (s.setI_frame a).mono (may' := fun p => p = .pc ∨ p = .I) fun _ => .inr
  have hpc := (s.setI a).advance_frame.mono (may' := fun p => p = .pc ∨ p = .I) fun _ => .inl
  exact ⟨(s.setI a).advance, hexec, rfl, State.advance_pc _, hI.trans hpc⟩

/-- Five times a whole byte is at most 0x4FB, so it fits I with no mask on the byte (R105). -/
theorem ofNat16_byte_mul_five_toNat (b : Byte) : (BitVec.ofNat 16 (b.toNat * 5)).toNat = b.toNat * 5 := by
  have hb := b.isLt
  rw [BitVec.toNat_ofNat]
  exact Nat.mod_eq_of_lt (by omega)

end Machine

open Machine

/-- Settles O26: top nibble A, and F with kk = 0x29, are the two instructions, and each is one write of I, of a number that 16 bits hold
exactly. -/
theorem indexLoads : Obligations.IndexLoads := by
  unfold Obligations.IndexLoads
  refine ⟨fun w htop => decode_opA ((mask_F000 w 0xA).1 htop), ?_, fun s nnn x => ⟨?_, ?_⟩⟩
  · intro w hw
    obtain ⟨hop, hkk⟩ := (mask_F0FF w 0xF 0x29).1 hw
    exact decode_eq_ldFVx hop hkk
  · obtain ⟨t, hexec, hI, hpc, hframe⟩ := exec_writeI (exec_ldI nnn s)
    exact ⟨t, hexec, by rw [hI, zext16_toNat], hpc, hframe⟩
  · obtain ⟨t, hexec, hI, hpc, hframe⟩ := exec_writeI (exec_ldFVx x s)
    exact ⟨t, hexec, by rw [hI, ofNat16_byte_mul_five_toNat], hpc, hframe⟩

end Sys2Proof

/-! SUPPORT. CLS (45_display.md R111): one write of the whole framebuffer, and an advance. -/

namespace Sys2Proof

/-- The word 0x00E0 is CLS: op 0 is decided by the full 16 bits (R58). -/
theorem decode_00E0 : decode 0x00E0 = .cls := by
  have hop : fieldOp 0x00E0 = 0x0 := by decide
  rw [decode_op0 hop, decode0, if_pos rfl]

namespace Machine

/-- Replacing the framebuffer changes cells only: VF, which a draw would write, is kept. -/
theorem setDisplay_frame (s : State) (d : Display) : UnchangedBut (fun p => ∃ c, p = .cell c) s { s with display := d } := by
  intro p hp
  cases p with
  | cell c => exact absurd ⟨c, rfl⟩ hp
  | _ => rfl

theorem exec_cls (s : State) : exec .cls s = .next { s with display := Display.blank }.advance := rfl

/-- CLS changes nothing but pc and cells. -/
theorem cls_frame (s : State) :
    UnchangedBut (fun p => p = .pc ∨ ∃ c, p = .cell c) s { s with display := Display.blank }.advance := by
  have hcells := setDisplay_frame s Display.blank
  have hpc := State.advance_frame { s with display := Display.blank }
  exact (hcells.mono fun _ => .inr).trans (hpc.mono fun _ => .inl)

end Machine

open Machine

/-- Settles O34: CLS is one write of the blank framebuffer, every cell of which reads 0, and an advance. -/
theorem clearBlanksTheDisplay : Obligations.ClearBlanksTheDisplay := by
  unfold Obligations.ClearBlanksTheDisplay
  refine ⟨decode_00E0, fun s => ⟨_, exec_cls s, fun c => ?_, State.advance_pc _, cls_frame s⟩⟩
  rw [State.advance_display, Display.get_blank]

end Sys2Proof

/-! SUPPORT. The delay timer (46_timers_keys.md R117, R121, R123): the tick leaves it alone while it is idle, no instruction but Fx15
touches it, and so it holds its value over any run of steps that are idle and not Fx15. -/

namespace Sys2Proof

/-- Under top nibble F, kk = 0x07 is LD Vx, DT (R121). -/
theorem decode_eq_ldVxDT {w : Word} (hop : fieldOp w = 0xF) (hkk : fieldKK w = 0x07) : decode w = .ldVxDT (fieldX w) := by
  rw [decode_opF hop, decodeF, if_pos hkk]

/-- Under top nibble F, kk = 0x15 is LD DT, Vx (R123). -/
theorem decode_eq_ldDTVx {w : Word} (hop : fieldOp w = 0xF) (hkk : fieldKK w = 0x15) : decode w = .ldDTVx (fieldX w) := by
  rw [decode_opF hop]
  simp [decodeF, hkk]

namespace Machine

/-! ## The timer and its stamp -/

/-- The delay timer, its stamp and the parameters are the same in both states. -/
structure SameDelay (s t : State) : Prop where
  DT : t.DT = s.DT
  stamp : t.lastDelayTick = s.lastDelayTick
  cfg : t.cfg = s.cfg

theorem SameDelay.trans {s t u : State} (h : SameDelay s t) (h' : SameDelay t u) : SameDelay s u :=
  ⟨h'.DT.trans h.DT, h'.stamp.trans h.stamp, h'.cfg.trans h.cfg⟩

/-- A tick in this state leaves the delay timer: it is 0, or no period is over since its stamp (R117). -/
def DelayIdle (s : State) : Prop := s.DT = 0 ∨ s.now < s.lastDelayTick + s.cfg.timerPeriod

theorem DelayIdle.congr {s t : State} (hs : DelayIdle s) (h : SameDelay s t) (hnow : t.now = s.now) : DelayIdle t := by
  rwa [DelayIdle, h.DT, h.stamp, h.cfg, hnow]

theorem delayTick_of_idle {s : State} (hs : DelayIdle s) : delayTick s = s := by
  obtain ⟨-, htick⟩ | ⟨hDT, hover, -⟩ := delayTick_cases s
  · exact htick
  · exact (hs.elim hDT hover.not_gt).elim

theorem timerTick_sameDelay {s : State} (hs : DelayIdle s) : SameDelay s (timerTick s) := by
  rw [timerTick, delayTick_of_idle hs]
  exact ⟨soundTick_DT s, soundTick_lastDelayTick s, soundTick_cfg s⟩

theorem endStep_sameDelay {s : State} (hs : DelayIdle s) : SameDelay s (endStep s) :=
  (timerTick_sameDelay hs).trans ⟨rfl, rfl, rfl⟩

/-! ## Reading and writing it -/

/-- What Fx15 does before it advances: DT takes a byte, and its stamp the time. -/
def State.setDT (s : State) (b : Byte) : State := { s with DT := b, lastDelayTick := s.now }

theorem exec_ldVxDT (x : RegIdx) (s : State) : exec (.ldVxDT x) s = .next (s.setReg x s.DT).advance := rfl

theorem exec_ldDTVx (x : RegIdx) (s : State) : exec (.ldDTVx x) s = .next (s.setDT (s.reg x)).advance := rfl

theorem setDT_frame (s : State) (b : Byte) :
    UnchangedBut (fun p => p = .pc ∨ p = .DT ∨ p = .lastDelayTick) s (s.setDT b).advance := by
  intro p hp
  cases p with
  | pc => exact absurd (.inl rfl) hp
  | DT => exact absurd (.inr (.inl rfl)) hp
  | lastDelayTick => exact absurd (.inr (.inr rfl)) hp
  | _ => rfl

/-- A timer just set is idle when the period is above 0, its stamp being the time, and when the value is 0 (R123). -/
theorem setDT_idle {s : State} {b : Byte} (h : 0 < s.cfg.timerPeriod ∨ b = 0) : DelayIdle (s.setDT b).advance :=
  h.symm.imp id (Nat.lt_add_of_pos_right (n := s.now))

/-! ## No instruction but Fx15 touches it -/

/-- SKP and SKNP go on by skipping or not. -/
theorem exec_keySkip_next {i : Instr} {x : RegIdx} {s u : State} (hi : i = .skp x ∨ i = .sknp x) (h : exec i s = .next u) :
    ∃ c, u = s.skipIf c := by
  obtain ⟨-, hkey⟩ | ⟨k, -, hkey⟩ := keyOf_cases (s.reg x) <;> obtain rfl | rfl := hi <;>
    simp only [exec, execSkp, execSknp, hkey] at h <;> cases h
  · exact ⟨_, rfl⟩
  · exact ⟨_, rfl⟩

theorem storeBytes_next {s u : State} {a : Nat} {bs : List Byte} (h : storeBytes s a bs = .next u) :
    u = (s.pokeMany a bs).advance := by
  obtain ⟨-, hr⟩ | ⟨-, -, hr⟩ := storeBytes_cases s a bs <;> cases hr.symm.trans h
  rfl

theorem exec_ldVxMem_next {x : RegIdx} {s u : State} (h : exec (.ldVxMem x) s = .next u) :
    ∃ bs, u = (s.setRegs 0 bs).advance := by
  obtain ⟨-, hr⟩ | ⟨-, -, hr⟩ := withBytes_cases s (s.effAddr 0) (x.val + 1) fun bs => .next (s.setRegs 0 bs).advance <;>
    cases hr.symm.trans h
  exact ⟨_, rfl⟩

/-- An instruction that is not Fx15 leaves the delay timer and the time as they are. -/
theorem exec_sameDelay {i : Instr} {s u : State} (hi : ∀ x, i ≠ .ldDTVx x) (h : exec i s = .next u) :
    SameDelay s u ∧ u.now = s.now := by
  cases i with
  | ldDTVx x => exact absurd rfl (hi x)
  | ldBVx x | ldMemVx x =>
    rw [storeBytes_next h, State.pokeMany_eq]
    exact ⟨⟨rfl, rfl, rfl⟩, rfl⟩
  | ldVxMem x =>
    obtain ⟨bs, rfl⟩ := exec_ldVxMem_next h
    rw [State.setRegs_eq]
    exact ⟨⟨rfl, rfl, rfl⟩, rfl⟩
  | skp x =>
    obtain ⟨c, rfl⟩ := exec_keySkip_next (.inl rfl) h
    exact ⟨⟨rfl, rfl, rfl⟩, rfl⟩
  | sknp x =>
    obtain ⟨c, rfl⟩ := exec_keySkip_next (.inr rfl) h
    exact ⟨⟨rfl, rfl, rfl⟩, rfl⟩
  | ret =>
    obtain ⟨-, hr⟩ | ⟨j, -, hr⟩ := execRet_cases s <;> cases hr.symm.trans h
    exact ⟨⟨rfl, rfl, rfl⟩, rfl⟩
  | call nnn =>
    obtain ⟨-, hr⟩ | ⟨hsp, hr⟩ := execCall_cases nnn s <;> cases hr.symm.trans h
    exact ⟨⟨rfl, rfl, rfl⟩, rfl⟩
  | ldVxK x =>
    obtain ⟨-, hr⟩ | ⟨k, -, hr⟩ := execLdVxK_cases x s <;> cases hr.symm.trans h <;> exact ⟨⟨rfl, rfl, rfl⟩, rfl⟩
  | drw x y n =>
    obtain ⟨-, -, hr⟩ | ⟨-, ⟨-, hr⟩ | ⟨cells, -, hr⟩⟩ := execDrw_cases x y n s <;> cases hr.symm.trans h
    exact ⟨⟨rfl, rfl, rfl⟩, rfl⟩
  | _ =>
    obtain rfl := Host.Outcome.next.inj h
    exact ⟨⟨rfl, rfl, rfl⟩, rfl⟩

/-! ## Steps and runs -/

/-- A step that goes on has run the instruction that `nextInstr` names. -/
theorem step_next_exec {s t : State} (h : step s = .next t) :
    ∃ i w u, s.nextInstr = some i ∧ exec i (s.fetched w) = .next u ∧ t = endStep u := by
  obtain ⟨-, w, u, hw, hexec, ht⟩ := step_next h
  exact ⟨decode w, w, u, by rw [State.nextInstr, hw, Option.map_some], hexec, ht⟩

/-- A step of Fx15 sets the delay timer to Vx and its stamp to the step's time, and its own tick leaves both (R123). -/
theorem step_ldDTVx {s t : State} {x : RegIdx} (hi : s.nextInstr = some (.ldDTVx x)) (h : step s = .next t)
    (hidle : 0 < s.cfg.timerPeriod ∨ s.reg x = 0) : SameDelay (s.setDT (s.reg x)) t := by
  obtain ⟨i, w, u, hi', hexec, rfl⟩ := step_next_exec h
  obtain rfl := Option.some.inj (hi'.symm.trans hi)
  obtain rfl := Host.Outcome.next.inj hexec
  have hset : SameDelay (s.setDT (s.reg x)) ((s.fetched w).setDT (s.reg x)).advance := ⟨rfl, rfl, rfl⟩
  exact hset.trans (endStep_sameDelay (setDT_idle (s := s.fetched w) hidle))

/-- A step that is not Fx15, taken while the delay timer is idle, leaves it. -/
theorem step_sameDelay {s t : State} (hno : ∀ i, s.nextInstr = some i → ¬ ∃ x, i = .ldDTVx x) (h : step s = .next t)
    (hs : DelayIdle s) : SameDelay s t := by
  obtain ⟨i, w, u, hi, hexec, rfl⟩ := step_next_exec h
  have hfetch : SameDelay s (s.fetched w) := ⟨rfl, rfl, rfl⟩
  obtain ⟨hu, hnow⟩ := exec_sameDelay (fun x hx => hno i hi ⟨x, hx⟩) hexec
  have hsu := hfetch.trans hu
  exact hsu.trans (endStep_sameDelay (hs.congr hsu hnow))

/-- Over a run without Fx15, each step of which is taken while the timer as it stands at the start is idle, the timer stays as it is. -/
theorem run_sameDelay {run : Nat → State} {n : Nat} (hrun : StepsWithout (fun i => ∃ x, i = .ldDTVx x) n run)
    (hidle : ∀ k, k < n → (run 0).DT = 0 ∨ (run k).now < (run 0).lastDelayTick + (run 0).cfg.timerPeriod) :
    SameDelay (run 0) (run n) := by
  induction n with
  | zero => exact ⟨rfl, rfl, rfl⟩
  | succ n ih =>
    have hkept := ih (fun k hk => hrun k (Nat.lt_succ_of_lt hk)) fun k hk => hidle k (Nat.lt_succ_of_lt hk)
    obtain ⟨hstep, hno⟩ := hrun n n.lt_succ_self
    have hidle_n : DelayIdle (run n) := by
      rw [DelayIdle, hkept.DT, hkept.stamp, hkept.cfg]
      exact hidle n n.lt_succ_self
    exact hkept.trans (step_sameDelay hno hstep hidle_n)

end Machine

open Machine

/-- Settles O38: Fx07 and Fx15 are one write each; the timer that Fx15 sets is idle until a period is over, or for ever when the value
is 0, and an idle timer holds over every step that is not Fx15. -/
theorem delayTimerIsReadAndSet : Obligations.DelayTimerIsReadAndSet := by
  unfold Obligations.DelayTimerIsReadAndSet
  refine ⟨?_, ?_, fun s x => ⟨exec_writeReg (exec_ldVxDT x s), ?_, ?_⟩⟩
  · intro w hw
    obtain ⟨hop, hkk⟩ := (mask_F0FF w 0xF 0x07).1 hw
    exact decode_eq_ldVxDT hop hkk
  · intro w hw
    obtain ⟨hop, hkk⟩ := (mask_F0FF w 0xF 0x15).1 hw
    exact decode_eq_ldDTVx hop hkk
  · refine ⟨_, exec_ldDTVx x s, rfl, rfl, rfl, setDT_frame s _, fun hidle => ?_⟩
    have htick := timerTick_sameDelay (setDT_idle hidle)
    exact ⟨htick.DT, htick.stamp⟩
  rintro run n - hi hstep hrun
  constructor
  · intro hperiod hnow
    have hset := step_ldDTVx hi hstep (.inl hperiod)
    have hkept := run_sameDelay hrun fun k hk => .inr (by rw [hset.stamp, hset.cfg]; exact hnow k hk)
    exact (hset.trans hkept).DT
  · intro hzero
    have hset := step_ldDTVx hi hstep (.inr hzero)
    have hkept := run_sameDelay hrun fun _ _ => .inl (hset.DT.trans hzero)
    exact (hset.trans hkept).DT.trans hzero

end Sys2Proof

/-! SUPPORT. What becomes of the installed font (70_reset_and_hazards.md R146): reset lists no cell, so memory reads as its reset content;
a load that fits is a store at its origin; and an instruction that goes on stores a run of bytes from I on, empty for all but Fx33 and
Fx55. -/

namespace Sys2Proof.Machine

/-! ## Reset and load -/

theorem resetAt_peek (now : Nat) (s : State) (a : Nat) : (resetAt now s).peek a = resetByte s.cfg a := rfl

theorem resetByte_font (c : Config) {a : Nat} (h : a < 80) : resetByte c a = c.fontRom[a] := dif_pos h

section

variable {s : State} {bytes : List Byte} {origin : Nat}

theorem happen_load_of_fits (h : origin + bytes.length ≤ 4096) :
    happen s (.load bytes origin) = s.pokeMany origin bytes := by
  rw [happen, load, if_pos h]

theorem happen_load_of_too_long (h : 4096 < origin + bytes.length) : happen s (.load bytes origin) = s := by
  rw [happen, load, if_neg h.not_ge]

end

/-! ## The bytes an instruction stores -/

/-- The bytes an instruction stores, in the order of their effective addresses from I on (20_memory.md R37). -/
def storedBytes (s : State) : Instr → List Byte
  | .ldBVx x => bcdDigits (s.reg x)
  | .ldMemVx x => s.regsUpTo x
  | _ => []

/-- A byte of Fx33 or Fx55 is stored at an address that the access table names for the instruction. -/
theorem mayWrite_storedBytes {s : State} {i : Instr} {k : Nat} (hk : k < (storedBytes s i).length) :
    mayWrite s i (.byte (s.effAddr k)) := by
  cases i with
  | ldBVx x => exact .inr ⟨k, hk, rfl⟩
  | ldMemVx x =>
    have hlen : (storedBytes s (.ldMemVx x)).length = x.val + 1 := s.regsUpTo_length x
    exact .inr ⟨k, by omega, rfl⟩
  | _ => exact absurd hk k.not_lt_zero

/-- A store that goes on fitted, and memory reads as with the bytes stored. -/
theorem storeBytes_next_peek {s u : State} {a : Nat} {bs : List Byte} (h : storeBytes s a bs = .next u) :
    (bs = [] ∨ a + bs.length ≤ 4096) ∧ ∀ q, u.peek q = (s.pokeMany a bs).peek q := by
  obtain ⟨hfits, hr⟩ | ⟨-, -, hr⟩ := storeBytes_cases s a bs <;> cases hr.symm.trans h
  exact ⟨hfits, fun q => State.advance_peek _ q⟩

/-- Everything an instruction that goes on does to memory: it stores its bytes from I on, and they fitted. -/
theorem exec_next_peek {i : Instr} {s u : State} (h : exec i s = .next u) :
    (storedBytes s i = [] ∨ s.effAddr 0 + (storedBytes s i).length ≤ 4096) ∧
    ∀ q, u.peek q = (s.pokeMany (s.effAddr 0) (storedBytes s i)).peek q := by
  cases i with
  | ldBVx x | ldMemVx x => exact storeBytes_next_peek h
  | ldVxMem x =>
    obtain ⟨bs, rfl⟩ := exec_ldVxMem_next h
    exact ⟨.inl rfl, s.setRegs_peek 0 bs⟩
  | skp x =>
    obtain ⟨c, rfl⟩ := exec_keySkip_next (.inl rfl) h
    exact ⟨.inl rfl, s.skipIf_peek c⟩
  | sknp x =>
    obtain ⟨c, rfl⟩ := exec_keySkip_next (.inr rfl) h
    exact ⟨.inl rfl, s.skipIf_peek c⟩
  | ret =>
    obtain ⟨-, hr⟩ | ⟨j, -, hr⟩ := execRet_cases s <;> cases hr.symm.trans h
    exact ⟨.inl rfl, fun _ => rfl⟩
  | call nnn =>
    obtain ⟨-, hr⟩ | ⟨hsp, hr⟩ := execCall_cases nnn s <;> cases hr.symm.trans h
    exact ⟨.inl rfl, fun _ => rfl⟩
  | ldVxK x =>
    obtain ⟨-, hr⟩ | ⟨k, -, hr⟩ := execLdVxK_cases x s <;> cases hr.symm.trans h <;> exact ⟨.inl rfl, fun _ => rfl⟩
  | drw x y n =>
    obtain ⟨-, -, hr⟩ | ⟨-, ⟨-, hr⟩ | ⟨cells, -, hr⟩⟩ := execDrw_cases x y n s <;> cases hr.symm.trans h
    exact ⟨.inl rfl, fun _ => rfl⟩
  | _ =>
    obtain rfl := Host.Outcome.next.inj h
    exact ⟨.inl rfl, fun _ => rfl⟩

/-- An instruction leaves every byte that the access table does not name for it. -/
theorem exec_peek_of_not_mayWrite {i : Instr} {s u : State} {a : Nat} (h : exec i s = .next u)
    (ha : ¬ mayWrite s i (.byte a)) : u.peek a = s.peek a := by
  rw [(exec_next_peek h).2 a]
  refine State.pokeMany_peek_outside _ _ _ _ ?_
  by_contra hin
  have hstored : mayWrite s i (.byte (s.effAddr (a - s.effAddr 0))) := mayWrite_storedBytes (by omega)
  rw [s.effAddr_add, Nat.add_sub_cancel' (by omega)] at hstored
  exact ha hstored

/-- An instruction leaves the bytes it stores at their effective addresses. -/
theorem exec_peek_stored {i : Instr} {s u : State} {k : Nat} (hwf : Memory.wf s.cfg s.mem) (h : exec i s = .next u)
    (hk : k < (storedBytes s i).length) : u.peek (s.effAddr k) = (storedBytes s i)[k] := by
  obtain ⟨hfits, hmem⟩ := exec_next_peek h
  have hne : storedBytes s i ≠ [] := List.ne_nil_of_length_pos (k.zero_le.trans_lt hk)
  rw [hmem, s.effAddr_add]
  exact State.pokeMany_peek_inside hwf (hfits.resolve_left hne) k hk

/-! ## The step: neither the fetch nor what follows the instruction touches memory -/

section

variable {s t : State} {i : Instr}

theorem step_peek_of_not_mayWrite {a : Nat} (hi : s.nextInstr = some i) (h : step s = .next t)
    (ha : ¬ mayWrite s i (.byte a)) : t.peek a = s.peek a := by
  obtain ⟨j, w, u, hj, hexec, rfl⟩ := step_next_exec h
  obtain rfl := Option.some.inj (hj.symm.trans hi)
  rw [endStep_peek]
  exact exec_peek_of_not_mayWrite (s := s.fetched w) hexec ha

theorem step_peek_stored {k : Nat} (hwf : Memory.wf s.cfg s.mem) (hi : s.nextInstr = some i) (h : step s = .next t)
    (hk : k < (storedBytes s i).length) : t.peek (s.effAddr k) = (storedBytes s i)[k] := by
  obtain ⟨j, w, u, hj, hexec, rfl⟩ := step_next_exec h
  obtain rfl := Option.some.inj (hj.symm.trans hi)
  rw [endStep_peek]
  exact exec_peek_stored (s := s.fetched w) hwf hexec hk

end

theorem step_ldBVx_peek {s t : State} {x : RegIdx} (hwf : Memory.wf s.cfg s.mem) (hi : s.nextInstr = some (.ldBVx x))
    (h : step s = .next t) :
    (t.peek (s.effAddr 0)).toNat = (s.reg x).toNat / 100 ∧ (t.peek (s.effAddr 1)).toNat = (s.reg x).toNat / 10 % 10 ∧
    (t.peek (s.effAddr 2)).toNat = (s.reg x).toNat % 10 := by
  have hstored : ∀ k (hk : k < 3), t.peek (s.effAddr k) = (bcdDigits (s.reg x))[k] := fun k hk => step_peek_stored hwf hi h hk
  have hbyte : ∀ n, n < 256 → (BitVec.ofNat 8 n).toNat = n := fun n hn => by rw [BitVec.toNat_ofNat, Nat.mod_eq_of_lt hn]
  have hx := (s.reg x).isLt
  rw [hstored 0 (by decide), hstored 1 (by decide), hstored 2 (by decide)]
  exact ⟨hbyte _ (by omega), hbyte _ (by omega), hbyte _ (by omega)⟩

theorem step_ldMemVx_peek {s t : State} {x r : RegIdx} (hwf : Memory.wf s.cfg s.mem) (hi : s.nextInstr = some (.ldMemVx x))
    (h : step s = .next t) (hr : r ≤ x) : t.peek (s.effAddr r.val) = s.reg r := by
  have hlen : r.val < (s.regsUpTo x).length := by rw [State.regsUpTo_length]; exact Nat.lt_succ_of_le hr
  exact (step_peek_stored hwf hi h hlen).trans (s.getElem_regsUpTo x r.val hlen)

end Sys2Proof.Machine

namespace Sys2Proof

open Machine

/-- Settles O47: after a reset every byte is its reset content, which is the font below 80; a load is a store of its image or nothing; and
a step stores what its instruction stores, so it keeps every other byte. -/
theorem resetInstallsTheFont : Obligations.ResetInstallsTheFont := by
  unfold Obligations.ResetInstallsTheFont
  refine ⟨fun s now a h => (resetAt_peek now s a).trans (resetByte_font s.cfg h), ?_, ?_⟩
  · intro s bytes origin hwf
    refine ⟨fun hfits => ?_, fun hlong a => by rw [happen_load_of_too_long hlong]⟩
    rw [happen_load_of_fits hfits]
    exact ⟨State.pokeMany_peek_inside hwf hfits, State.pokeMany_peek_outside s origin bytes⟩
  · intro s t i hwf hi hstep
    refine ⟨fun a => step_peek_of_not_mayWrite hi hstep, ?_, ?_⟩
    · rintro x rfl
      exact step_ldBVx_peek hwf hi hstep
    · rintro x rfl r
      exact step_ldMemVx_peek hwf hi hstep

end Sys2Proof

/-! SUPPORT. The encoding round trips (30_encoding.md R54 to R60). Decoding a packed word reads its fields back, a word is the packing of
its fields, and the words of no row are said by their fields, so each round trip is one case per instruction or per test of the decoder. -/

namespace Sys2Proof

/-! ## The undefined spaces, said by fields -/

/-- The sub-opcodes n of the rows with top nibble 8. -/
def definedN8 : List (BitVec 4) := [0x0, 0x1, 0x2, 0x3, 0x4, 0x5, 0x6, 0x7, 0xE]

/-- The sub-opcodes kk of the rows with top nibble E. -/
def definedKKE : List Byte := [0x9E, 0xA1]

/-- The sub-opcodes kk of the rows with top nibble F. -/
def definedKKF : List Byte := [0x07, 0x0A, 0x15, 0x18, 0x1E, 0x29, 0x33, 0x55, 0x65]

/-- A word of no row has one of the five top nibbles with a sub-opcode, and a sub-opcode of no row under it (R60). -/
theorem undefinedWord_iff (w : Word) : undefinedWord w = true ↔
    (fieldOp w = 0x5 ∧ fieldN w ≠ 0) ∨ (fieldOp w = 0x9 ∧ fieldN w ≠ 0) ∨ (fieldOp w = 0x8 ∧ fieldN w ∉ definedN8) ∨
    (fieldOp w = 0xE ∧ fieldKK w ∉ definedKKE) ∨ (fieldOp w = 0xF ∧ fieldKK w ∉ definedKKF) := by
  have hn8 : ∀ n : BitVec 4, [0x8, 0x9, 0xA, 0xB, 0xC, 0xD, 0xF].contains n.toNat = true ↔ n ∉ definedN8 := by decide
  simp only [undefinedWord, ← fieldOp_toNat, ← fieldN_toNat, ← fieldKK_toNat, Bool.or_eq_true, Bool.and_eq_true, hn8]
  simp [← BitVec.toNat_inj, definedKKE, definedKKF, or_assoc]

theorem decode_of_undefinedWord {w : Word} (h : undefinedWord w = true) : decode w = .undefined w := by
  obtain ⟨hop, hn⟩ | ⟨hop, hn⟩ | ⟨hop, hn⟩ | ⟨hop, hkk⟩ | ⟨hop, hkk⟩ := (undefinedWord_iff w).1 h
  · rw [decode_op5 hop, if_neg hn]
  · rw [decode_op9 hop, if_neg hn]
  · rw [decode_op8 hop]; simp_all [definedN8, decode8]
  · rw [decode_opE hop]; simp_all [definedKKE, decodeE]
  · rw [decode_opF hop]; simp_all [definedKKF, decodeF]

/-! ## Decoding an encoded instruction -/

theorem decode_packNNN_sys {nnn : Addr12} (hcls : nnn ≠ 0x0E0) (hret : nnn ≠ 0x0EE) : decode (packNNN 0x0 nnn) = .sys nnn := by
  have hfield := fieldNNN_packNNN 0x0 nnn
  have hne : ∀ {v : Word}, nnn ≠ fieldNNN v → packNNN 0x0 nnn ≠ v := fun h hv => h (by rw [← hv, hfield])
  rw [decode_eq_sys (fieldOp_packNNN 0x0 nnn) (hne hcls) (hne hret), hfield]

/-- Reading the fields of a packed word back gives the operands it was packed from. -/
theorem decode_encode {i : Instr} (h : i.wf = true) : decode (encode i) = i := by
  cases i with
  | cls | ret => decide
  | sys nnn =>
    simp only [Instr.wf, Bool.and_eq_true, bne_iff_ne] at h
    exact decode_packNNN_sys h.1 h.2
  | undefined w => exact decode_of_undefinedWord h
  | ldReg | or | and | xor | addReg | sub | shr | subn | shl => simp [encode, decode, decode8]
  | skp | sknp => simp [encode, decode, decodeE]
  | ldVxDT | ldVxK | ldDTVx | ldSTVx | addIVx | ldFVx | ldBVx | ldMemVx | ldVxMem => simp [encode, decode, decodeF]
  | _ => simp [encode, decode]

theorem decodeBytes_bytesOfWord (w : Word) (rest : List Byte) : decodeBytes (bytesOfWord w ++ rest) = .ok (decode w, rest) := by
  simp only [bytesOfWord, List.cons_append, List.nil_append, decodeBytes, wordOfBytes_bytesOfWord]

/-! ## Encoding a decoded word -/

section

variable {w : Word} {op : BitVec 4}

theorem packNNN_of_fields (hop : fieldOp w = op) : packNNN op (fieldNNN w) = w := by
  rw [← hop, packNNN_fields]

theorem packXKK_of_fieldOp (hop : fieldOp w = op) : packXKK op (fieldX w) (fieldKK w) = w := by
  rw [← hop, packXKK_fields]

theorem packXKK_of_fields {kk : Byte} (hop : fieldOp w = op) (hkk : fieldKK w = kk) : packXKK op (fieldX w) kk = w := by
  rw [← hop, ← hkk, packXKK_fields]

theorem packXYN_of_fields {n : BitVec 4} (hop : fieldOp w = op) (hn : fieldN w = n) :
    packXYN op (fieldX w) (fieldY w) n = w := by
  rw [← hop, ← hn, packXYN_fields]

end

/-- The instruction stands for the word `w` and is well formed. -/
def Instr.StandsFor (i : Instr) (w : Word) : Prop := i.wf = true ∧ encode i = w

theorem undefined_standsFor {w : Word} (h : undefinedWord w = true) : (Instr.undefined w).StandsFor w := ⟨h, rfl⟩

theorem decode0_standsFor {w : Word} (hop : fieldOp w = 0x0) : (decode0 w).StandsFor w := by
  have hw := packNNN_of_fields hop
  unfold decode0
  split_ifs with hcls hret
  · exact ⟨rfl, hcls.symm⟩
  · exact ⟨rfl, hret.symm⟩
  · refine ⟨?_, hw⟩
    have hne : ∀ {nnn : Addr12}, w ≠ packNNN 0x0 nnn → fieldNNN w ≠ nnn := fun h hn => h (by rw [← hn, hw])
    simp only [Instr.wf, Bool.and_eq_true, bne_iff_ne]
    exact ⟨hne hcls, hne hret⟩

theorem decode8_standsFor {w : Word} (hop : fieldOp w = 0x8) : (decode8 w).StandsFor w := by
  unfold decode8
  split_ifs with h0 h1 h2 h3 h4 h5 h6 h7 hE
  · exact ⟨rfl, packXYN_of_fields hop h0⟩
  · exact ⟨rfl, packXYN_of_fields hop h1⟩
  · exact ⟨rfl, packXYN_of_fields hop h2⟩
  · exact ⟨rfl, packXYN_of_fields hop h3⟩
  · exact ⟨rfl, packXYN_of_fields hop h4⟩
  · exact ⟨rfl, packXYN_of_fields hop h5⟩
  · exact ⟨rfl, packXYN_of_fields hop h6⟩
  · exact ⟨rfl, packXYN_of_fields hop h7⟩
  · exact ⟨rfl, packXYN_of_fields hop hE⟩
  · exact undefined_standsFor ((undefinedWord_iff w).2 (by simp_all [definedN8]))

theorem decodeE_standsFor {w : Word} (hop : fieldOp w = 0xE) : (decodeE w).StandsFor w := by
  unfold decodeE
  split_ifs with h9E hA1
  · exact ⟨rfl, packXKK_of_fields hop h9E⟩
  · exact ⟨rfl, packXKK_of_fields hop hA1⟩
  · exact undefined_standsFor ((undefinedWord_iff w).2 (by simp_all [definedKKE]))

theorem decodeF_standsFor {w : Word} (hop : fieldOp w = 0xF) : (decodeF w).StandsFor w := by
  unfold decodeF
  split_ifs with h07 h0A h15 h18 h1E h29 h33 h55 h65
  · exact ⟨rfl, packXKK_of_fields hop h07⟩
  · exact ⟨rfl, packXKK_of_fields hop h0A⟩
  · exact ⟨rfl, packXKK_of_fields hop h15⟩
  · exact ⟨rfl, packXKK_of_fields hop h18⟩
  · exact ⟨rfl, packXKK_of_fields hop h1E⟩
  · exact ⟨rfl, packXKK_of_fields hop h29⟩
  · exact ⟨rfl, packXKK_of_fields hop h33⟩
  · exact ⟨rfl, packXKK_of_fields hop h55⟩
  · exact ⟨rfl, packXKK_of_fields hop h65⟩
  · exact undefined_standsFor ((undefinedWord_iff w).2 (by simp_all [definedKKF]))

/-- A top nibble whose only row fixes n to be 0: the other words are undefined. -/
theorem ite_fieldN_standsFor {w : Word} {i : Instr} (hop : fieldOp w = 0x5 ∨ fieldOp w = 0x9)
    (hi : fieldN w = 0 → i.StandsFor w) : (if fieldN w = 0 then i else .undefined w).StandsFor w := by
  split_ifs with hn
  · exact hi hn
  · exact undefined_standsFor ((undefinedWord_iff w).2 (hop.imp (⟨·, hn⟩) (.inl ⟨·, hn⟩)))

theorem decode_standsFor (w : Word) : (decode w).StandsFor w := by
  obtain h | h | h | h | h | h | h | h | h | h | h | h | h | h | h | h := fieldOp_cases w
  · rw [decode_op0 h]; exact decode0_standsFor h
  · rw [decode_op1 h]; exact ⟨rfl, packNNN_of_fields h⟩
  · rw [decode_op2 h]; exact ⟨rfl, packNNN_of_fields h⟩
  · rw [decode_op3 h]; exact ⟨rfl, packXKK_of_fieldOp h⟩
  · rw [decode_op4 h]; exact ⟨rfl, packXKK_of_fieldOp h⟩
  · rw [decode_op5 h]; exact ite_fieldN_standsFor (.inl h) fun hn => ⟨rfl, packXYN_of_fields h hn⟩
  · rw [decode_op6 h]; exact ⟨rfl, packXKK_of_fieldOp h⟩
  · rw [decode_op7 h]; exact ⟨rfl, packXKK_of_fieldOp h⟩
  · rw [decode_op8 h]; exact decode8_standsFor h
  · rw [decode_op9 h]; exact ite_fieldN_standsFor (.inr h) fun hn => ⟨rfl, packXYN_of_fields h hn⟩
  · rw [decode_opA h]; exact ⟨rfl, packNNN_of_fields h⟩
  · rw [decode_opB h]; exact ⟨rfl, packNNN_of_fields h⟩
  · rw [decode_opC h]; exact ⟨rfl, packXKK_of_fieldOp h⟩
  · rw [decode_opD h]; exact ⟨rfl, packXYN_of_fields h rfl⟩
  · rw [decode_opE h]; exact decodeE_standsFor h
  · rw [decode_opF h]; exact decodeF_standsFor h

/-- Settles O1: a packed word gives its fields back, and the two bytes of a word put together are the word. -/
theorem encodedInstructionsDecodeToThemselves : Obligations.EncodedInstructionsDecodeToThemselves := by
  unfold Obligations.EncodedInstructionsDecodeToThemselves
  intro i rest hwf
  refine ⟨decode_encode hwf, ?_⟩
  rw [encodeBytes, decodeBytes_bytesOfWord, decode_encode hwf]

/-- Settles O2: each arm of the decoder answers a well-formed instruction whose word packs the fields the arm read; an undefined answer is
well formed only in the undefined spaces, and those decode to it. -/
theorem everyWordIsTheWordOfItsInstruction : Obligations.EveryWordIsTheWordOfItsInstruction := by
  unfold Obligations.EveryWordIsTheWordOfItsInstruction
  intro w
  obtain ⟨hwf, hword⟩ := decode_standsFor w
  refine ⟨hwf, hword, decode_of_undefinedWord, fun h => ?_⟩
  rwa [h] at hwf

/-- Settles O4: ten fixed words, evaluated. -/
theorem wordsFromTheSpecDecode : Obligations.WordsFromTheSpecDecode := by
  unfold Obligations.WordsFromTheSpecDecode
  decide

end Sys2Proof

/-! SUPPORT. What an instruction writes and when it stops (10_state.md R15 to R30, 60_exceptions.md R126). Frames are built write by write,
so an instruction's frame follows its meaning; what the access tables name for no instruction, every instruction keeps. -/

namespace Sys2Proof.Machine

/-! ## Frames, built write by write -/

theorem UnchangedBut.refl (may : Part → Prop) (s : State) : UnchangedBut may s s := fun p _ => by cases p <;> rfl

section

variable {may : Part → Prop} {s t : State}

theorem UnchangedBut.advance (h : UnchangedBut may s t) (hpc : may .pc) : UnchangedBut may s t.advance :=
  h.trans (t.advance_frame.mono fun _ hp => hp ▸ hpc)

theorem setReg_changes (s : State) (x : RegIdx) (b : Byte) : UnchangedBut (· = .V x) s (s.setReg x b) := by
  intro p hp
  cases p with
  | V y => exact (s.reg_setReg x y b).trans (if_neg fun h => hp (by rw [h]))
  | _ => rfl

theorem UnchangedBut.setReg (h : UnchangedBut may s t) {x : RegIdx} (hx : may (.V x)) (b : Byte) :
    UnchangedBut may s (t.setReg x b) :=
  h.trans ((setReg_changes t x b).mono fun _ hp => hp ▸ hx)

theorem UnchangedBut.setVF (h : UnchangedBut may s t) (hF : may (.V regF)) (b : Byte) : UnchangedBut may s (t.setVF b) :=
  h.setReg hF b

theorem UnchangedBut.setI (h : UnchangedBut may s t) (hI : may .I) (a : Word) : UnchangedBut may s (t.setI a) :=
  h.trans ((t.setI_frame a).mono fun _ hp => hp ▸ hI)

end

/-! ## The frames of the meanings that write more than one part -/

/-- A flag instruction writes Vx, VF and pc, in either order of the registers (43_alu.md R89). -/
theorem regThenFlag_frame (s : State) (x : RegIdx) (b f : Byte) :
    UnchangedBut (fun p => p = .pc ∨ p = .V x ∨ p = .V regF) s ((s.setReg x b).setVF f).advance :=
  (((UnchangedBut.refl _ s).setReg (.inr (.inl rfl)) b).setVF (.inr (.inr rfl)) f).advance (.inl rfl)

theorem flagThenReg_frame (s : State) (x : RegIdx) (b f : Byte) :
    UnchangedBut (fun p => p = .pc ∨ p = .V x ∨ p = .V regF) s ((s.setVF f).setReg x b).advance :=
  (((UnchangedBut.refl _ s).setVF (.inr (.inr rfl)) f).setReg (.inr (.inl rfl)) b).advance (.inl rfl)

theorem addIVx_frame (s : State) (a : Word) (f : Byte) :
    UnchangedBut (fun p => p = .pc ∨ p = .I ∨ p = .V regF) s ((s.setI a).setVF f).advance :=
  (((UnchangedBut.refl _ s).setI (.inr (.inl rfl)) a).setVF (.inr (.inr rfl)) f).advance (.inl rfl)

theorem drw_frame (s : State) (d : Display) (f : Byte) :
    UnchangedBut (fun p => p = .pc ∨ p = .V regF ∨ ∃ c, p = .cell c) s ({ s with display := d }.setVF f).advance :=
  (((setDisplay_frame s d).mono fun _ hp => .inr (.inr hp)).setVF (.inr (.inl rfl)) f).advance (.inl rfl)

theorem ret_frame (s : State) (sp : Fin 17) (pc : Word) :
    UnchangedBut (fun p => p = .pc ∨ p = .sp) s { s with sp := sp, pc := pc } := by
  intro p hp
  cases p with
  | pc => exact absurd (.inl rfl) hp
  | sp => exact absurd (.inr rfl) hp
  | _ => rfl

theorem call_frame (s : State) (j : Fin 16) (entry : Word) (sp : Fin 17) (pc : Word) :
    UnchangedBut (fun p => p = .pc ∨ p = .sp ∨ p = .stack j) s
      { s with stack := s.stack.set j.val entry, sp := sp, pc := pc } := by
  intro p hp
  cases p with
  | pc => exact absurd (.inl rfl) hp
  | sp => exact absurd (.inr (.inl rfl)) hp
  | stack k =>
    have hne : j.val ≠ k.val := fun h => hp (.inr (.inr (by rw [Fin.ext h])))
    exact Vector.getElem_set_ne j.isLt k.isLt hne
  | _ => rfl

/-- Storing bytes from I on and advancing changes pc and the bytes at their effective addresses only. -/
theorem storeAtI_frame (s : State) (bs : List Byte) :
    UnchangedBut (fun p => p = .pc ∨ ∃ k, k < bs.length ∧ p = .byte (s.effAddr k)) s (s.pokeMany (s.effAddr 0) bs).advance := by
  refine (pokeMany_frame s (s.effAddr 0) bs).mono fun p hp => hp.imp_right ?_
  rintro ⟨k, hk, rfl⟩
  exact ⟨k, hk, by rw [s.effAddr_add k]⟩

theorem exec_ldVxMem_loads {x : RegIdx} {s u : State} (h : exec (.ldVxMem x) s = .next u) :
    u = (s.setRegs 0 (s.peekMany (s.effAddr 0) (x.val + 1))).advance := by
  obtain ⟨-, hr⟩ | ⟨-, -, hr⟩ := withBytes_cases s (s.effAddr 0) (x.val + 1) fun bs => .next (s.setRegs 0 bs).advance <;>
    cases hr.symm.trans h
  rfl

theorem loadRegs_frame (s : State) (x : RegIdx) (a : Nat) :
    UnchangedBut (fun p => p = .pc ∨ ∃ r : RegIdx, r ≤ x ∧ p = .V r) s (s.setRegs 0 (s.peekMany a (x.val + 1))).advance := by
  refine (setRegs_frame s _).mono fun p hp => hp.imp_right ?_
  rintro ⟨r, hr, rfl⟩
  rw [State.peekMany_length] at hr
  exact ⟨r, Nat.le_of_lt_succ hr, rfl⟩

theorem ldSTVx_frame (s : State) (b : Byte) :
    UnchangedBut (fun p => p = .pc ∨ p = .ST ∨ p = .lastSoundTick) s { s with ST := b, lastSoundTick := s.now }.advance := by
  intro p hp
  cases p with
  | pc => exact absurd (.inl rfl) hp
  | ST => exact absurd (.inr (.inl rfl)) hp
  | lastSoundTick => exact absurd (.inr (.inr rfl)) hp
  | _ => rfl

/-! ## The frame of every instruction -/

/-- An instruction that goes on keeps every part that the access tables do not name for it. -/
theorem exec_frame {i : Instr} {s u : State} (h : exec i s = .next u) : UnchangedBut (mayWrite s i) s u := by
  cases i with
  | cls => cases h; exact cls_frame s
  | ret =>
    obtain ⟨-, hr⟩ | ⟨j, -, hr⟩ := execRet_cases s <;> cases hr.symm.trans h
    exact ret_frame s _ _
  | sys | undefined => cases h; exact s.advance_frame
  | jp | jpV0 => cases h; exact s.jump_frame _
  | call nnn =>
    obtain ⟨-, hr⟩ | ⟨hsp, hr⟩ := execCall_cases nnn s <;> cases hr.symm.trans h
    refine (call_frame s ⟨s.sp.val, hsp⟩ _ _ _).mono fun p hp => ?_
    exact hp.imp_right (Or.imp_right fun hj => ⟨_, hj, rfl⟩)
  | seImm | sneImm | seReg | sneReg => cases h; exact s.skipIf_frame _
  | skp x =>
    obtain ⟨c, rfl⟩ := exec_keySkip_next (.inl rfl) h
    exact s.skipIf_frame c
  | sknp x =>
    obtain ⟨c, rfl⟩ := exec_keySkip_next (.inr rfl) h
    exact s.skipIf_frame c
  | ldImm x | addImm x | ldReg x | or x | and x | xor x | rnd x | ldVxDT x => cases h; exact setReg_frame s x _
  | addReg x => cases h; exact regThenFlag_frame s x _ _
  | sub x | shr x | subn x | shl x => cases h; exact flagThenReg_frame s x _ _
  | ldI | ldFVx => cases h; exact ((UnchangedBut.refl _ s).setI (.inr rfl) _).advance (.inl rfl)
  | addIVx => cases h; exact addIVx_frame s _ _
  | drw x y n =>
    obtain ⟨-, -, hr⟩ | ⟨-, ⟨-, hr⟩ | ⟨cells, -, hr⟩⟩ := execDrw_cases x y n s <;> cases hr.symm.trans h
    exact drw_frame s _ _
  | ldVxK x =>
    obtain ⟨-, hr⟩ | ⟨k, -, hr⟩ := execLdVxK_cases x s <;> cases hr.symm.trans h
    · exact UnchangedBut.refl _ s
    · exact setReg_frame s x _
  | ldDTVx => cases h; exact setDT_frame s _
  | ldSTVx => cases h; exact ldSTVx_frame s _
  | ldBVx x => rw [storeBytes_next h]; exact storeAtI_frame s (bcdDigits (s.reg x))
  | ldMemVx x =>
    rw [storeBytes_next h]
    refine (storeAtI_frame s _).mono fun p hp => hp.imp_right ?_
    rintro ⟨k, hk, rfl⟩
    rw [s.regsUpTo_length] at hk
    exact ⟨k, Nat.le_of_lt_succ hk, rfl⟩
  | ldVxMem x => rw [exec_ldVxMem_loads h]; exact loadRegs_frame s x _

section

variable {i : Instr} {s u : State}

/-- The parts that no instruction writes: the host's, the parameters, and what only the step itself writes. -/
def Part.Outer (p : Part) : Prop :=
  p = .currentOpcode ∨ p = .fault ∨ p = .now ∨ p = .draw ∨ p = .tones ∨ p = .inputs ∨ p = .turn ∨ p = .cfg ∨ ∃ k, p = .key k

theorem Part.Outer.not_mayWrite {p : Part} (hp : p.Outer) : ¬ mayWrite s i p := by
  obtain rfl | rfl | rfl | rfl | rfl | rfl | rfl | rfl | ⟨k, rfl⟩ := hp <;> cases i <;> simp [mayWrite]

theorem exec_currentOpcode (h : exec i s = .next u) : u.currentOpcode = s.currentOpcode :=
  exec_frame h .currentOpcode (Part.Outer.not_mayWrite (by simp [Part.Outer]))

theorem exec_now (h : exec i s = .next u) : u.now = s.now :=
  exec_frame h .now (Part.Outer.not_mayWrite (by simp [Part.Outer]))

theorem exec_tones (h : exec i s = .next u) : u.tones = s.tones :=
  exec_frame h .tones (Part.Outer.not_mayWrite (by simp [Part.Outer]))

theorem exec_inputs (h : exec i s = .next u) : u.inputs = s.inputs :=
  exec_frame h .inputs (Part.Outer.not_mayWrite (by simp [Part.Outer]))

theorem exec_turn (h : exec i s = .next u) : u.turn = s.turn :=
  exec_frame h .turn (Part.Outer.not_mayWrite (by simp [Part.Outer]))

theorem exec_cfg (h : exec i s = .next u) : u.cfg = s.cfg :=
  exec_frame h .cfg (Part.Outer.not_mayWrite (by simp [Part.Outer]))

end

/-! ## When an instruction stops -/

/-- The fault table of 60_exceptions.md R126: the kinds an instruction can raise in a state. -/
def MayFault (s : State) (i : Instr) (k : Fault) : Prop :=
  (k = .memBounds ∧ ∃ x, (∃ y n, i = .drw x y n) ∨ i = .ldBVx x ∨ i = .ldMemVx x ∨ i = .ldVxMem x) ∨
  (k = .displayBounds ∧ ∃ x y n, i = .drw x y n) ∨
  (k = .stackOverflow ∧ s.sp.val = 16 ∧ ∃ nnn, i = .call nnn) ∨
  (k = .stackUnderflow ∧ s.sp.val = 0 ∧ i = .ret) ∨
  (k = .keyIndex ∧ ∃ x, 15 < (s.reg x).toNat ∧ (i = .skp x ∨ i = .sknp x))

/-- A result that is as the fault table allows: it goes on, or faults with a kind of the table. -/
def AsTheFaultTable (s : State) (i : Instr) (r : Result) : Prop := (∃ u, r = .next u) ∨ ∃ k, r = .fault k ∧ MayFault s i k

theorem storeBytes_asTheFaultTable {s : State} {x : RegIdx} {i : Instr} (hi : i = .ldBVx x ∨ i = .ldMemVx x) (a : Nat)
    (bs : List Byte) : AsTheFaultTable s i (storeBytes s a bs) := by
  obtain ⟨-, hr⟩ | ⟨-, -, hr⟩ := storeBytes_cases s a bs
  · exact .inl ⟨_, hr⟩
  · exact .inr ⟨_, hr, .inl ⟨rfl, x, .inr (or_assoc.1 (.inl hi))⟩⟩

theorem exec_keySkip_asTheFaultTable {s : State} {x : RegIdx} {i : Instr} (hi : i = .skp x ∨ i = .sknp x) :
    AsTheFaultTable s i (exec i s) := by
  obtain ⟨hbig, hkey⟩ | ⟨k, -, hkey⟩ := keyOf_cases (s.reg x)
  · refine .inr ⟨.keyIndex, ?_, .inr (.inr (.inr (.inr ⟨rfl, x, hbig, hi⟩)))⟩
    obtain rfl | rfl := hi <;> simp only [exec, execSkp, execSknp, hkey]
  · left
    obtain rfl | rfl := hi <;> simp only [exec, execSkp, execSknp, hkey] <;> exact ⟨_, rfl⟩

theorem exec_asTheFaultTable (i : Instr) (s : State) : AsTheFaultTable s i (exec i s) := by
  cases i with
  | ret =>
    obtain ⟨hsp, hr⟩ | ⟨j, -, hr⟩ := execRet_cases s
    · exact .inr ⟨_, hr, .inr (.inr (.inr (.inl ⟨rfl, congrArg Fin.val hsp, rfl⟩)))⟩
    · exact .inl ⟨_, hr⟩
  | call nnn =>
    obtain ⟨hsp, hr⟩ | ⟨_, hr⟩ := execCall_cases nnn s
    · exact .inr ⟨_, hr, .inr (.inr (.inl ⟨rfl, hsp, nnn, rfl⟩))⟩
    · exact .inl ⟨_, hr⟩
  | skp x => exact exec_keySkip_asTheFaultTable (.inl rfl)
  | sknp x => exact exec_keySkip_asTheFaultTable (.inr rfl)
  | drw x y n =>
    obtain ⟨-, -, hr⟩ | ⟨-, ⟨-, hr⟩ | ⟨cells, -, hr⟩⟩ := execDrw_cases x y n s
    · exact .inr ⟨_, hr, .inl ⟨rfl, x, .inl ⟨y, n, rfl⟩⟩⟩
    · exact .inr ⟨_, hr, .inr (.inl ⟨rfl, x, y, n, rfl⟩)⟩
    · exact .inl ⟨_, hr⟩
  | ldBVx x => exact storeBytes_asTheFaultTable (.inl rfl) _ _
  | ldMemVx x => exact storeBytes_asTheFaultTable (.inr rfl) _ _
  | ldVxMem x =>
    obtain ⟨-, hr⟩ | ⟨-, -, hr⟩ := withBytes_cases s (s.effAddr 0) (x.val + 1) fun bs => .next (s.setRegs 0 bs).advance
    · exact .inl ⟨_, hr⟩
    · exact .inr ⟨_, hr, .inl ⟨rfl, x, .inr (.inr (.inr rfl))⟩⟩
  | _ => exact .inl ⟨_, rfl⟩

/-! ## The step, from its parts -/

section

variable {s : State} {w : Word}

theorem step_of_fault {k : Fault} (h : s.fault = some k) : step s = .fault k := by simp only [step, h]

theorem step_of_no_fetch (hf : s.fault = none) (hw : fetchWord s = none) : step s = .fault .fetchBounds := by
  simp only [step, hf, hw]

theorem step_of_exec_next {u : State} (hf : s.fault = none) (hw : fetchWord s = some w)
    (h : exec (decode w) (s.fetched w) = .next u) : step s = .next (endStep u) := by simp only [step, hf, hw, h]

theorem step_of_exec_fault {k : Fault} (hf : s.fault = none) (hw : fetchWord s = some w)
    (h : exec (decode w) (s.fetched w) = .fault k) : step s = .fault k := by simp only [step, hf, hw, h]

theorem step_of_exec_refused {r : Refusal} (hf : s.fault = none) (hw : fetchWord s = some w)
    (h : exec (decode w) (s.fetched w) = .refused r) : step s = .refused r := by simp only [step, hf, hw, h]

end

theorem happen_step_of_fault {s : State} {k : Fault} (h : step s = .fault k) : happen s .step = recordFault s k := by
  simp only [happen, h]

theorem recordFault_frame (s : State) (k : Fault) : UnchangedBut (· = .fault) s (recordFault s k) := by
  intro p hp
  cases p with
  | fault => exact absurd rfl hp
  | _ => rfl

theorem nextInput_of_scheduled {s : State} {i : HostInput} {rest : List HostInput} (h : s.inputs = i :: rest) :
    nextInput s = i := by
  simp only [nextInput, h]

theorem nextInput_of_none {s : State} (h : s.inputs = []) : nextInput s = Config.hostInput s.turn := by
  simp only [nextInput, h]

/-- A step that goes on ends with the host's turn, in a state with the parameters, the time and the schedule it began with. -/
theorem step_hostTurn {s t : State} (h : step s = .next t) :
    ∃ v, t = hostTurn v ∧ v.cfg = s.cfg ∧ v.now = s.now ∧ v.inputs = s.inputs ∧ v.turn = s.turn := by
  obtain ⟨-, w, u, -, hexec, rfl⟩ := step_next h
  exact ⟨timerTick u, rfl, by simp [exec_cfg hexec], by simp [exec_now hexec], by simp [exec_inputs hexec],
    by simp [exec_turn hexec]⟩

end Sys2Proof.Machine

namespace Sys2Proof

open Machine

/-- Settles O49: write by write, each meaning keeps within the access table. -/
theorem everyInstructionKeepsItsFrame : Obligations.EveryInstructionKeepsItsFrame := by
  unfold Obligations.EveryInstructionKeepsItsFrame
  exact fun _ _ _ => exec_frame

/-- Settles O8: every result is as the fault table allows, so none is a refusal and a fault is of a kind the table names. -/
theorem onlyTheNamedInstructionsFault : Obligations.OnlyTheNamedInstructionsFault := by
  unfold Obligations.OnlyTheNamedInstructionsFault
  intro i s
  obtain ⟨u, hu⟩ | ⟨k, hk, hmay⟩ := exec_asTheFaultTable i s
  · simp [hu]
  · refine ⟨fun r hr => by simp [hk] at hr, fun k' hk' => ?_⟩
    obtain rfl := Host.Outcome.fault.inj (hk.symm.trans hk')
    exact hmay

/-- Settles O5: the bytes at pc are the word the fetch gives, and it is the word of the instruction it decodes to (R60). -/
theorem stepRunsTheDecodedInstruction : Obligations.StepRunsTheDecodedInstruction := by
  unfold Obligations.StepRunsTheDecodedInstruction
  intro s i hf hpc hbytes
  obtain ⟨w, hword⟩ : ∃ w, wordOfBytes (s.peek s.pc.toNat) (s.peek (s.pc.toNat + 1)) = w := ⟨_, rfl⟩
  have hw : fetchWord s = some w := (fetchWord_eq_some s w).2 ⟨hpc, hword⟩
  obtain rfl : decode w = i := by simpa [decodeBytes, hword] using hbytes
  rw [(decode_standsFor w).2]
  cases hexec : exec (decode w) (s.fetched w) with
  | next u => exact step_of_exec_next hf hw hexec
  | fault k => exact step_of_exec_fault hf hw hexec
  | refused r => exact step_of_exec_refused hf hw hexec

/-- Settles O6: the fetch gives the two bytes at pc, the first in the high byte, and nothing from 0xFFF on. -/
theorem fetchIsBigEndianOrFaults : Obligations.FetchIsBigEndianOrFaults := by
  unfold Obligations.FetchIsBigEndianOrFaults
  intro s
  refine ⟨fun hpc => ⟨_, (fetchWord_eq_some s _).2 ⟨hpc, rfl⟩, wordOfBytes_toNat _ _⟩, fun hf hpc => ?_⟩
  exact step_of_no_fetch hf ((fetchWord_eq_none s).2 hpc)

/-- Settles O7: a faulting step only records its fault, and a recorded fault is answered again. -/
theorem faultingStepIsAllOrNothing : Obligations.FaultingStepIsAllOrNothing := by
  unfold Obligations.FaultingStepIsAllOrNothing
  intro s k hstep
  have hagain : step (recordFault s k) = .fault k := step_of_fault (recordFault_fault s k)
  rw [happen_step_of_fault hstep]
  exact ⟨recordFault_frame s k, rfl, hagain, happen_step_of_fault hagain, rfl⟩

/-- Settles O9: what the host's turn finds of parameters, time and schedule is what the step began with. -/
theorem nextInputsArriveAfterTheStep : Obligations.NextInputsArriveAfterTheStep := by
  unfold Obligations.NextInputsArriveAfterTheStep
  intro s t hstep
  obtain ⟨v, rfl, hcfg, hnow, hinputs, hturn⟩ := step_hostTurn hstep
  refine ⟨hcfg, ?_, fun i rest hs => ?_, fun hs => ?_⟩
  · rw [hostTurn_now, hnow]
    exact Nat.le_add_right _ _
  · simp [nextInput_of_scheduled (hinputs.trans hs), hinputs, hs, hnow, hturn]
  · simp [nextInput_of_none (hinputs.trans hs), hinputs, hs, hnow, hturn]

/-- Settles O57: the fetch overwrites `current_opcode` before the instruction runs, and no instruction writes it. -/
theorem currentOpcodeCarriesNothing : Obligations.CurrentOpcodeCarriesNothing := by
  unfold Obligations.CurrentOpcodeCarriesNothing
  refine fun s w => ⟨rfl, fun t hstep => ?_⟩
  obtain ⟨-, w', u, hw, hexec, rfl⟩ := step_next hstep
  rw [endStep_currentOpcode, exec_currentOpcode hexec, State.fetched_currentOpcode, hw]

end Sys2Proof

/-! SUPPORT. The next pc (40_cycle.md R69), the bound on I, and the invariant of the machine (10_state.md R20, R35): each part of the
invariant is kept by every instruction, the tick and the host's turn keep them all, and so does every event. -/

namespace Sys2Proof.Machine

/-! ## The key scan -/

section

variable {s : State}

theorem mem_keyScanOrder (hwf : s.cfg.wf) (k : Key) : k ∈ s.cfg.keyScanOrder := hwf.1.mem_iff.2 (List.mem_finRange k)

theorem scanKeys_eq_none_iff (hwf : s.cfg.wf) : s.scanKeys = none ↔ ∀ k : Key, s.keys[k] = false := by
  rw [State.scanKeys, List.find?_eq_none]
  refine ⟨fun h k => Bool.eq_false_iff.2 (h k (mem_keyScanOrder hwf k)), fun h k _ => ?_⟩
  rw [State.pressed, h k]
  exact Bool.false_ne_true

theorem pressed_of_scanKeys {k : Key} (h : s.scanKeys = some k) : s.keys[k] = true :=
  List.find?_some (p := s.pressed) h

end

/-! ## The next pc -/

/-- V0 + nnn is at most 0x10FE, so 16 bits hold it exactly (41_control_flow.md R79). -/
theorem zextByte_add_zext16_toNat (b : Byte) (nnn : Addr12) : (zextByte b + zext16 nnn).toNat = b.toNat + nnn.toNat := by
  have hb := b.isLt
  have hn := nnn.isLt
  rw [BitVec.toNat_add, zextByte_toNat, zext16_toNat]
  exact Nat.mod_eq_of_lt (by omega)

/-- Skipping on the complement of `c`. -/
theorem State.skipIf_not_pc (s : State) (c : Bool) : (s.skipIf !c).pc = if c = true then s.pc + 2 else s.pc + 4 := by
  cases c <;> rfl

/-- SKP and SKNP that go on skip by the flag of the key that Vx names. -/
theorem exec_skp_next {x : RegIdx} {s u : State} (h : exec (.skp x) s = .next u) :
    ∃ k : Key, k.val = (s.reg x).toNat ∧ u = s.skipIf (s.pressed k) := by
  obtain ⟨-, hkey⟩ | ⟨k, hk, hkey⟩ := keyOf_cases (s.reg x) <;> simp only [exec, execSkp, hkey] at h <;> cases h
  exact ⟨k, hk, rfl⟩

theorem exec_sknp_next {x : RegIdx} {s u : State} (h : exec (.sknp x) s = .next u) :
    ∃ k : Key, k.val = (s.reg x).toNat ∧ u = s.skipIf (!s.pressed k) := by
  obtain ⟨-, hkey⟩ | ⟨k, hk, hkey⟩ := keyOf_cases (s.reg x) <;> simp only [exec, execSknp, hkey] at h <;> cases h
  exact ⟨k, hk, rfl⟩

theorem exec_ldVxK_pc {x : RegIdx} {s u : State} (h : exec (.ldVxK x) s = .next u) (hwf : s.cfg.wf) :
    u.pc = if ∃ k : Key, s.keys[k] = true then s.pc + 2 else s.pc := by
  obtain ⟨hnone, hr⟩ | ⟨k, hsome, hr⟩ := execLdVxK_cases x s <;> cases hr.symm.trans h
  · rw [if_neg]
    rintro ⟨k, hk⟩
    rw [(scanKeys_eq_none_iff hwf).1 hnone k] at hk
    exact Bool.false_ne_true hk
  · rw [if_pos ⟨k, pressed_of_scanKeys hsome⟩]
    rfl

end Sys2Proof.Machine

namespace Sys2Proof

open Machine

/-- Settles O50: each meaning writes pc once; the targets are exact as numbers, and each skip's flag is its condition. -/
theorem nextPcFollowsTheTable : Obligations.NextPcFollowsTheTable := by
  unfold Obligations.NextPcFollowsTheTable
  intro i s u h
  cases i with
  | ret =>
    obtain ⟨-, hr⟩ | ⟨j, hj, hr⟩ := execRet_cases s <;> cases hr.symm.trans h
    exact ⟨j, hj, rfl⟩
  | jp nnn => cases h; exact zext16_toNat nnn
  | call nnn =>
    obtain ⟨-, hr⟩ | ⟨_, hr⟩ := execCall_cases nnn s <;> cases hr.symm.trans h
    exact zext16_toNat nnn
  | jpV0 nnn => cases h; exact zextByte_add_zext16_toNat _ nnn
  | seImm | seReg => cases h; simp
  | sneImm | sneReg => cases h; rw [bne, State.skipIf_not_pc]; simp
  | skp x =>
    obtain ⟨k, hk, rfl⟩ := exec_skp_next h
    exact ⟨k, hk, rfl⟩
  | sknp x =>
    obtain ⟨k, hk, rfl⟩ := exec_sknp_next h
    exact ⟨k, hk, s.skipIf_not_pc _⟩
  | ldVxK x => exact exec_ldVxK_pc h
  | drw x y n =>
    obtain ⟨-, -, hr⟩ | ⟨-, ⟨-, hr⟩ | ⟨cells, -, hr⟩⟩ := execDrw_cases x y n s <;> cases hr.symm.trans h
    rfl
  | ldBVx x | ldMemVx x => simp [storeBytes_next h]
  | ldVxMem x => simp [exec_ldVxMem_loads h]
  | _ => cases h; rfl


/-- Settles O51: Annn and Fx29 write numbers below 0x1000, Fx1E flags what it writes, and no other instruction writes I. -/
theorem indexLeavesMemoryOnlyByAdding : Obligations.IndexLeavesMemoryOnlyByAdding := by
  unfold Obligations.IndexLeavesMemoryOnlyByAdding
  intro i s u h hs hu
  cases i with
  | ldI nnn =>
    cases h
    rw [State.advance_I, State.setI_I, zext16_toNat] at hu
    exact absurd nnn.isLt (by omega)
  | ldFVx x =>
    cases h
    rw [State.advance_I, State.setI_I, ofNat16_byte_mul_five_toNat] at hu
    exact absurd (s.reg x).isLt (by omega)
  | addIVx x =>
    cases h
    have hsum : 0xFFF < s.I.toNat + (s.reg x).toNat := by
      rw [State.advance_I, State.setVF_I, State.setI_I, BitVec.toNat_ofNat] at hu
      exact hu.trans_le (Nat.mod_le _ _)
    exact ⟨x, rfl, hsum, by simp [pastRange, flagByte, hsum]⟩
  | _ =>
    have hI : u.I = s.I := exec_frame h .I (by simp [mayWrite])
    exact absurd hu (by rw [hI]; exact hs.not_gt)

end Sys2Proof

namespace Sys2Proof.Machine

/-! ## The parts of the invariant, kept by every instruction -/

section

variable {i : Instr} {s u : State}

/-- A skip, a jump and an advance from a fetchable address, and a return past a fetchable one, stay below the bound of R20. -/
theorem exec_pc_le (h : exec i s = .next u) (hpc : s.pc.toNat ≤ 0xFFE) (hcfg : s.cfg.wf)
    (hlive : ∀ j : Fin 16, j.val < s.sp.val → s.stack[j].toNat ≤ 0xFFE) : u.pc.toNat ≤ 0x10FE := by
  have htable := nextPcFollowsTheTable i s u h
  have hby2 : ∀ w : Word, w.toNat ≤ 0xFFE → (w + 2).toNat ≤ 0x10FE := fun w hw => by bv_omega
  have hby4 : (s.pc + 4).toNat ≤ 0x10FE := by bv_omega
  have hskip : ∀ c : Prop, ∀ [Decidable c], (u.pc = if c then s.pc + 4 else s.pc + 2) → u.pc.toNat ≤ 0x10FE := by
    intro c _ hu
    rw [hu]
    split_ifs
    · exact hby4
    · exact hby2 _ hpc
  have hnskip : ∀ c : Prop, ∀ [Decidable c], (u.pc = if c then s.pc + 2 else s.pc + 4) → u.pc.toNat ≤ 0x10FE :=
    fun c _ hu => hskip (¬ c) (by rw [hu, ite_not])
  cases i with
  | ret =>
    obtain ⟨j, hj, hu⟩ := htable
    rw [hu]
    exact hby2 _ (hlive j (by omega))
  | jp nnn | call nnn =>
    rw [show u.pc.toNat = nnn.toNat from htable]
    have := nnn.isLt
    omega
  | jpV0 nnn =>
    rw [show u.pc.toNat = (s.reg 0).toNat + nnn.toNat from htable]
    have := nnn.isLt
    have := (s.reg 0).isLt
    omega
  | seImm | seReg => exact hskip _ htable
  | sneImm | sneReg => exact hnskip _ htable
  | skp =>
    obtain ⟨k, -, hu⟩ := htable
    exact hskip _ hu
  | sknp =>
    obtain ⟨k, -, hu⟩ := htable
    exact hnskip _ hu
  | ldVxK =>
    rw [htable hcfg]
    split_ifs
    · exact hby2 _ hpc
    · omega
  | _ =>
    rw [show u.pc = s.pc + 2 from htable]
    exact hby2 _ hpc

/-- A call makes its own address live, a return makes an entry dead, and no other instruction touches the stack. -/
theorem exec_liveEntries (h : exec i s = .next u) (hpc : s.pc.toNat ≤ 0xFFE)
    (hlive : ∀ j : Fin 16, j.val < s.sp.val → s.stack[j].toNat ≤ 0xFFE) :
    ∀ j : Fin 16, j.val < u.sp.val → u.stack[j].toNat ≤ 0xFFE := by
  intro j hj
  cases i with
  | ret =>
    obtain ⟨-, hr⟩ | ⟨k, hk, hr⟩ := execRet_cases s <;> cases hr.symm.trans h
    exact hlive j (hj.trans (by simp only; omega))
  | call nnn =>
    obtain ⟨-, hr⟩ | ⟨hsp, hr⟩ := execCall_cases nnn s <;> cases hr.symm.trans h
    simp only [Fin.getElem_fin, Vector.getElem_set]
    split_ifs with hjs
    · exact hpc
    · exact hlive j (by simp only at hj; omega)
  | _ =>
    have hsp : u.sp = s.sp := exec_frame h .sp (by simp [mayWrite])
    have hentry : u.stack[j] = s.stack[j] := exec_frame h (.stack j) (by simp [mayWrite])
    rw [hentry]
    exact hlive j (hsp ▸ hj)

theorem exec_delayStamp (h : exec i s = .next u) (hstamp : s.lastDelayTick ≤ s.now) : u.lastDelayTick ≤ u.now := by
  cases i with
  | ldDTVx => cases h; exact le_refl _
  | _ =>
    have hkept : u.lastDelayTick = s.lastDelayTick := exec_frame h .lastDelayTick (by simp [mayWrite])
    rwa [hkept, exec_now h]

theorem exec_soundStamp (h : exec i s = .next u) (hstamp : s.lastSoundTick ≤ s.now) : u.lastSoundTick ≤ u.now := by
  cases i with
  | ldSTVx => cases h; exact le_refl _
  | _ =>
    have hkept : u.lastSoundTick = s.lastSoundTick := exec_frame h .lastSoundTick (by simp [mayWrite])
    rwa [hkept, exec_now h]

theorem storeBytes_memory_wf {a : Nat} {bs : List Byte} (h : storeBytes s a bs = .next u) (hwf : Memory.wf s.cfg s.mem) :
    Memory.wf u.cfg u.mem := by
  obtain ⟨hfits, hr⟩ | ⟨-, -, hr⟩ := storeBytes_cases s a bs <;> cases hr.symm.trans h
  exact State.pokeMany_wf hwf hfits

/-- Only Fx33 and Fx55 write memory, and a store that goes on stays below 4096. -/
theorem exec_memory_wf (h : exec i s = .next u) (hwf : Memory.wf s.cfg s.mem) : Memory.wf u.cfg u.mem := by
  cases i with
  | ldBVx | ldMemVx => exact storeBytes_memory_wf h hwf
  | ldVxMem =>
    rw [exec_ldVxMem_loads h, State.setRegs_eq]
    exact hwf
  | skp =>
    obtain ⟨k, -, rfl⟩ := exec_skp_next h
    exact hwf
  | sknp =>
    obtain ⟨k, -, rfl⟩ := exec_sknp_next h
    exact hwf
  | ret =>
    obtain ⟨-, hr⟩ | ⟨k, hk, hr⟩ := execRet_cases s <;> cases hr.symm.trans h
    exact hwf
  | call nnn =>
    obtain ⟨-, hr⟩ | ⟨_, hr⟩ := execCall_cases nnn s <;> cases hr.symm.trans h
    exact hwf
  | ldVxK x =>
    obtain ⟨-, hr⟩ | ⟨k, -, hr⟩ := execLdVxK_cases x s <;> cases hr.symm.trans h <;> exact hwf
  | drw x y n =>
    obtain ⟨-, -, hr⟩ | ⟨-, ⟨-, hr⟩ | ⟨cells, -, hr⟩⟩ := execDrw_cases x y n s <;> cases hr.symm.trans h
    exact hwf
  | _ => cases h; exact hwf

/-- An instruction run at a fetchable address keeps the invariant. -/
theorem Inv.exec (hs : Inv s) (hpc : s.pc.toNat ≤ 0xFFE) (h : exec i s = .next u) : Inv u where
  memory := exec_memory_wf h hs.memory
  config := by rw [exec_cfg h]; exact hs.config
  pcBound := exec_pc_le h hpc hs.config hs.liveEntries
  liveEntries := exec_liveEntries h hpc hs.liveEntries
  delayStamp := exec_delayStamp h hs.delayStamp
  soundStamp := exec_soundStamp h hs.soundStamp

end

/-! ## The rest of the step, and the other events -/

/-- A stamp that the tick writes is the time. -/
theorem timerTick_lastDelayTick_le {s : State} (h : s.lastDelayTick ≤ s.now) : (timerTick s).lastDelayTick ≤ s.now := by
  rw [timerTick, soundTick_lastDelayTick]
  obtain ⟨-, htick⟩ | ⟨-, -, htick⟩ := delayTick_cases s <;> rw [htick]
  exact h

theorem timerTick_lastSoundTick_le {s : State} (h : s.lastSoundTick ≤ s.now) : (timerTick s).lastSoundTick ≤ s.now := by
  rw [timerTick, (soundTick_delayTick s).2.1]
  obtain ⟨-, htick⟩ | ⟨-, -, htick⟩ := soundTick_cases s <;> rw [htick]
  exact h

theorem Inv.endStep {s : State} (hs : Inv s) : Inv (endStep s) where
  memory := by simpa using hs.memory
  config := by simpa using hs.config
  pcBound := by simpa using hs.pcBound
  liveEntries := by simpa using hs.liveEntries
  delayStamp := by
    rw [endStep_lastDelayTick, endStep_now]
    exact (timerTick_lastDelayTick_le hs.delayStamp).trans (Nat.le_add_right _ _)
  soundStamp := by
    rw [endStep_lastSoundTick, endStep_now]
    exact (timerTick_lastSoundTick_le hs.soundStamp).trans (Nat.le_add_right _ _)

theorem Inv.fetched {s : State} (hs : Inv s) (w : Word) : Inv (s.fetched w) :=
  ⟨hs.memory, hs.config, hs.pcBound, hs.liveEntries, hs.delayStamp, hs.soundStamp⟩

theorem Inv.step {s t : State} (hs : Inv s) (h : step s = .next t) : Inv t := by
  obtain ⟨-, w, u, hw, hexec, rfl⟩ := step_next h
  exact ((hs.fetched w).exec ((fetchWord_eq_some s w).1 hw).1 hexec).endStep

theorem Inv.recordFault {s : State} (hs : Inv s) (k : Fault) : Inv (recordFault s k) :=
  ⟨hs.memory, hs.config, hs.pcBound, hs.liveEntries, hs.delayStamp, hs.soundStamp⟩

/-- A reset gives the invariant whatever the state was, if its parameters are legal: memory lists nothing and no entry is live. -/
theorem inv_resetAt {s : State} (hcfg : s.cfg.wf) (now : Nat) : Inv (resetAt now s) where
  memory := Memory.wf_nil _
  config := hcfg
  pcBound := by simp [resetAt]
  liveEntries := fun j hj => absurd hj j.val.not_lt_zero
  delayStamp := le_refl _
  soundStamp := le_refl _

theorem Inv.load {s : State} (hs : Inv s) (bytes : List Byte) (origin : Nat) : Inv (happen s (.load bytes origin)) := by
  by_cases hfits : origin + bytes.length ≤ 4096
  · rw [happen_load_of_fits hfits]
    have hmem := State.pokeMany_wf hs.memory (.inr hfits)
    rw [State.pokeMany_eq] at hmem ⊢
    exact ⟨hmem, hs.config, hs.pcBound, hs.liveEntries, hs.delayStamp, hs.soundStamp⟩
  · rw [happen_load_of_too_long (Nat.lt_of_not_le hfits)]
    exact hs

theorem Inv.happen {s : State} (hs : Inv s) (e : Event) : Inv (happen s e) := by
  cases e with
  | step =>
    cases hstep : Machine.step s with
    | next t => simpa only [Machine.happen, hstep] using hs.step hstep
    | fault k => rw [happen_step_of_fault hstep]; exact hs.recordFault k
    | refused r => simpa only [Machine.happen, hstep] using hs
  | reset => exact inv_resetAt hs.config s.now
  | load bytes origin => exact hs.load bytes origin
  | keys | draw => exact ⟨hs.memory, hs.config, hs.pcBound, hs.liveEntries, hs.delayStamp, hs.soundStamp⟩
  | wait elapsed =>
    exact ⟨hs.memory, hs.config, hs.pcBound, hs.liveEntries, hs.delayStamp.trans (Nat.le_add_right _ _),
      hs.soundStamp.trans (Nat.le_add_right _ _)⟩

theorem standard_wf : Config.standard.wf := ⟨List.Perm.refl _, Nat.le_add_left _ _⟩

theorem reset_eq_resetAt : State.reset = resetAt 0 State.reset := rfl

end Sys2Proof.Machine

namespace Sys2Proof

open Machine

/-- Settles O52: `State.reset` is a reset, and the standard parameters are legal. -/
theorem invariantHoldsAtReset : Obligations.InvariantHoldsAtReset := by
  unfold Obligations.InvariantHoldsAtReset
  rw [reset_eq_resetAt]
  exact inv_resetAt standard_wf 0

/-- Settles O53: the instruction was fetched, so its own pc is at most 0xFFE; from there it keeps each part of the invariant, and so do
the tick and the host's turn. -/
theorem everyStepKeepsTheInvariant : Obligations.EveryStepKeepsTheInvariant := by
  unfold Obligations.EveryStepKeepsTheInvariant
  exact fun _ _ => Inv.step

/-- Settles O54: every event keeps the invariant, so every chain of events does. -/
theorem everyReachableStateMeetsTheInvariant : Obligations.EveryReachableStateMeetsTheInvariant := by
  unfold Obligations.EveryReachableStateMeetsTheInvariant
  intro s t hs hreach
  induction hreach with
  | refl => exact hs
  | tail _ hevent ih =>
    obtain ⟨e, rfl⟩ := hevent
    exact ih.happen e

end Sys2Proof

/-! SUPPORT. What no instruction reads (10_state.md R24, 41_control_flow.md R74): an instruction that touches neither the stack nor the
sound timer treats alike a state in which these are rewritten, and what CALL, RET, Fx18 and the tick do keeps dead entries and the sound
timer apart from the rest. -/

namespace Sys2Proof.Machine

/-! ## CALL and RET by the number of live entries -/

section

variable {s : State} {j : Fin 16}

theorem exec_ret_of_live (h : s.sp.val = j.val + 1) :
    exec .ret s = .next { s with sp := ⟨j.val, by omega⟩, pc := s.stack[j] + 2 } := by
  obtain ⟨hsp, -⟩ | ⟨k, hk, hr⟩ := execRet_cases s
  · rw [hsp] at h
    exact absurd h (by simp)
  · obtain rfl : k = j := Fin.ext (by omega)
    exact hr

theorem exec_ret_of_empty (h : s.sp.val = 0) : exec .ret s = .fault .stackUnderflow := by
  obtain ⟨-, hr⟩ | ⟨k, hk, -⟩ := execRet_cases s
  · exact hr
  · omega

theorem exec_call_of_free (nnn : Addr12) (h : s.sp.val = j.val) :
    exec (.call nnn) s =
      .next { s with stack := s.stack.set j.val s.pc, sp := ⟨j.val + 1, by omega⟩, pc := zext16 nnn } := by
  obtain ⟨hsp, -⟩ | ⟨_, hr⟩ := execCall_cases nnn s
  · omega
  · simp only [h] at hr
    exact hr

theorem exec_call_of_full (nnn : Addr12) (h : s.sp.val = 16) : exec (.call nnn) s = .fault .stackOverflow := by
  obtain ⟨-, hr⟩ | ⟨hsp, -⟩ := execCall_cases nnn s
  · exact hr
  · omega

end

/-! ## Rewriting the stack entries and the sound timer -/

/-- New values, each made of the old one, for what only CALL, RET and Fx18 touch: the stack entries, ST, its stamp and the tones. -/
structure Rewrite where
  stack : Vector Word 16 → Vector Word 16 := id
  ST : Byte → Byte := id
  stamp : Nat → Nat := id
  tones : Nat → Nat := id

def State.rewrite (s : State) (f : Rewrite) : State :=
  { s with stack := f.stack s.stack, ST := f.ST s.ST, lastSoundTick := f.stamp s.lastSoundTick, tones := f.tones s.tones }

/-- A result whose next state, if there is one, is rewritten. -/
def rewriteResult (f : Rewrite) : Result → Result
  | .next u => .next (u.rewrite f)
  | .fault k => .fault k
  | .refused r => .refused r

section

variable (s : State) (f : Rewrite)

@[simp] theorem rewrite_reg (x : RegIdx) : (s.rewrite f).reg x = s.reg x := rfl

@[simp] theorem rewrite_scanKeys : (s.rewrite f).scanKeys = s.scanKeys := rfl

theorem rewrite_pokeMany (a : Nat) (bs : List Byte) : (s.rewrite f).pokeMany a bs = (s.pokeMany a bs).rewrite f := by
  induction bs generalizing s a with
  | nil => rfl
  | cons b bs ih => exact ih (s.poke a b) (a + 1)

theorem rewrite_setRegs (k : Nat) (bs : List Byte) : (s.rewrite f).setRegs k bs = (s.setRegs k bs).rewrite f := by
  induction bs generalizing s k with
  | nil => rfl
  | cons b bs ih => exact ih { s with V := s.V.setIfInBounds k b } (k + 1)

theorem rewrite_peekMany (a n : Nat) : (s.rewrite f).peekMany a n = s.peekMany a n := by
  induction n generalizing a with
  | zero => rfl
  | succ n ih => exact congrArg (s.peek a :: ·) (ih (a + 1))

theorem storeBytes_rewrite (a : Nat) (bs : List Byte) :
    storeBytes (s.rewrite f) a bs = rewriteResult f (storeBytes s a bs) := by
  unfold storeBytes
  rw [rewrite_pokeMany]
  split_ifs <;> rfl

/-- A bounded read of the rewritten state goes on with the same bytes. -/
theorem withBytes_rewrite (a n : Nat) {go go' : List Byte → Result} (hgo : ∀ bs, go' bs = rewriteResult f (go bs)) :
    withBytes (s.rewrite f) a n go' = rewriteResult f (withBytes s a n go) := by
  unfold withBytes
  rw [rewrite_peekMany, hgo]
  split_ifs <;> rfl

/-- Every instruction but CALL, RET and Fx18 does to the rewritten state what it does to the state. -/
theorem exec_rewrite {i : Instr} (hret : i ≠ .ret) (hcall : ∀ nnn, i ≠ .call nnn) (hST : ∀ x, i ≠ .ldSTVx x) :
    exec i (s.rewrite f) = rewriteResult f (exec i s) := by
  cases i with
  | ret => exact absurd rfl hret
  | call nnn => exact absurd rfl (hcall nnn)
  | ldSTVx x => exact absurd rfl (hST x)
  | ldBVx | ldMemVx => exact storeBytes_rewrite s f _ _
  | ldVxMem =>
    simp only [exec, execLdVxMem]
    refine withBytes_rewrite s f _ _ fun bs => ?_
    rw [rewrite_setRegs]
    rfl
  | drw x y =>
    simp only [exec, execDrw, rewrite_reg]
    refine withBytes_rewrite s f _ _ fun rows => ?_
    cases cellsAt (spritePlaces (s.reg x).toNat (s.reg y).toNat rows) <;> rfl
  | skp x | sknp x =>
    simp only [exec, execSkp, execSknp, rewrite_reg]
    cases keyOf (s.reg x) <;> rfl
  | ldVxK =>
    simp only [exec, execLdVxK, rewrite_scanKeys]
    cases s.scanKeys <;> rfl
  | _ => rfl

theorem delayTick_rewrite : delayTick (s.rewrite f) = (delayTick s).rewrite f := by
  simp only [delayTick, apply_ite (State.rewrite · f)]
  rfl

theorem hostTurn_rewrite : hostTurn (s.rewrite f) = (hostTurn s).rewrite f := rfl

end

/-! ## Results that are alike -/

/-- Both results are the same fault, or both are next states and `R` holds of them. -/
def Alike (R : State → State → Prop) : Result → Result → Prop
  | .next u, .next u' => R u u'
  | .fault k, .fault k' => k = k'
  | _, _ => False

section

variable {R : State → State → Prop} {s s' : State} {f : Rewrite}

theorem Alike.fault {r r' : Result} {k : Fault} (h : Alike R r r') (hr : r = .fault k) : r' = .fault k := by
  subst hr
  cases r' with
  | fault k' => exact congrArg _ (Eq.symm h)
  | next u | refused r => exact h.elim

theorem Alike.next {r r' : Result} {u : State} (h : Alike R r r') (hr : r = .next u) : ∃ u', r' = .next u' ∧ R u u' := by
  subst hr
  cases r' with
  | next u' => exact ⟨u', rfl, h⟩
  | fault k | refused r => exact h.elim

theorem alike_of_fault {r r' : Result} {k : Fault} (h : r = .fault k) (h' : r' = .fault k) : Alike R r r' := by
  subst h h'
  exact rfl

theorem alike_of_next {r r' : Result} {u u' : State} (h : r = .next u) (h' : r' = .next u') (hR : R u u') : Alike R r r' := by
  subst h h'
  exact hR

/-- An instruction that rewriting does not disturb. -/
theorem exec_alike_of_unread {i : Instr} (hret : i ≠ .ret) (hcall : ∀ nnn, i ≠ .call nnn) (hST : ∀ x, i ≠ .ldSTVx x)
    (hR : ∀ u, exec i s = .next u → R u (u.rewrite f)) : Alike R (exec i s) (exec i (s.rewrite f)) := by
  rw [exec_rewrite s f hret hcall hST]
  cases hexec : exec i s with
  | next u => exact hR u hexec
  | fault k => exact rfl
  | refused r => exact absurd hexec ((onlyTheNamedInstructionsFault i s).1 r)

/-- Steps from two states that fetch alike are alike when every instruction is and what follows the instruction keeps `R`. -/
theorem step_alike (hfault : s'.fault = s.fault) (hfetch : fetchWord s' = fetchWord s)
    (hexec : ∀ i w, Alike R (exec i (s.fetched w)) (exec i (s'.fetched w)))
    (hend : ∀ u u', R u u' → R (endStep u) (endStep u')) : Alike R (step s) (step s') := by
  cases hf : s.fault with
  | some k => exact alike_of_fault (step_of_fault hf) (step_of_fault (hfault.trans hf))
  | none =>
    have hf' := hfault.trans hf
    cases hw : fetchWord s with
    | none => exact alike_of_fault (step_of_no_fetch hf hw) (step_of_no_fetch hf' (hfetch.trans hw))
    | some w =>
      have hw' := hfetch.trans hw
      have halike := hexec (decode w) w
      cases hr : exec (decode w) (s.fetched w) with
      | next u =>
        obtain ⟨u', hr', hR⟩ := halike.next hr
        exact alike_of_next (step_of_exec_next hf hw hr) (step_of_exec_next hf' hw' hr') (hend u u' hR)
      | fault k => exact alike_of_fault (step_of_exec_fault hf hw hr) (step_of_exec_fault hf' hw' (halike.fault hr))
      | refused r => exact absurd hr ((onlyTheNamedInstructionsFault _ _).1 r)

end

/-! ## Dead stack entries -/

/-- The stack rewritten to this one. -/
def toStack (stack : Vector Word 16) : Rewrite := { stack := fun _ => stack }

/-- The stack has the state's live entries. -/
def HasLiveEntries (s : State) (stack : Vector Word 16) : Prop := ∀ j : Fin 16, j.val < s.sp.val → stack[j] = s.stack[j]

theorem HasLiveEntries.congr {s t : State} {stack : Vector Word 16} (h : HasLiveEntries s stack) (hsp : t.sp = s.sp)
    (hstack : ∀ j : Fin 16, t.stack[j] = s.stack[j]) : HasLiveEntries t stack :=
  fun j hj => (h j (hsp ▸ hj)).trans (hstack j).symm

/-- The states differ in dead stack entries at most. -/
def SameButDeadEntries (s s' : State) : Prop := ∃ stack, s' = s.rewrite (toStack stack) ∧ HasLiveEntries s stack

section

variable {s : State} {stack : Vector Word 16}

theorem exec_ret_deadEntries (hs : HasLiveEntries s stack) :
    Alike SameButDeadEntries (exec .ret s) (exec .ret (s.rewrite (toStack stack))) := by
  obtain ⟨hsp, hr⟩ | ⟨j, hj, hr⟩ := execRet_cases s
  · exact alike_of_fault hr (exec_ret_of_empty (congrArg Fin.val hsp))
  · have hr' := exec_ret_of_live (s := s.rewrite (toStack stack)) hj
    have htop : (s.rewrite (toStack stack)).stack[j] = s.stack[j] := hs j (by omega)
    rw [htop] at hr'
    exact alike_of_next hr hr' ⟨stack, rfl, fun k hk => hs k (by simp only at hk; omega)⟩

theorem exec_call_deadEntries (nnn : Addr12) (hs : HasLiveEntries s stack) :
    Alike SameButDeadEntries (exec (.call nnn) s) (exec (.call nnn) (s.rewrite (toStack stack))) := by
  obtain ⟨hsp, hr⟩ | ⟨hsp, hr⟩ := execCall_cases nnn s
  · exact alike_of_fault hr (exec_call_of_full nnn hsp)
  · have hr' := exec_call_of_free (s := s.rewrite (toStack stack)) (j := ⟨s.sp.val, hsp⟩) nnn rfl
    refine alike_of_next hr hr' ⟨stack.set s.sp.val s.pc, rfl, fun k hk => ?_⟩
    simp only [Fin.getElem_fin, Vector.getElem_set]
    split_ifs with hk'
    · rfl
    · exact hs k (by simp only at hk; omega)

theorem exec_deadEntries (i : Instr) (hs : HasLiveEntries s stack) :
    Alike SameButDeadEntries (exec i s) (exec i (s.rewrite (toStack stack))) := by
  cases i with
  | ret => exact exec_ret_deadEntries hs
  | call nnn => exact exec_call_deadEntries nnn hs
  | ldSTVx x => exact ⟨stack, rfl, hs⟩
  | _ =>
    refine exec_alike_of_unread nofun nofun nofun fun u hu => ⟨stack, rfl, hs.congr ?_ fun j => ?_⟩
    · exact exec_frame hu .sp (by simp [mayWrite])
    · exact exec_frame hu (.stack j) (by simp [mayWrite])

end

theorem soundTick_toStack (s : State) (stack : Vector Word 16) :
    soundTick (s.rewrite (toStack stack)) = (soundTick s).rewrite (toStack stack) := by
  simp only [soundTick, apply_ite (State.rewrite · (toStack stack))]
  rfl

theorem SameButDeadEntries.endStep {u u' : State} (h : SameButDeadEntries u u') : SameButDeadEntries (endStep u) (endStep u') := by
  obtain ⟨stack, rfl, hlive⟩ := h
  refine ⟨stack, ?_, hlive.congr (endStep_sp u) fun j => by rw [endStep_stack]⟩
  simp only [Machine.endStep, timerTick, delayTick_rewrite, soundTick_toStack, hostTurn_rewrite]

/-! ## The sound timer -/

/-- The sound timer, its stamp and the tones rewritten to these values. -/
def toSound (st : Byte) (stamp tones : Nat) : Rewrite := { ST := fun _ => st, stamp := fun _ => stamp, tones := fun _ => tones }

/-- The states differ in the sound timer, its stamp and the tones at most. -/
def SameButSound (s s' : State) : Prop := ∃ st stamp tones, s' = s.rewrite (toSound st stamp tones)

section

variable (s : State) (st : Byte) (stamp tones : Nat)

theorem exec_ret_sound : Alike SameButSound (exec .ret s) (exec .ret (s.rewrite (toSound st stamp tones))) := by
  obtain ⟨hsp, hr⟩ | ⟨j, hj, hr⟩ := execRet_cases s
  · exact alike_of_fault hr (exec_ret_of_empty (congrArg Fin.val hsp))
  · have hr' := exec_ret_of_live (s := s.rewrite (toSound st stamp tones)) hj
    exact alike_of_next hr hr' ⟨st, stamp, tones, rfl⟩

theorem exec_call_sound (nnn : Addr12) :
    Alike SameButSound (exec (.call nnn) s) (exec (.call nnn) (s.rewrite (toSound st stamp tones))) := by
  obtain ⟨hsp, hr⟩ | ⟨hsp, hr⟩ := execCall_cases nnn s
  · exact alike_of_fault hr (exec_call_of_full nnn hsp)
  · have hr' := exec_call_of_free (s := s.rewrite (toSound st stamp tones)) (j := ⟨s.sp.val, hsp⟩) nnn rfl
    exact alike_of_next hr hr' ⟨st, stamp, tones, rfl⟩

theorem exec_sound (i : Instr) : Alike SameButSound (exec i s) (exec i (s.rewrite (toSound st stamp tones))) := by
  cases i with
  | ret => exact exec_ret_sound s st stamp tones
  | call nnn => exact exec_call_sound s st stamp tones nnn
  | ldSTVx x => exact ⟨s.reg x, s.now, tones, rfl⟩
  | _ => exact exec_alike_of_unread nofun nofun nofun fun u _ => ⟨st, stamp, tones, rfl⟩

end

theorem soundTick_sameButSound (s : State) : SameButSound s (soundTick s) := by
  obtain ⟨-, htick⟩ | ⟨-, -, htick⟩ := soundTick_cases s <;> rw [htick]
  · exact ⟨s.ST, s.lastSoundTick, s.tones, rfl⟩
  · exact ⟨s.ST - 1, s.now, s.tones + 1, rfl⟩

theorem SameButSound.endStep {u u' : State} (h : SameButSound u u') : SameButSound (endStep u) (endStep u') := by
  obtain ⟨st, stamp, tones, rfl⟩ := h
  obtain ⟨st₁, stamp₁, tones₁, htick⟩ := soundTick_sameButSound (delayTick u)
  obtain ⟨st₂, stamp₂, tones₂, htick'⟩ := soundTick_sameButSound ((delayTick u).rewrite (toSound st stamp tones))
  refine ⟨st₂, stamp₂, tones₂, ?_⟩
  rw [Machine.endStep, Machine.endStep, timerTick, timerTick, delayTick_rewrite, htick, htick']
  rfl

end Sys2Proof.Machine

namespace Sys2Proof

open Machine

/-- Settles O55: RET reads an entry that is live and CALL writes one before it is, so the two keep the live entries alike; every other
instruction and the tick treat a rewritten stack as the stack. -/
theorem deadStackEntriesHaveNoEffect : Obligations.DeadStackEntriesHaveNoEffect := by
  unfold Obligations.DeadStackEntriesHaveNoEffect
  intro s stack hlive
  have halike : Alike SameButDeadEntries (step s) (step (s.rewrite (toStack stack))) :=
    step_alike rfl rfl (fun i w => exec_deadEntries (s := s.fetched w) i hlive) fun _ _ => SameButDeadEntries.endStep
  refine ⟨fun k => halike.fault, fun t ht => ?_⟩
  obtain ⟨_, hstep, stack', rfl, hlive'⟩ := halike.next ht
  exact ⟨stack', hstep, hlive'⟩

/-- Settles O56: every instruction but Fx18, which overwrites the sound timer, treats a rewritten one as the one it was, and the tick
changes nothing but it by it. -/
theorem soundTimerIsNeverRead : Obligations.SoundTimerIsNeverRead := by
  unfold Obligations.SoundTimerIsNeverRead
  intro s st stamp tones
  have halike : Alike SameButSound (step s) (step (s.rewrite (toSound st stamp tones))) :=
    step_alike rfl rfl (fun i w => exec_sound (s.fetched w) st stamp tones i) fun _ _ => SameButSound.endStep
  refine ⟨fun k => halike.fault, fun t ht => ?_⟩
  obtain ⟨_, hstep, st', stamp', tones', rfl⟩ := halike.next ht
  exact ⟨st', stamp', tones', hstep⟩

end Sys2Proof

/-! SUPPORT. Which words are which instruction (30_encoding.md R59), by the sub-opcode a family of the decoder tests. -/

namespace Sys2Proof

open Machine

section

variable {f : Word → Instr}

theorem encodedAs_op (op : BitVec 4) (h : ∀ w, fieldOp w = op → decode w = f w) : EncodedAs (op ++ 0#12) 0xF000 f :=
  fun w hw => h w ((mask_F000 w op).1 hw)

theorem encodedAs_op_n (op n : BitVec 4) (h : ∀ w, fieldOp w = op → fieldN w = n → decode w = f w) :
    EncodedAs (op ++ 0#8 ++ n) 0xF00F f :=
  fun w hw => h w ((mask_F00F w op n).1 hw).1 ((mask_F00F w op n).1 hw).2

theorem encodedAs_op_kk (op : BitVec 4) (kk : Byte) (h : ∀ w, fieldOp w = op → fieldKK w = kk → decode w = f w) :
    EncodedAs (op ++ 0#4 ++ kk) 0xF0FF f :=
  fun w hw => h w ((mask_F0FF w op kk).1 hw).1 ((mask_F0FF w op kk).1 hw).2

theorem encodedAs_8xyn (n : BitVec 4) (h : ∀ w, fieldN w = n → decode8 w = f w) : EncodedAs (0x8#4 ++ 0#8 ++ n) 0xF00F f :=
  encodedAs_op_n 0x8 n fun w hop hn => (decode_op8 hop).trans (h w hn)

theorem encodedAs_Exkk (kk : Byte) (h : ∀ w, fieldKK w = kk → decodeE w = f w) : EncodedAs (0xE#4 ++ 0#4 ++ kk) 0xF0FF f :=
  encodedAs_op_kk 0xE kk fun w hop hkk => (decode_opE hop).trans (h w hkk)

theorem encodedAs_Fxkk (kk : Byte) (h : ∀ w, fieldKK w = kk → decodeF w = f w) : EncodedAs (0xF#4 ++ 0#4 ++ kk) 0xF0FF f :=
  encodedAs_op_kk 0xF kk fun w hop hkk => (decode_opF hop).trans (h w hkk)

end

/-! SUPPORT. The remaining control flow and skips (41_control_flow.md R75, R78 to R80; 42_skips.md R84 to R87). -/

namespace Machine

theorem exec_undefined (w : Word) (s : State) : exec (.undefined w) s = .next s.advance := rfl

theorem exec_jpV0 (nnn : Addr12) (s : State) : exec (.jpV0 nnn) s = .next (s.jump (zextByte (s.reg 0) + zext16 nnn)) := rfl

theorem exec_seReg (x y : RegIdx) (s : State) : exec (.seReg x y) s = .next (s.skipIf (s.reg x == s.reg y)) := rfl

theorem exec_sneReg (x y : RegIdx) (s : State) : exec (.sneReg x y) s = .next (s.skipIf !(s.reg x == s.reg y)) := rfl

theorem keyOf_of_toNat {b : Byte} {k : Key} (h : b.toNat = k.val) : keyOf b = some k := by
  obtain ⟨hbig, -⟩ | ⟨k', hk', hkey⟩ := keyOf_cases b
  · omega
  · rw [hkey, Fin.ext (hk'.trans h)]

theorem keyOf_of_big {b : Byte} (h : 15 < b.toNat) : keyOf b = none := by
  obtain ⟨-, hkey⟩ | ⟨k, hk, -⟩ := keyOf_cases b
  · exact hkey
  · omega

section

variable {s : State} {x : RegIdx}

theorem exec_skp_of_key {k : Key} (h : (s.reg x).toNat = k.val) : exec (.skp x) s = .next (s.skipIf (s.pressed k)) := by
  simp only [exec, execSkp, keyOf_of_toNat h]

theorem exec_sknp_of_key {k : Key} (h : (s.reg x).toNat = k.val) : exec (.sknp x) s = .next (s.skipIf !s.pressed k) := by
  simp only [exec, execSknp, keyOf_of_toNat h]

theorem exec_skp_of_big (h : 15 < (s.reg x).toNat) : exec (.skp x) s = .fault .keyIndex := by
  simp only [exec, execSkp, keyOf_of_big h]

theorem exec_sknp_of_big (h : 15 < (s.reg x).toNat) : exec (.sknp x) s = .fault .keyIndex := by
  simp only [exec, execSknp, keyOf_of_big h]

end

end Machine

/-- Settles O11: a word of no row decodes to itself as the undefined opcode, which only advances. -/
theorem undefinedWordsAreNoOps : Obligations.UndefinedWordsAreNoOps := by
  unfold Obligations.UndefinedWordsAreNoOps
  exact ⟨fun w => decode_of_undefinedWord, fun s w => ⟨s.advance, exec_undefined w s, s.advance_pc, s.advance_frame⟩⟩

/-- Settles O13: top nibble B is JP V0 alone, and its target is a sum that 16 bits hold exactly. -/
theorem offsetJumpAddsV0 : Obligations.OffsetJumpAddsV0 := by
  unfold Obligations.OffsetJumpAddsV0
  refine ⟨encodedAs_op 0xB fun w => decode_opB, fun s nnn => ?_⟩
  exact ⟨_, exec_jpV0 nnn s, zextByte_add_zext16_toNat _ nnn, s.jump_frame _⟩

/-- Settles O14: with j live entries CALL writes entry j, sp and pc, and with 16 it has no entry to write. -/
theorem callPushesItsOwnAddress : Obligations.CallPushesItsOwnAddress := by
  unfold Obligations.CallPushesItsOwnAddress
  refine ⟨encodedAs_op 0x2 fun w => decode_op2, fun s nnn => ⟨fun j hj => ?_, exec_call_of_full nnn⟩⟩
  exact ⟨_, exec_call_of_free nnn hj, Vector.getElem_set_self j.isLt, rfl, zext16_toNat nnn, call_frame s j _ _ _⟩

/-- Settles O15: with j + 1 live entries RET writes pc and sp from entry j, and with none it has no entry to read. -/
theorem returnGoesPastTheCall : Obligations.ReturnGoesPastTheCall := by
  unfold Obligations.ReturnGoesPastTheCall
  refine ⟨by decide, fun s => ⟨fun j hj => ?_, exec_ret_of_empty⟩⟩
  exact ⟨_, exec_ret_of_live hj, BitVec.toNat_add _ _, rfl, ret_frame s _ _⟩

/-- Settles O16: the entry that RET reads is the one that CALL wrote. -/
theorem callAndReturnAdvanceByOne : Obligations.CallAndReturnAdvanceByOne := by
  unfold Obligations.CallAndReturnAdvanceByOne
  intro s nnn hsp
  obtain ⟨j, hj⟩ : ∃ j : Fin 16, s.sp.val = j.val := ⟨⟨s.sp.val, hsp⟩, rfl⟩
  refine ⟨_, exec_call_of_free nnn hj, fun u hstack husp => ?_⟩
  refine ⟨_, exec_ret_of_live (s := u) (j := j) (by rw [husp]), ?_, Fin.ext hj.symm⟩
  have hentry : u.stack[j] = s.pc := by rw [hstack]; exact Vector.getElem_set_self j.isLt
  simp only [hentry]

/-- Settles O18: SE and SNE skip on one comparison of registers and on its complement. -/
theorem skipsOnARegister : Obligations.SkipsOnARegister := by
  unfold Obligations.SkipsOnARegister
  refine ⟨encodedAs_op_n 0x5 0 fun w hop hn => by rw [decode_op5 hop, if_pos hn],
    encodedAs_op_n 0x9 0 fun w hop hn => by rw [decode_op9 hop, if_pos hn], fun s x y => ?_⟩
  have heq : (s.reg x).toNat = (s.reg y).toNat → (s.reg x == s.reg y) = true := (byte_beq_iff_toNat _ _).2
  have hne : (s.reg x).toNat ≠ (s.reg y).toNat → (s.reg x == s.reg y) = false :=
    fun h => Bool.eq_false_iff.2 (mt (byte_beq_iff_toNat _ _).1 h)
  constructor
  · exact exec_skip (exec_seReg x y s) heq hne
  · exact exec_skip (exec_sneReg x y s) (fun h => by rw [hne h, Bool.not_false]) (fun h => by rw [heq h, Bool.not_true])

/-- Settles O19: a value up to 15 names its key, whose flag or its complement is the condition; a bigger one names none. -/
theorem skipsOnAKey : Obligations.SkipsOnAKey := by
  unfold Obligations.SkipsOnAKey
  refine ⟨encodedAs_Exkk 0x9E fun w hkk => by simp [decodeE, hkk], encodedAs_Exkk 0xA1 fun w hkk => by simp [decodeE, hkk],
    fun s x => ⟨fun k hk => ⟨?_, ?_⟩, fun hbig => ⟨exec_skp_of_big hbig, exec_sknp_of_big hbig⟩⟩⟩
  · exact ⟨_, exec_skp_of_key hk, s.skipIf_frame _, s.skipIf_pc _⟩
  · exact ⟨_, exec_sknp_of_key hk, s.skipIf_frame _, s.skipIf_not_pc _⟩

end Sys2Proof

/-! SUPPORT. The remaining ALU instructions (43_alu.md R93 to R101) and ADD I, Vx (44_index_memory.md R104): what a register reads after
the two writes of a flag instruction, in either order, and the flags and results as numbers. -/

namespace Sys2Proof.Machine

/-! ## Flags and results as numbers -/

theorem flagByte_toNat (b : Bool) : (flagByte b).toNat = if b = true then 1 else 0 := by cases b <;> rfl

theorem notBorrow_iff (m n : Byte) : notBorrow m n = true ↔ n.toNat ≤ m.toNat := by simp [notBorrow]

theorem lowBit_toNat (b : Byte) : (lowBit b).toNat = b.toNat % 2 := by
  rw [lowBit, BitVec.toNat_and]
  exact Nat.and_one_is_mod _

theorem highBit_toNat (b : Byte) : (highBit b).toNat = b.toNat / 128 := by
  have hb := b.isLt
  rw [highBit, BitVec.toNat_and, BitVec.toNat_ushiftRight, Nat.shiftRight_eq_div_pow]
  exact (Nat.and_one_is_mod _).trans (Nat.mod_eq_of_lt (by omega))

theorem byte_sub_toNat (a b : Byte) : (a - b).toNat = (a.toNat + 256 - b.toNat) % 256 := by
  have hb := b.isLt
  rw [BitVec.toNat_sub]
  congr 1
  omega

theorem byte_shr_toNat (b : Byte) : (b >>> 1).toNat = b.toNat / 2 := by
  rw [BitVec.toNat_ushiftRight, Nat.shiftRight_eq_div_pow]

theorem byte_shl_toNat (b : Byte) : (b <<< 1).toNat = 2 * b.toNat % 256 := by
  rw [BitVec.toNat_shiftLeft, Nat.shiftLeft_eq, Nat.mul_comm]

/-! ## Registers after the writes of a flag instruction -/

section

variable (s : State) (x : RegIdx) (b f : Byte)

theorem State.reg_setVF_same : (s.setVF f).reg regF = f := s.reg_setReg_same regF f

theorem State.reg_setVF_of_ne {x : RegIdx} (hx : x ≠ regF) : (s.setVF f).reg x = s.reg x := by
  rw [State.reg_setVF, if_neg hx.symm]

theorem State.reg_setReg_of_ne {x y : RegIdx} (h : x ≠ y) : (s.setReg x b).reg y = s.reg y := by
  rw [State.reg_setReg, if_neg h]

end

theorem exec_or (x y : RegIdx) (s : State) : exec (.or x y) s = .next (s.setReg x (s.reg x ||| s.reg y)).advance := rfl

theorem exec_and (x y : RegIdx) (s : State) : exec (.and x y) s = .next (s.setReg x (s.reg x &&& s.reg y)).advance := rfl

theorem exec_xor (x y : RegIdx) (s : State) : exec (.xor x y) s = .next (s.setReg x (s.reg x ^^^ s.reg y)).advance := rfl

theorem exec_rnd (x : RegIdx) (kk : Byte) (s : State) : exec (.rnd x kk) s = .next (s.setReg x (s.draw &&& kk)).advance := rfl

/-- An instruction that writes VF and then Vx: Vx holds the byte, VF the flag unless it is Vx, and nothing else but pc changes. -/
theorem exec_flagThenReg {i : Instr} {s : State} {x : RegIdx} {f b : Byte}
    (hexec : exec i s = .next ((s.setVF f).setReg x b).advance) :
    ∃ t, exec i s = .next t ∧ t.pc = s.pc + 2 ∧ UnchangedBut (fun p => p = .pc ∨ p = .V x ∨ p = .V regF) s t ∧
      (x ≠ regF → t.reg regF = f) ∧ t.reg x = b := by
  refine ⟨_, hexec, rfl, flagThenReg_frame s x b f, fun hx => ?_, State.reg_setReg_same _ x b⟩
  exact (State.reg_setReg_of_ne _ b hx).trans (s.reg_setVF_same f)

section

variable (x y : RegIdx) (s : State)

theorem exec_addReg : exec (.addReg x y) s =
    .next ((s.setReg x (s.reg x + s.reg y)).setVF (flagByte (carryOut (s.reg x) (s.reg y)))).advance := rfl

/-- The flag that SUB and SUBN write. -/
def borrowFlag (m n : Byte) : Byte := flagByte (notBorrow m n)

theorem borrowFlag_toNat (m n : Byte) : (borrowFlag m n).toNat = if n.toNat ≤ m.toNat then 1 else 0 := by
  simp only [borrowFlag, flagByte_toNat, notBorrow_iff]

/-- What SUB and SUBN do before they advance: the flag of Vp - Vq into VF, then into Vx the difference of the registers as VF left them. -/
def State.flagThenSub (p q : RegIdx) : State :=
  let s₁ := s.setVF (borrowFlag (s.reg p) (s.reg q))
  s₁.setReg x (s₁.reg p - s₁.reg q)

theorem exec_sub : exec (.sub x y) s = .next (s.flagThenSub x x y).advance := rfl

theorem exec_subn : exec (.subn x y) s = .next (s.flagThenSub x y x).advance := rfl

theorem exec_shr {f : Byte} (hf : f = lowBit (s.reg y)) : exec (.shr x y) s =
    .next ((s.setVF f).setReg x ((s.setVF f).reg y >>> 1)).advance := by subst hf; rfl

theorem exec_shl {f : Byte} (hf : f = highBit (s.reg y)) : exec (.shl x y) s =
    .next ((s.setVF f).setReg x ((s.setVF f).reg y <<< 1)).advance := by subst hf; rfl

theorem exec_addIVx : exec (.addIVx x) s =
    .next ((s.setI (BitVec.ofNat 16 (s.I.toNat + (s.reg x).toNat))).setVF
      (flagByte (pastRange (s.I.toNat + (s.reg x).toNat)))).advance := rfl

end

/-- An instruction that subtracts Vq from Vp into Vx, the flag first: each of p and q that is F reads as the flag. -/
theorem exec_flagThenSub {i : Instr} {s : State} {x p q : RegIdx} (hexec : exec i s = .next (s.flagThenSub x p q).advance) :
    ∃ t f, exec i s = .next t ∧ t.pc = s.pc + 2 ∧ UnchangedBut (fun r => r = .pc ∨ r = .V x ∨ r = .V regF) s t ∧
      f = (if (s.reg q).toNat ≤ (s.reg p).toNat then 1 else 0) ∧
      (x ≠ regF → (t.reg regF).toNat = f) ∧
      (p ≠ regF → q ≠ regF → (t.reg x).toNat = ((s.reg p).toNat + 256 - (s.reg q).toNat) % 256) ∧
      (p ≠ regF → q = regF → (t.reg x).toNat = ((s.reg p).toNat + 256 - f) % 256) ∧
      (p = regF → q ≠ regF → (t.reg x).toNat = (f + 256 - (s.reg q).toNat) % 256) ∧
      (p = regF → q = regF → (t.reg x).toNat = 0) := by
  obtain ⟨t, ht, hpc, hframe, hVF, hreg⟩ := exec_flagThenReg hexec
  refine ⟨t, _, ht, hpc, hframe, borrowFlag_toNat _ _, fun hx => by rw [hVF hx], ?_, ?_, ?_, ?_⟩
  · intro hp hq
    rw [hreg, byte_sub_toNat, s.reg_setVF_of_ne _ hp, s.reg_setVF_of_ne _ hq]
  · rintro hp rfl
    rw [hreg, byte_sub_toNat, s.reg_setVF_of_ne _ hp, s.reg_setVF_same]
  · rintro rfl hq
    rw [hreg, byte_sub_toNat, s.reg_setVF_same, s.reg_setVF_of_ne _ hq]
  · rintro rfl rfl
    rw [hreg, BitVec.sub_self]
    rfl

end Sys2Proof.Machine

namespace Sys2Proof

open Machine

/-- Settles O21: each is one write of Vx, and the three operations are bit by bit. -/
theorem bitwiseLeavesVF : Obligations.BitwiseLeavesVF := by
  unfold Obligations.BitwiseLeavesVF
  refine ⟨encodedAs_8xyn 1 fun w hn => by simp [decode8, hn], encodedAs_8xyn 2 fun w hn => by simp [decode8, hn],
    encodedAs_8xyn 3 fun w hn => by simp [decode8, hn], fun s x y => ⟨?_, ?_, ?_⟩⟩
  · obtain ⟨t, hexec, hreg, hpc, hframe⟩ := exec_writeReg (exec_or x y s)
    exact ⟨t, hexec, hpc, hframe, fun b _ => by rw [hreg, BitVec.getLsbD_or]⟩
  · obtain ⟨t, hexec, hreg, hpc, hframe⟩ := exec_writeReg (exec_and x y s)
    exact ⟨t, hexec, hpc, hframe, fun b _ => by rw [hreg, BitVec.getLsbD_and]⟩
  · obtain ⟨t, hexec, hreg, hpc, hframe⟩ := exec_writeReg (exec_xor x y s)
    exact ⟨t, hexec, hpc, hframe, fun b _ => by rw [hreg, BitVec.getLsbD_xor]⟩

/-- Settles O25: RND is one write of Vx, of the draw masked bit by bit. -/
theorem randomByteIsMasked : Obligations.RandomByteIsMasked := by
  unfold Obligations.RandomByteIsMasked
  refine ⟨encodedAs_op 0xC fun w => decode_opC, fun s x kk r => ?_⟩
  obtain ⟨t, hexec, hreg, hpc, hframe⟩ := exec_writeReg (exec_rnd x kk { s with draw := r })
  exact ⟨t, hexec, hpc, hframe, fun b _ => by rw [hreg, BitVec.getLsbD_and]⟩

/-- Settles O22: the carry is written last, so VF holds it whatever x is, and Vx the sum unless it is VF. -/
theorem addSetsCarry : Obligations.AddSetsCarry := by
  unfold Obligations.AddSetsCarry
  refine ⟨encodedAs_8xyn 4 fun w hn => by simp [decode8, hn], fun s x y => ?_⟩
  refine ⟨_, exec_addReg x y s, rfl, regThenFlag_frame s x _ _, fun hx => ?_, ?_⟩
  · rw [State.advance_reg, State.reg_setVF_of_ne _ _ hx, State.reg_setReg_same, BitVec.toNat_add]
  · rw [State.advance_reg, State.reg_setVF_same, flagByte_toNat]
    simp only [carryOut, decide_eq_true_eq]

/-- Settles O23: both write the flag, then a difference of registers of which one, both or none is the flag just written. -/
theorem subtractionsSetNotBorrow : Obligations.SubtractionsSetNotBorrow := by
  unfold Obligations.SubtractionsSetNotBorrow
  refine ⟨encodedAs_8xyn 5 fun w hn => by simp [decode8, hn], encodedAs_8xyn 7 fun w hn => by simp [decode8, hn], ?_⟩
  rintro s x y a b rfl rfl
  constructor
  · obtain ⟨t, f, hexec, hpc, hframe, hf, hVF, hneither, hsubF, hminF, hboth⟩ := exec_flagThenSub (exec_sub x y s)
    refine ⟨t, f, hexec, hpc, hframe, hf, hVF, hneither, hsubF, ?_, ?_⟩
    · rintro rfl
      exact hminF rfl
    · rintro rfl
      exact hboth rfl
  · obtain ⟨t, f, hexec, hpc, hframe, hf, hVF, hneither, hsubF, hminF, hboth⟩ := exec_flagThenSub (exec_subn x y s)
    refine ⟨t, f, hexec, hpc, hframe, hf, hVF, fun hx hy => hneither hy hx, fun hx hy => hminF hy hx, ?_, ?_⟩
    · rintro rfl hy
      exact hsubF hy rfl
    · rintro rfl hy
      exact hboth hy rfl

/-- Settles O24: both write the bit shifted out, then Vy shifted, which is that bit shifted when y is F. -/
theorem shiftsTakeVy : Obligations.ShiftsTakeVy := by
  unfold Obligations.ShiftsTakeVy
  refine ⟨encodedAs_8xyn 6 fun w hn => by simp [decode8, hn], encodedAs_8xyn 0xE fun w hn => by simp [decode8, hn], ?_⟩
  rintro s x y b rfl
  have hy := (s.reg y).isLt
  constructor
  · obtain ⟨f, hf⟩ : ∃ f, f = lowBit (s.reg y) := ⟨_, rfl⟩
    obtain ⟨t, hexec, hpc, hframe, hVF, hreg⟩ := exec_flagThenReg (exec_shr x y s hf)
    refine ⟨t, hexec, hpc, hframe, fun hx => by rw [hVF hx, hf, lowBit_toNat], fun hne => ?_, ?_⟩
    · rw [hreg, byte_shr_toNat, s.reg_setVF_of_ne f hne]
    · rintro rfl
      rw [hreg, byte_shr_toNat, s.reg_setVF_same, hf, lowBit_toNat]
      omega
  · obtain ⟨f, hf⟩ : ∃ f, f = highBit (s.reg y) := ⟨_, rfl⟩
    obtain ⟨t, hexec, hpc, hframe, hVF, hreg⟩ := exec_flagThenReg (exec_shl x y s hf)
    refine ⟨t, hexec, hpc, hframe, fun hx => by rw [hVF hx, hf, highBit_toNat], fun hne => ?_, ?_⟩
    · rw [hreg, byte_shl_toNat, s.reg_setVF_of_ne f hne]
    · rintro rfl
      rw [hreg, byte_shl_toNat, s.reg_setVF_same, hf, highBit_toNat]
      omega

/-- Settles O27: I takes the sum of the numbers mod 2^16, then VF takes the comparison of that sum. -/
theorem indexAddFlagsTheRange : Obligations.IndexAddFlagsTheRange := by
  unfold Obligations.IndexAddFlagsTheRange
  refine ⟨encodedAs_Fxkk 0x1E fun w hkk => by simp [decodeF, hkk], ?_⟩
  rintro s x sum rfl
  refine ⟨_, exec_addIVx x s, BitVec.toNat_ofNat _ _, ?_, rfl, addIVx_frame s _ _⟩
  rw [State.advance_reg, State.reg_setVF_same, flagByte_toNat]
  simp only [pastRange, decide_eq_true_eq]

end Sys2Proof

/-! SUPPORT. Memory and the instructions that move bytes through I (20_memory.md R36 to R52; 44_index_memory.md R106 to R108), load and
reset (60_exceptions.md R139, 70_reset_and_hazards.md R145), and the parts of a state. -/

namespace Sys2Proof.Machine

/-! ## Stores and loads that fit, and those that do not -/

theorem storeBytes_of_fits (s : State) {a : Nat} {bs : List Byte} (h : a + bs.length ≤ 4096) :
    storeBytes s a bs = .next (s.pokeMany a bs).advance := by
  obtain ⟨-, hr⟩ | ⟨-, hpast, -⟩ := storeBytes_cases s a bs
  · exact hr
  · omega

theorem storeBytes_of_past (s : State) {a : Nat} {bs : List Byte} (hne : bs ≠ []) (h : 4096 < a + bs.length) :
    storeBytes s a bs = .fault .memBounds := by
  obtain ⟨hfits, -⟩ | ⟨-, -, hr⟩ := storeBytes_cases s a bs
  · exact absurd (hfits.resolve_left hne) h.not_ge
  · exact hr

section

variable {s : State} {x : RegIdx}

theorem exec_ldBVx_of_fits (h : s.effAddr 2 ≤ 0xFFF) :
    exec (.ldBVx x) s = .next (s.pokeMany (s.effAddr 0) (bcdDigits (s.reg x))).advance :=
  storeBytes_of_fits s (by rw [s.effAddr_add 2] at h; simp only [bcdDigits, List.length_cons, List.length_nil]; omega)

theorem exec_ldBVx_of_past (h : 0xFFF < s.effAddr 2) : exec (.ldBVx x) s = .fault .memBounds :=
  storeBytes_of_past s nofun (by rw [s.effAddr_add 2] at h; simp only [bcdDigits, List.length_cons, List.length_nil]; omega)

theorem exec_ldMemVx_of_fits (h : s.effAddr x.val ≤ 0xFFF) :
    exec (.ldMemVx x) s = .next (s.pokeMany (s.effAddr 0) (s.regsUpTo x)).advance :=
  storeBytes_of_fits s (by rw [s.effAddr_add x.val] at h; rw [s.regsUpTo_length]; omega)

theorem exec_ldMemVx_of_past (h : 0xFFF < s.effAddr x.val) : exec (.ldMemVx x) s = .fault .memBounds :=
  storeBytes_of_past s (List.ne_nil_of_length_pos (by rw [s.regsUpTo_length]; omega))
    (by rw [s.effAddr_add x.val] at h; rw [s.regsUpTo_length]; omega)

theorem exec_ldVxMem_of_fits (h : s.effAddr x.val ≤ 0xFFF) :
    exec (.ldVxMem x) s = .next (s.setRegs 0 (s.peekMany (s.effAddr 0) (x.val + 1))).advance := by
  rw [s.effAddr_add x.val] at h
  obtain ⟨-, hr⟩ | ⟨-, hpast, -⟩ := withBytes_cases s (s.effAddr 0) (x.val + 1) fun bs => .next (s.setRegs 0 bs).advance
  · exact hr
  · omega

theorem exec_ldVxMem_of_past (h : 0xFFF < s.effAddr x.val) : exec (.ldVxMem x) s = .fault .memBounds := by
  rw [s.effAddr_add x.val] at h
  obtain ⟨hfits, -⟩ | ⟨-, -, hr⟩ := withBytes_cases s (s.effAddr 0) (x.val + 1) fun bs => .next (s.setRegs 0 bs).advance
  · omega
  · exact hr

/-! ## What they leave -/

theorem exec_ldBVx_digits {u : State} (hwf : Memory.wf s.cfg s.mem) (h : exec (.ldBVx x) s = .next u) :
    (u.peek (s.effAddr 0)).toNat = (s.reg x).toNat / 100 ∧ (u.peek (s.effAddr 1)).toNat = (s.reg x).toNat / 10 % 10 ∧
    (u.peek (s.effAddr 2)).toNat = (s.reg x).toNat % 10 := by
  have hstored : ∀ k (hk : k < 3), u.peek (s.effAddr k) = (bcdDigits (s.reg x))[k] := fun k hk => exec_peek_stored hwf h hk
  have hbyte : ∀ n, n < 256 → (BitVec.ofNat 8 n).toNat = n := fun n hn => by rw [BitVec.toNat_ofNat, Nat.mod_eq_of_lt hn]
  have hx := (s.reg x).isLt
  rw [hstored 0 (by decide), hstored 1 (by decide), hstored 2 (by decide)]
  exact ⟨hbyte _ (by omega), hbyte _ (by omega), hbyte _ (by omega)⟩

theorem exec_ldMemVx_peek {u : State} {r : RegIdx} (hwf : Memory.wf s.cfg s.mem) (h : exec (.ldMemVx x) s = .next u)
    (hr : r ≤ x) : u.peek (s.effAddr r.val) = s.reg r := by
  have hlen : r.val < (s.regsUpTo x).length := by rw [State.regsUpTo_length]; exact Nat.lt_succ_of_le hr
  exact (exec_peek_stored hwf h hlen).trans (s.getElem_regsUpTo x r.val hlen)

theorem exec_ldVxMem_reg {u : State} {r : RegIdx} (h : exec (.ldVxMem x) s = .next u) (hr : r ≤ x) :
    u.reg r = s.peek (s.effAddr r.val) := by
  have hin : 0 ≤ r.val ∧ r.val < 0 + (s.peekMany (s.effAddr 0) (x.val + 1)).length := by
    rw [State.peekMany_length]
    exact ⟨Nat.zero_le _, by have : r.val ≤ x.val := hr; omega⟩
  rw [exec_ldVxMem_loads h, State.advance_reg, State.reg_setRegs, dif_pos hin, State.getElem_peekMany, s.effAddr_add r.val,
    Nat.sub_zero]

end

/-! ## Memory as a whole -/

theorem Memory.read_past_end {c : Config} {m : Memory} (h : Memory.wf c m) {a : Nat} (ha : 4096 ≤ a) :
    Memory.read c m a = resetByte c a :=
  Memory.read_of_forall_ne c m a fun p hp => ((h.2 p hp).1.trans_le ha).ne

/-- Canonical memories that read the same at every cell are the same list. -/
theorem Memory.ext_of_read_cells {c : Config} {m m' : Memory} (h : Memory.wf c m) (h' : Memory.wf c m')
    (hr : ∀ a, a ≤ 0xFFF → Memory.read c m a = Memory.read c m' a) : m = m' := by
  refine Memory.ext_of_read h h' fun a => ?_
  by_cases ha : a ≤ 0xFFF
  · exact hr a ha
  · rw [Memory.read_past_end h (by omega), Memory.read_past_end h' (by omega)]

/-- Storing bytes changes those bytes only. -/
theorem pokeMany_changes (s : State) (a : Nat) (bs : List Byte) :
    UnchangedBut (fun p => ∃ k, k < bs.length ∧ p = .byte (a + k)) s (s.pokeMany a bs) := by
  intro p hp
  cases p with
  | byte q =>
    refine State.pokeMany_peek_outside s a bs q ?_
    by_contra hin
    exact hp ⟨q - a, by omega, by congr 1; omega⟩
  | _ => rw [State.pokeMany_eq]; rfl

/-- Canonical states that agree in every part agree in every field. -/
theorem State.ext_of_parts {s t : State} (hs : Memory.wf s.cfg s.mem) (ht : Memory.wf t.cfg t.mem)
    (h : ∀ p : Part, p.same s t) : s = t := by
  have hV : t.V = s.V := State.V_ext fun x => h (.V x)
  have hstack : t.stack = s.stack := Vector.ext fun j hj => h (.stack ⟨j, hj⟩)
  have hdisplay : t.display = s.display := Display.ext fun c => h (.cell c)
  have hkeys : t.keys = s.keys := Vector.ext fun k hk => h (.key ⟨k, hk⟩)
  have hcfg : t.cfg = s.cfg := h .cfg
  rw [hcfg] at ht
  have hmem : t.mem = s.mem := Memory.ext_of_read ht hs fun a => by
    have hbyte : Memory.read t.cfg t.mem a = Memory.read s.cfg s.mem a := h (.byte a)
    rwa [hcfg] at hbyte
  cases s
  cases t
  simp only [State.mk.injEq]
  exact ⟨hV.symm, (h .I).symm, (h .pc).symm, hstack.symm, (h .sp).symm, (h .DT).symm, (h .ST).symm, (h .lastDelayTick).symm,
    (h .lastSoundTick).symm, hdisplay.symm, hkeys.symm, (h .currentOpcode).symm, (h .fault).symm, hmem.symm, (h .now).symm,
    (h .draw).symm, (h .tones).symm, (h .inputs).symm, (h .turn).symm, hcfg.symm⟩

end Sys2Proof.Machine

namespace Sys2Proof

open Machine

/-- Settles O28: the three bytes stored are the digits, and they are the number by division with remainder. -/
theorem decimalDigitsAreStored : Obligations.DecimalDigitsAreStored := by
  unfold Obligations.DecimalDigitsAreStored
  refine ⟨encodedAs_Fxkk 0x33 fun w hkk => by simp [decodeF, hkk], fun s x hwf => ⟨fun hfits => ?_, exec_ldBVx_of_past⟩⟩
  have hexec := exec_ldBVx_of_fits (x := x) hfits
  obtain ⟨h0, h1, h2⟩ := exec_ldBVx_digits hwf hexec
  have hx := (s.reg x).isLt
  refine ⟨_, hexec, by simp, exec_frame hexec, ?_⟩
  rw [h0, h1, h2]
  omega

/-- Settles O29: the bytes stored are the registers, from I on. -/
theorem registersAreStored : Obligations.RegistersAreStored := by
  unfold Obligations.RegistersAreStored
  refine ⟨encodedAs_Fxkk 0x55 fun w hkk => by simp [decodeF, hkk], fun s x hwf => ⟨fun hfits => ?_, exec_ldMemVx_of_past⟩⟩
  have hexec := exec_ldMemVx_of_fits hfits
  exact ⟨_, hexec, by simp, exec_frame hexec, fun r => exec_ldMemVx_peek hwf hexec⟩

/-- Settles O30: the registers loaded are the bytes, from I on. -/
theorem registersAreLoaded : Obligations.RegistersAreLoaded := by
  unfold Obligations.RegistersAreLoaded
  refine ⟨encodedAs_Fxkk 0x65 fun w hkk => by simp [decodeF, hkk], fun s x => ⟨fun hfits => ?_, exec_ldVxMem_of_past⟩⟩
  have hexec := exec_ldVxMem_of_fits hfits
  exact ⟨_, hexec, by simp, exec_frame hexec, fun r => exec_ldVxMem_reg hexec⟩

/-- Settles O31: the bytes loaded are those stored, since the store leaves I. -/
theorem storeThenLoadRestores : Obligations.StoreThenLoadRestores := by
  unfold Obligations.StoreThenLoadRestores
  intro s x hwf hfits
  have hstore := exec_ldMemVx_of_fits hfits
  refine ⟨_, hstore, fun u hmem hI => ?_⟩
  have hI' : u.I = s.I := hI.trans (exec_frame hstore .I (by simp [mayWrite]))
  have haddr : ∀ k, u.effAddr k = s.effAddr k := fun k => by rw [State.effAddr, hI', State.effAddr]
  have hload := exec_ldVxMem_of_fits (s := u) (x := x) (by rwa [haddr])
  refine ⟨_, hload, fun r => ⟨fun hr => ?_, fun hr => ?_⟩⟩
  · rw [exec_ldVxMem_reg hload hr, hmem, haddr, exec_ldMemVx_peek hwf hstore hr]
  · exact exec_frame hload (.V r) (by simpa [mayWrite] using hr)

/-- Settles O32: the first two bytes stored stand where the next fetch reads. -/
theorem storedWordIsFetchedNext : Obligations.StoredWordIsFetchedNext := by
  unfold Obligations.StoredWordIsFetchedNext
  intro s x hwf hx hfits hI
  have hexec := exec_ldMemVx_of_fits hfits
  refine ⟨_, hexec, ?_⟩
  generalize (s.pokeMany (s.effAddr 0) (s.regsUpTo x)).advance = t at hexec
  have hpc : t.pc = s.I := (nextPcFollowsTheTable _ s t hexec).trans hI.symm
  have hfirst := exec_ldMemVx_peek (r := 0) hwf hexec (Fin.zero_le x)
  have hsecond := exec_ldMemVx_peek (r := 1) hwf hexec hx
  have hle : t.pc.toNat ≤ 0xFFE := by
    rw [hpc]
    have : s.I.toNat + x.val ≤ 0xFFF := hfits
    omega
  refine ⟨_, (fetchWord_eq_some t _).2 ⟨hle, rfl⟩, ?_⟩
  rw [wordOfBytes_toNat, hpc]
  rw [show t.peek s.I.toNat = s.reg 0 from hfirst, show t.peek (s.I.toNat + 1) = s.reg 1 from hsecond]

/-- Settles O33: reads after a write, the unlisted cells, and the one canonical list of a content. -/
theorem memoryReadsTheLatestWrite : Obligations.MemoryReadsTheLatestWrite := by
  unfold Obligations.MemoryReadsTheLatestWrite
  intro c m hwf
  refine ⟨fun a b ha => ⟨Memory.write_wf hwf (Nat.lt_succ_of_le ha), Memory.read_write_same c m a b hwf.1, fun q => ?_⟩,
    fun a => rfl, fun m' hwf' => Memory.ext_of_read_cells hwf hwf'⟩
  exact Memory.read_write_other c m a q b

/-- Settles O45: a load that fits is a store of the bytes at the origin, and one that does not is nothing. -/
theorem loadCopiesOrFails : Obligations.LoadCopiesOrFails := by
  unfold Obligations.LoadCopiesOrFails
  intro s bytes origin hwf
  refine ⟨fun hfits => ⟨_, if_pos hfits, State.pokeMany_peek_inside hwf hfits, pokeMany_changes s origin bytes⟩, fun hlong => ?_⟩
  exact ⟨if_neg hlong.not_ge, happen_load_of_too_long hlong⟩

/-- Settles O46: reset writes each field of the core and no other, and memory that lists nothing reads as its reset content. -/
theorem resetSetsEveryField : Obligations.ResetSetsEveryField := by
  unfold Obligations.ResetSetsEveryField
  refine ⟨⟨State.reset, reset_eq_resetAt⟩, ?_⟩
  rintro s now t rfl
  have hzero : ∀ a, a < 4096 → 80 ≤ a → (resetAt now s).peek a = 0 := fun a _ ha => by
    rw [resetAt_peek]
    exact dif_neg ha.not_gt
  have hfont : ∀ a (h : a < 80), (resetAt now s).peek a = s.cfg.fontRom[a] := fun a h => by
    rw [resetAt_peek, resetByte_font s.cfg h]
  exact ⟨fun x => by simp [resetAt, State.reg], rfl, rfl, fun j => by simp [resetAt], rfl, rfl, rfl, rfl, rfl,
    Display.get_blank, rfl, rfl, hzero, hfont, rfl, rfl, rfl, rfl, rfl⟩

/-- Settles O48: registers, entries, cells and keys make up their vectors, and the bytes read make up a canonical memory list. -/
theorem framesCoverTheState : Obligations.FramesCoverTheState := by
  unfold Obligations.FramesCoverTheState
  exact fun s t hs ht h => State.ext_of_parts hs ht fun p => h p not_false

end Sys2Proof

/-! SUPPORT. DRW (45_display.md R110 to R113): it goes on exactly when its sprite fits, and what it then does to each cell and to VF is said
by the sprite's pixels; a second draw from where the first ended finds the same sprite. -/

namespace Sys2Proof.Machine

/-- Row j of a sprite at I has a set bit at column offset i: bit 7 - i of the byte at I + j. -/
def SpriteBitSet (s : State) (n j i : Nat) : Prop := j < n ∧ i < 8 ∧ (s.peek (s.effAddr j)).getLsbD (7 - i) = true

/-- The sprite's bytes are all in memory, and its set bits all on the grid. -/
def SpriteFits (s : State) (x y : RegIdx) (n : Nat) : Prop :=
  (0 < n → s.effAddr (n - 1) ≤ 0xFFF) ∧
  ∀ j i, SpriteBitSet s n j i → (s.reg y).toNat + j ≤ 31 ∧ (s.reg x).toNat + i ≤ 63

section

variable {s t : State} {x y : RegIdx} {n : BitVec 4}

theorem sprite_past_memory_iff (s : State) (n : Nat) : (0 < n ∧ 0xFFF < s.effAddr (n - 1)) ↔ n ≠ 0 ∧ 4096 < s.effAddr 0 + n := by
  rw [s.effAddr_add (n - 1)]
  omega

theorem exec_drw_memBounds_iff :
    exec (.drw x y n) s = .fault .memBounds ↔ 0 < n.toNat ∧ 0xFFF < s.effAddr (n.toNat - 1) := by
  rw [sprite_past_memory_iff]
  obtain ⟨hn, hpast, hr⟩ | ⟨hin, ⟨-, hr⟩ | ⟨cells, -, hr⟩⟩ := execDrw_cases x y n s
  · exact iff_of_true hr ⟨hn, hpast⟩
  · exact iff_of_false (fun h => by cases hr.symm.trans h) (by omega)
  · exact iff_of_false (fun h => by cases hr.symm.trans h) (by omega)

theorem exec_drw_displayBounds_iff :
    exec (.drw x y n) s = .fault .displayBounds ↔
      ¬ (0 < n.toNat ∧ 0xFFF < s.effAddr (n.toNat - 1)) ∧
      ∃ j i, j < n.toNat ∧ i < 8 ∧ (s.peek (s.effAddr j)).getLsbD (7 - i) = true ∧
        (31 < (s.reg y).toNat + j ∨ 63 < (s.reg x).toNat + i) := by
  rw [sprite_past_memory_iff, ← sprite_off_grid_iff]
  obtain ⟨hn, hpast, hr⟩ | ⟨hin, ⟨hoff, hr⟩ | ⟨cells, hon, hr⟩⟩ := execDrw_cases x y n s
  · exact iff_of_false (fun h => by cases hr.symm.trans h) fun h => h.1 ⟨hn, hpast⟩
  · exact iff_of_true hr ⟨by omega, hoff⟩
  · refine iff_of_false (fun h => by cases hr.symm.trans h) fun h => ?_
    rw [hon] at h
    exact Option.some_ne_none _ h.2

theorem exec_drw_of_fits (h : SpriteFits s x y n.toNat) : ∃ t, exec (.drw x y n) s = .next t := by
  obtain ⟨hmem, hgrid⟩ := h
  obtain ⟨hn, hpast, -⟩ | ⟨-, ⟨hoff, -⟩ | ⟨cells, -, hr⟩⟩ := execDrw_cases x y n s
  · obtain ⟨hpos, hbig⟩ := (sprite_past_memory_iff s n.toNat).2 ⟨hn, hpast⟩
    exact absurd (hmem hpos) hbig.not_ge
  · obtain ⟨j, i, hj, hi, hb, hout⟩ := (sprite_off_grid_iff s x y n).1 hoff
    have := hgrid j i ⟨hj, hi, hb⟩
    omega
  · exact ⟨_, hr⟩

theorem spriteFits_of_exec_drw (h : exec (.drw x y n) s = .next t) : SpriteFits s x y n.toNat := by
  have hmem : ¬ (0 < n.toNat ∧ 0xFFF < s.effAddr (n.toNat - 1)) := fun hpast => by
    cases (exec_drw_memBounds_iff.2 hpast).symm.trans h
  refine ⟨fun hn => Nat.le_of_not_lt fun hbig => hmem ⟨hn, hbig⟩, fun j i ⟨hj, hi, hb⟩ => ?_⟩
  by_contra hout
  have hoff : 31 < (s.reg y).toNat + j ∨ 63 < (s.reg x).toNat + i := by omega
  have hfault := exec_drw_displayBounds_iff.2 ⟨hmem, j, i, hj, hi, hb, hoff⟩
  cases hfault.symm.trans h

theorem spritePixel_iff (s : State) (x y : RegIdx) (n r c : Nat) : spritePixel s x y n r c = true ↔
    ∃ j i, SpriteBitSet s n j i ∧ r = (s.reg y).toNat + j ∧ c = (s.reg x).toNat + i := by
  simp only [spritePixel, Bool.and_eq_true, decide_eq_true_eq]
  constructor
  · rintro ⟨⟨⟨⟨hr, hr'⟩, hc⟩, hc'⟩, hb⟩
    exact ⟨r - (s.reg y).toNat, c - (s.reg x).toNat, ⟨by omega, by omega, hb⟩, by omega, by omega⟩
  · rintro ⟨j, i, ⟨hj, hi, hb⟩, rfl, rfl⟩
    rw [Nat.add_sub_cancel_left, Nat.add_sub_cancel_left]
    exact ⟨⟨⟨⟨by omega, by omega⟩, by omega⟩, by omega⟩, hb⟩

/-- A sprite that fits has a pixel on the grid exactly when it has a set bit. -/
theorem exists_spritePixel_iff {n : Nat} (h : SpriteFits s x y n) :
    (∃ c : Cell, spritePixel s x y n c.1.val c.2.val = true) ↔ ∃ j i, SpriteBitSet s n j i := by
  constructor
  · rintro ⟨c, hc⟩
    obtain ⟨j, i, hbit, -, -⟩ := (spritePixel_iff s x y n _ _).1 hc
    exact ⟨j, i, hbit⟩
  · rintro ⟨j, i, hbit⟩
    obtain ⟨hr, hc⟩ := h.2 j i hbit
    exact ⟨(⟨_, Nat.lt_succ_of_le hr⟩, ⟨_, Nat.lt_succ_of_le hc⟩), (spritePixel_iff s x y n _ _).2 ⟨j, i, hbit, rfl, rfl⟩⟩

theorem flagByte_toNat_cases (b : Bool) : (flagByte b).toNat = 1 ∨ (flagByte b).toNat = 0 := by cases b <;> decide

theorem flagByte_toNat_eq_one (b : Bool) : (flagByte b).toNat = 1 ↔ b = true := by cases b <;> decide

/-- What a draw leaves: each cell XOR the sprite's pixel there, and in VF whether a pixel met a set cell (R112, R113). -/
theorem exec_drw_next (h : exec (.drw x y n) s = .next t) :
    (∀ c : Cell, Display.get t.display c = (Display.get s.display c != spritePixel s x y n.toNat c.1.val c.2.val)) ∧
    ((t.reg regF).toNat = 1 ∨ (t.reg regF).toNat = 0) ∧
    ((t.reg regF).toNat = 1 ↔
      ∃ c : Cell, spritePixel s x y n.toNat c.1.val c.2.val = true ∧ Display.get s.display c = true) := by
  obtain ⟨-, -, hr⟩ | ⟨-, ⟨-, hr⟩ | ⟨cells, hcells, hr⟩⟩ := execDrw_cases x y n s <;> cases hr.symm.trans h
  obtain ⟨hget, hflag⟩ := xorCells_spec s.display false cells (cellsAt_sprite hcells).1
  have hpixel := mem_sprite_cells s x y n hcells
  rw [State.advance_reg, State.reg_setVF_same, hflag]
  refine ⟨fun c => ?_, flagByte_toNat_cases _, ?_⟩
  · rw [State.advance_display, State.setVF_display, hget, Bool.decide_congr (hpixel c), Bool.decide_eq_true]
  · rw [flagByte_toNat_eq_one, Bool.false_or, List.any_eq_true]
    simp only [hpixel]

/-! ## The same sprite after a draw -/

/-- The states hold the same sprite for `DRW Vx, Vy`: the same I, coordinates and bytes. -/
structure SameSprite (s t : State) (x y : RegIdx) : Prop where
  I : t.I = s.I
  column : t.reg x = s.reg x
  row : t.reg y = s.reg y
  bytes : ∀ a, t.peek a = s.peek a

theorem SameSprite.bit_iff (h : SameSprite s t x y) (n j i : Nat) : SpriteBitSet t n j i ↔ SpriteBitSet s n j i := by
  rw [SpriteBitSet, SpriteBitSet, State.effAddr, State.effAddr, h.I, h.bytes]

theorem SameSprite.fits (h : SameSprite s t x y) {n : Nat} (hs : SpriteFits s x y n) : SpriteFits t x y n := by
  obtain ⟨hmem, hgrid⟩ := hs
  refine ⟨fun hn => ?_, fun j i hbit => ?_⟩
  · rw [State.effAddr, h.I]
    exact hmem hn
  · rw [h.column, h.row]
    exact hgrid j i ((h.bit_iff n j i).1 hbit)

theorem SameSprite.pixel (h : SameSprite s t x y) (n r c : Nat) : spritePixel t x y n r c = spritePixel s x y n r c := by
  rw [Bool.eq_iff_iff, spritePixel_iff, spritePixel_iff]
  simp only [h.bit_iff, h.column, h.row]

/-- A draw whose coordinates are not in VF leaves its sprite as it was. -/
theorem exec_drw_sameSprite (hx : x ≠ regF) (hy : y ≠ regF) (h : exec (.drw x y n) s = .next t) : SameSprite s t x y where
  I := exec_frame h .I (by simp [mayWrite])
  column := exec_frame h (.V x) (by simp [mayWrite, hx])
  row := exec_frame h (.V y) (by simp [mayWrite, hy])
  bytes a := exec_frame h (.byte a) (by simp [mayWrite])

end

end Sys2Proof.Machine

namespace Sys2Proof

open Machine

/-- Settles O35: the bounds check comes first, and the places off the grid are those of the set bits. -/
theorem drawFaultsExactlyOffMemoryOrGrid : Obligations.DrawFaultsExactlyOffMemoryOrGrid := by
  unfold Obligations.DrawFaultsExactlyOffMemoryOrGrid
  exact fun s x y n => ⟨exec_drw_memBounds_iff, exec_drw_displayBounds_iff⟩

/-- Settles O36: a sprite that fits is drawn, and a draw does to each cell and to VF what the sprite's pixels say. -/
theorem drawXorsTheSprite : Obligations.DrawXorsTheSprite := by
  unfold Obligations.DrawXorsTheSprite
  refine ⟨encodedAs_op 0xD fun w => decode_opD, fun s x y n hmem hgrid => ?_⟩
  obtain ⟨t, h⟩ := exec_drw_of_fits (n := n) ⟨hmem, fun j i ⟨hj, hi, hb⟩ => hgrid j i hj hi hb⟩
  obtain ⟨hcells, hVF, hcollision⟩ := exec_drw_next h
  exact ⟨t, h, nextPcFollowsTheTable _ s t h, hcells, hVF, hcollision, exec_frame h⟩

/-- Settles O37: the second draw is of the same sprite, so it flips the same cells back, and where the first met no set cell it meets
every pixel's cell set. -/
theorem drawingTwiceRestoresTheDisplay : Obligations.DrawingTwiceRestoresTheDisplay := by
  unfold Obligations.DrawingTwiceRestoresTheDisplay
  intro s t x y n hx hy hst
  have hfits := spriteFits_of_exec_drw hst
  have hsame := exec_drw_sameSprite hx hy hst
  obtain ⟨u, htu⟩ := exec_drw_of_fits (hsame.fits hfits)
  obtain ⟨hcells, -, hfirst⟩ := exec_drw_next hst
  obtain ⟨hcells', -, hsecond⟩ := exec_drw_next htu
  refine ⟨u, htu, fun c => ?_, fun hclean => ?_⟩
  · rw [hcells' c, hcells c, hsame.pixel, Bool.bne_assoc, bne_self_eq_false, Bool.bne_false]
  · have hmissed : ∀ c : Cell, spritePixel s x y n.toNat c.1.val c.2.val = true → Display.get s.display c = false := by
      intro c hpixel
      by_contra hset
      have hhit := hfirst.2 ⟨c, hpixel, Bool.eq_true_of_not_eq_false hset⟩
      omega
    rw [hsecond]
    refine Iff.trans (exists_congr fun c => ?_) (exists_spritePixel_iff hfits)
    rw [hsame.pixel, hcells c]
    refine and_iff_left_of_imp fun hpixel => ?_
    rw [hpixel, hmissed c hpixel]
    rfl

end Sys2Proof

/-! SUPPORT. The timers over steps and runs (46_timers_keys.md R117 to R120, R124) and the key wait (R122). What one step does to a timer is
said once; the statements over runs follow by induction from it. -/

namespace Sys2Proof.Machine

/-! ## LD ST, Vx and the key wait -/

/-- What Fx18 does before it advances: ST takes a byte, and its stamp the time. -/
def State.setST (s : State) (b : Byte) : State := { s with ST := b, lastSoundTick := s.now }

theorem exec_ldSTVx (x : RegIdx) (s : State) : exec (.ldSTVx x) s = .next (s.setST (s.reg x)).advance := rfl

/-- With no key pressed Fx0A changes nothing. -/
theorem exec_ldVxK_of_none {s : State} {x : RegIdx} (h : s.scanKeys = none) : exec (.ldVxK x) s = .next s := by
  simp only [exec, execLdVxK, h]

theorem exec_ldVxK_of_some {s : State} {x : RegIdx} {k : Key} (h : s.scanKeys = some k) :
    exec (.ldVxK x) s = .next (s.setReg x (BitVec.ofNat 8 k.val)).advance := by
  simp only [exec, execLdVxK, h]

/-- The key the scan finds is the first pressed one of the order. -/
theorem scanKeys_first {s : State} {k : Key} (h : s.scanKeys = some k) :
    ∃ before after, s.cfg.keyScanOrder = before ++ k :: after ∧ ∀ j ∈ before, s.keys[j] = false := by
  obtain ⟨-, before, after, horder, hbefore⟩ := List.find?_eq_some_iff_append.1 h
  exact ⟨before, after, horder, fun j hj => by simpa [State.pressed] using hbefore j hj⟩

/-! ## What a step does to the timers -/

/-- Without Fx18 an instruction leaves the sound timer, its stamp and the tones. -/
theorem exec_sameSound {i : Instr} {s u : State} (hi : ∀ x, i ≠ .ldSTVx x) (h : exec i s = .next u) :
    u.ST = s.ST ∧ u.lastSoundTick = s.lastSoundTick ∧ u.tones = s.tones := by
  have hST : ¬ mayWrite s i .ST := by cases i <;> simp_all [mayWrite]
  have hstamp : ¬ mayWrite s i .lastSoundTick := by cases i <;> simp_all [mayWrite]
  exact ⟨exec_frame h .ST hST, exec_frame h .lastSoundTick hstamp, exec_tones h⟩

section

variable {s t : State} {i : Instr}

/-- The delay timer over a step that is not Fx15 (R117). -/
theorem step_delay (hi : s.nextInstr = some i) (h : step s = .next t) (hno : ∀ x, i ≠ .ldDTVx x) :
    ((0 < s.DT.toNat ∧ s.lastDelayTick + s.cfg.timerPeriod ≤ s.now) →
      t.DT.toNat = s.DT.toNat - 1 ∧ t.lastDelayTick = s.now) ∧
    (¬ (0 < s.DT.toNat ∧ s.lastDelayTick + s.cfg.timerPeriod ≤ s.now) →
      t.DT = s.DT ∧ t.lastDelayTick = s.lastDelayTick) := by
  obtain ⟨j, w, u, hj, hexec, rfl⟩ := step_next_exec h
  obtain rfl := Option.some.inj (hj.symm.trans hi)
  obtain ⟨⟨hDT, hstamp, hcfg⟩, hnow⟩ := exec_sameDelay hno hexec
  have htick := timerTick_delay u
  rw [hDT, hstamp, hcfg, hnow] at htick
  rw [endStep_DT, endStep_lastDelayTick]
  exact htick

/-- The sound timer and the tones over a step that is not Fx18 (R118, R119). -/
theorem step_sound (hi : s.nextInstr = some i) (h : step s = .next t) (hno : ∀ x, i ≠ .ldSTVx x) :
    ((0 < s.ST.toNat ∧ s.lastSoundTick + s.cfg.timerPeriod ≤ s.now) →
      t.ST.toNat = s.ST.toNat - 1 ∧ t.lastSoundTick = s.now ∧ t.tones = s.tones + 1) ∧
    (¬ (0 < s.ST.toNat ∧ s.lastSoundTick + s.cfg.timerPeriod ≤ s.now) →
      t.ST = s.ST ∧ t.lastSoundTick = s.lastSoundTick ∧ t.tones = s.tones) := by
  obtain ⟨j, w, u, hj, hexec, rfl⟩ := step_next_exec h
  obtain rfl := Option.some.inj (hj.symm.trans hi)
  obtain ⟨hST, hstamp, htones⟩ := exec_sameSound hno hexec
  have htick := timerTick_sound u
  rw [hST, hstamp, htones, exec_cfg hexec, exec_now hexec] at htick
  rw [endStep_ST, endStep_lastSoundTick, endStep_tones]
  exact htick

theorem step_cfg (h : step s = .next t) : t.cfg = s.cfg := (nextInputsArriveAfterTheStep s t h).1

theorem step_now_le (h : step s = .next t) : s.now ≤ t.now := (nextInputsArriveAfterTheStep s t h).2.1

end

/-! ## Runs -/

section

variable {run : Nat → State} {n : Nat} {no : Instr → Prop}

theorem StepsWithout.of_succ (h : StepsWithout no (n + 1) run) : StepsWithout no n run := fun k hk => h k (Nat.lt_succ_of_lt hk)

/-- Each step of a run has an instruction, which is none of those left out. -/
theorem StepsWithout.step (h : StepsWithout no n run) {k : Nat} (hk : k < n) :
    ∃ i, (run k).nextInstr = some i ∧ ¬ no i ∧ step (run k) = .next (run (k + 1)) := by
  obtain ⟨hstep, hno⟩ := h k hk
  obtain ⟨i, -, -, hi, -, -⟩ := step_next_exec hstep
  exact ⟨i, hi, hno i hi, hstep⟩

theorem StepsWithout.cfg (h : StepsWithout no n run) : (run n).cfg = (run 0).cfg := by
  induction n with
  | zero => rfl
  | succ n ih => exact (step_cfg (h n n.lt_succ_self).1).trans (ih h.of_succ)

/-- A step of a run without Fx15 decrements the delay timer, its stamp taking the time, or leaves both. -/
theorem StepsWithout.delay (h : StepsWithout (fun i => ∃ x, i = .ldDTVx x) n run) {k : Nat} (hk : k < n) :
    (0 < (run k).DT.toNat ∧ (run k).lastDelayTick + (run k).cfg.timerPeriod ≤ (run k).now ∧
      (run k).DT.toNat = (run (k + 1)).DT.toNat + 1 ∧ (run (k + 1)).lastDelayTick = (run k).now) ∨
    (((run k).DT.toNat = 0 ∨ (run k).now < (run k).lastDelayTick + (run k).cfg.timerPeriod) ∧
      (run (k + 1)).DT = (run k).DT ∧ (run (k + 1)).lastDelayTick = (run k).lastDelayTick) := by
  obtain ⟨i, hi, hno, hstep⟩ := h.step hk
  obtain ⟨hdec, hkeep⟩ := step_delay hi hstep fun x hx => hno ⟨x, hx⟩
  by_cases hover : 0 < (run k).DT.toNat ∧ (run k).lastDelayTick + (run k).cfg.timerPeriod ≤ (run k).now
  · obtain ⟨hDT, hstamp⟩ := hdec hover
    exact .inl ⟨hover.1, hover.2, by omega, hstamp⟩
  · exact .inr ⟨by omega, hkeep hover⟩

/-- A step of a run without Fx18 turns one unit of ST into a tone, or leaves both. -/
theorem StepsWithout.tones (h : StepsWithout (fun i => ∃ x, i = .ldSTVx x) n run) {k : Nat} (hk : k < n) :
    ((run k).ST.toNat = (run (k + 1)).ST.toNat + 1 ∧ (run (k + 1)).tones = (run k).tones + 1) ∨
    ((run (k + 1)).ST = (run k).ST ∧ (run (k + 1)).tones = (run k).tones) := by
  obtain ⟨i, hi, hno, hstep⟩ := h.step hk
  obtain ⟨hdec, hkeep⟩ := step_sound hi hstep fun x hx => hno ⟨x, hx⟩
  by_cases hover : 0 < (run k).ST.toNat ∧ (run k).lastSoundTick + (run k).cfg.timerPeriod ≤ (run k).now
  · obtain ⟨hST, -, htones⟩ := hdec hover
    exact .inl ⟨by omega, htones⟩
  · obtain ⟨hST, -, htones⟩ := hkeep hover
    exact .inr ⟨hST, htones⟩

theorem StepsWithout.tones_add_ST (h : StepsWithout (fun i => ∃ x, i = .ldSTVx x) n run) :
    (run n).tones + (run n).ST.toNat = (run 0).tones + (run 0).ST.toNat := by
  induction n with
  | zero => rfl
  | succ n ih =>
    have hn := ih h.of_succ
    obtain ⟨hST, htones⟩ | ⟨hST, htones⟩ := h.tones n.lt_succ_self
    · omega
    · rwa [hST, htones]

/-! ## How fast the delay timer decays -/

/-- Every unit that DT has gone down by took a step, and moved its stamp on by a period at least; a stamp that moved is the time of a
step already taken. -/
theorem StepsWithout.delay_lower (h : StepsWithout (fun i => ∃ x, i = .ldDTVx x) n run) :
    (run 0).lastDelayTick + (run 0).DT.toNat * (run 0).cfg.timerPeriod ≤
      (run n).lastDelayTick + (run n).DT.toNat * (run 0).cfg.timerPeriod ∧
    (run 0).DT.toNat ≤ (run n).DT.toNat + n ∧
    ((run n).DT = (run 0).DT ∨ (run n).lastDelayTick ≤ (run (n - 1)).now) := by
  induction n with
  | zero => exact ⟨le_refl _, le_refl _, .inl rfl⟩
  | succ n ih =>
    obtain ⟨hsum, hsteps, hstamp⟩ := ih h.of_succ
    obtain ⟨-, hover, hDT, htaken⟩ | ⟨-, hDT, hkept⟩ := h.delay n.lt_succ_self
    · rw [h.of_succ.cfg] at hover
      rw [hDT, Nat.succ_mul] at hsum
      exact ⟨by omega, by omega, .inr htaken.le⟩
    · rw [hDT, hkept]
      refine ⟨hsum, by omega, hstamp.imp_right fun hle => hle.trans ?_⟩
      cases n with
      | zero => exact le_refl _
      | succ m => exact step_now_le (h m (by omega)).1

/-- While the steps follow each other within g, DT is 0 or its next decrement is less than a period and g away, and each unit it has gone
down by took no more than a period and g. -/
theorem StepsWithout.delay_upper {g : Nat} (h : StepsWithout (fun i => ∃ x, i = .ldDTVx x) n run)
    (hg : g < (run 0).cfg.timerPeriod) (hfirst : (run 0).now ≤ (run 0).lastDelayTick + g)
    (hgap : ∀ k, k < n → (run (k + 1)).now ≤ (run k).now + g) :
    (run n).DT.toNat = 0 ∨
    ((run n).now < (run n).lastDelayTick + ((run 0).cfg.timerPeriod + g) ∧
      (run n).lastDelayTick + (run n).DT.toNat * ((run 0).cfg.timerPeriod + g) ≤
        (run 0).lastDelayTick + (run 0).DT.toNat * ((run 0).cfg.timerPeriod + g)) := by
  induction n with
  | zero => exact .inr ⟨by omega, le_refl _⟩
  | succ n ih =>
    have hn := ih h.of_succ fun k hk => hgap k (Nat.lt_succ_of_lt hk)
    have hnext := hgap n n.lt_succ_self
    obtain ⟨hpos, -, hDT, htaken⟩ | ⟨hidle, hDT, hkept⟩ := h.delay n.lt_succ_self
    · obtain ⟨hsoon, hsum⟩ := hn.resolve_left hpos.ne'
      rw [hDT, Nat.succ_mul] at hsum
      exact .inr ⟨by omega, by omega⟩
    · rw [hDT, hkept]
      rw [h.of_succ.cfg] at hidle
      by_cases hzero : (run n).DT.toNat = 0
      · exact .inl hzero
      · have hsum := (hn.resolve_left hzero).2
        exact .inr ⟨by omega, hsum⟩

end

end Sys2Proof.Machine

namespace Sys2Proof

open Machine

/-- Settles O39: Fx18 is one write of ST and its stamp, and a tick at the stamp's own time finds no period over. -/
theorem soundTimerIsSet : Obligations.SoundTimerIsSet := by
  unfold Obligations.SoundTimerIsSet
  refine ⟨encodedAs_Fxkk 0x18 fun w hkk => by simp [decodeF, hkk], fun s x => ?_⟩
  refine ⟨_, exec_ldSTVx x s, rfl, rfl, rfl, rfl, ldSTVx_frame s _, fun hidle => ?_⟩
  refine (timerTick_sound (s.setST (s.reg x)).advance).2 fun ⟨hpos, hover⟩ => ?_
  obtain hperiod | hzero := hidle
  · exact absurd hover (Nat.lt_add_of_pos_right (n := s.now) hperiod).not_ge
  · have hpos' : 0 < (s.reg x).toNat := hpos
    rw [hzero] at hpos'
    exact absurd hpos' (by decide)

/-- Settles O40: a legal scan order holds every key, so the scan finds none only when none is pressed, and else the first pressed one. -/
theorem keyWaitHoldsUntilAKey : Obligations.KeyWaitHoldsUntilAKey := by
  unfold Obligations.KeyWaitHoldsUntilAKey
  refine ⟨encodedAs_Fxkk 0x0A fun w hkk => by simp [decodeF, hkk], fun s x hwf => ⟨fun hnone => ?_, ?_⟩⟩
  · exact exec_ldVxK_of_none ((scanKeys_eq_none_iff hwf).2 hnone)
  · rintro ⟨k₀, hk₀⟩
    cases hscan : s.scanKeys with
    | none => exact absurd ((scanKeys_eq_none_iff hwf).1 hscan k₀) (by rw [hk₀]; decide)
    | some k =>
      obtain ⟨before, after, horder, hbefore⟩ := scanKeys_first hscan
      obtain ⟨t, hexec, hreg, hpc, hframe⟩ := exec_writeReg (exec_ldVxK_of_some (x := x) hscan)
      have hval : (t.reg x).toNat = k.val := by rw [hreg, BitVec.toNat_ofNat]; omega
      exact ⟨t, before, k, after, hexec, horder, pressed_of_scanKeys hscan, hbefore, hval, hpc, hframe⟩

/-- Settles O41: an instruction that is not the timer's own leaves it, so the tick acts on the timer as the step found it. -/
theorem everyStepTicksTheTimers : Obligations.EveryStepTicksTheTimers := by
  unfold Obligations.EveryStepTicksTheTimers
  exact fun s t i hi h => ⟨step_delay hi h, step_sound hi h⟩

/-- Settles O42: a step without Fx18 turns one unit of ST into a tone, or leaves both. -/
theorem tonesCountTheDecay : Obligations.TonesCountTheDecay := by
  unfold Obligations.TonesCountTheDecay
  intro run n hrun
  refine ⟨hrun.tones_add_ST, fun k hk => ?_⟩
  obtain ⟨-, htones⟩ | ⟨-, htones⟩ := hrun.tones hk <;> omega

/-- Settles O43: at DT = 0 the stamp has moved on by v periods, each in a step of its own, and it is the time of a step already taken. -/
theorem delayDecaysNoFasterThanTime : Obligations.DelayDecaysNoFasterThanTime := by
  unfold Obligations.DelayDecaysNoFasterThanTime
  intro run n hrun hend hstart
  obtain ⟨hsum, hsteps, hstamp⟩ := hrun.delay_lower
  have hzero : (run n).DT.toNat = 0 := by rw [hend]; rfl
  have htime := hstamp.resolve_left fun heq => hstart (heq.symm.trans hend)
  rw [hzero, Nat.zero_mul, Nat.add_zero] at hsum
  rw [hzero, Nat.zero_add] at hsteps
  exact ⟨hsum.trans htime, hsteps⟩

/-- Settles O44: by the time given DT has come down to 0 before the step, or its next decrement would be overdue. -/
theorem delayDecaysInTime : Obligations.DelayDecaysInTime := by
  unfold Obligations.DelayDecaysInTime
  intro run n g hrun hg hfirst hgap hlate
  have hzero : (run n).DT.toNat = 0 := by
    by_contra hpos
    obtain ⟨hsoon, hsum⟩ := (hrun.of_succ.delay_upper hg hfirst hgap).resolve_left hpos
    have hunit := Nat.le_mul_of_pos_left ((run 0).cfg.timerPeriod + g) (Nat.pos_of_ne_zero hpos)
    omega
  obtain ⟨hpos, -⟩ | ⟨-, hDT, -⟩ := hrun.delay n.lt_succ_self
  · exact absurd hzero hpos.ne'
  · rw [hDT]
    exact BitVec.eq_of_toNat_eq hzero

end Sys2Proof
